-- ==== Sys2Proof/Word.lean ====
section
/-!
DEFINITION. The bit-vector types of the core (spec/00_scope.md R8: an N-bit unsigned value is a `uN`).
-/

namespace Sys2Proof

/-- A bit of a byte-packed raster row, a stream or the RD buffer lives in a byte (R12). -/
abbrev Byte := BitVec 8

/-- A node code, a body nibble of a stream (R12, R85). -/
abbrev Nibble := BitVec 4

/-- A coordinate or a raster dimension: the source's `u16` (R24, R25, R38, R39). -/
abbrev Half := BitVec 16

/-- A host register, a command word, a MEM address or a Morton code (R21, R80, R6, R40). -/
abbrev Word := BitVec 32

end Sys2Proof
end

