-- ==== Sys2Proof/Syntax.lean ====
section
/-!
DEFINITION. The fourteen commands of the core (spec/30_encoding.md R80–R82, spec/opcode_table.json), one
constructor each, carrying the flags the command takes; and the reasons a command word is illegal (R83).
-/

namespace Sys2Proof

/-- One constructor per row of the opcode table. A flag that R82 forbids for a command has no place in its
constructor, so every term is a legal command. -/
inductive Instr where
  /-- NOP, OP 0x00 (R116). -/
  | nop
  /-- BUILD, OP 0x01 (R140); INV builds the tree of the complemented raster. -/
  | build (inv : Bool)
  /-- COMPRESS, OP 0x02 (R150). -/
  | compress
  /-- LINEARIZE, OP 0x03 (R160); INV goes to the header, COUNT computes the length only. -/
  | linearize (inv count : Bool)
  /-- DELINEARIZE, OP 0x04 (R170). -/
  | delinearize
  /-- RECONSTRUCT, OP 0x05 (R190); INV complements the in-bounds pixels. -/
  | reconstruct (inv : Bool)
  /-- ENCODE, OP 0x06 (R200). -/
  | encode
  /-- DECODE, OP 0x07 (R203). -/
  | decode
  /-- MORTON_ENC, OP 0x10 (R122). -/
  | mortonEnc
  /-- MORTON_DEC, OP 0x11 (R123). -/
  | mortonDec
  /-- MORTON_INCX, OP 0x12 (R124). -/
  | mortonIncx
  /-- MORTON_INCY, OP 0x13 (R125). -/
  | mortonIncy
  /-- MORTON_RSTX, OP 0x14 (R126). -/
  | mortonRstx
  /-- MORTON_RSTY, OP 0x15 (R127). -/
  | mortonRsty
  deriving DecidableEq, Repr

/-- Why a command word is illegal (R83, R113). The core reports each as BADCMD. -/
inductive IllegalWord where
  /-- OP is reserved: 0x08–0x0F or 0x16–0xFF (R81). -/
  | reservedOp
  /-- One of bits 31:10 is 1 (R80). -/
  | reservedBits
  /-- INV is 1 on a command that does not take it (R82). -/
  | invNotTaken
  /-- COUNT is 1 on a command that does not take it (R82). -/
  | countNotTaken
  deriving DecidableEq, Repr

end Sys2Proof
end

