-- ==== Sys2Proof/WellFormed.lean ====
section
/-!
DEFINITION. Which command words are legal, written from the prose of spec/30_encoding.md R82, R83 and
spec/40_control.md R113 alone: it shares no table with the decoder, so that the two can be held against each other.
-/

namespace Sys2Proof.WellFormed

/-- R80: OP is bits 7:0. -/
def op (w : Word) : Nat := w.toNat % 2 ^ 8

/-- R80: INV is bit 8. -/
def inv (w : Word) : Bool := w.getLsbD 8

/-- R80: COUNT is bit 9. -/
def count (w : Word) : Bool := w.getLsbD 9

/-- R81: "OP values 0x08–0x0F and 0x16–0xFF are reserved". -/
def opReserved (w : Word) : Bool :=
  (0x08 ≤ op w && op w ≤ 0x0F) || (0x16 ≤ op w && op w ≤ 0xFF)

/-- R83: "any of bits 31:10 is 1". -/
def reservedBitsSet (w : Word) : Bool := w.toNat / 2 ^ 10 != 0

/-- R82: "INV may be 1 only when OP is BUILD, LINEARIZE or RECONSTRUCT". -/
def invForbidden (w : Word) : Bool := inv w && !(op w == 0x01 || op w == 0x03 || op w == 0x05)

/-- R82: "COUNT may be 1 only when OP is LINEARIZE". -/
def countForbidden (w : Word) : Bool := count w && !(op w == 0x03)

/-- A legal command word: none of the conditions of R83 holds. -/
def legalWord (w : Word) : Bool :=
  !(opReserved w || reservedBitsSet w || invForbidden w || countForbidden w)

end Sys2Proof.WellFormed

namespace Sys2Proof

/-- Every term of `Instr` is a legal command, because a constructor has room only for the flags R82 allows it;
what can be ill-formed on this hardware is a command WORD (`WellFormed.legalWord`). -/
def Instr.wellFormed : Instr → Bool
  | .nop | .build _ | .compress | .linearize _ _ | .delinearize | .reconstruct _ | .encode | .decode
  | .mortonEnc | .mortonDec | .mortonIncx | .mortonIncy | .mortonRstx | .mortonRsty => true

end Sys2Proof
end

