-- ==== Sys2Proof/Decode.lean ====
section
/-!
DEFINITION. Command word to command and back (spec/30_encoding.md R80–R83, spec/opcode_table.json). A word is
written whole to CMD, so no byte order enters (spec/20_memory.md R72).
-/

namespace Sys2Proof

/-- R81 and R82 in one table: what OP selects, as a function of the two flag bits. The two booleans say whether the
command takes INV and whether it takes COUNT. -/
def opcodeRow (op : Nat) : Option (Bool × Bool × (Bool → Bool → Instr)) :=
  match op with
  | 0x00 => some (false, false, fun _ _ => .nop)
  | 0x01 => some (true, false, fun inv _ => .build inv)
  | 0x02 => some (false, false, fun _ _ => .compress)
  | 0x03 => some (true, true, fun inv count => .linearize inv count)
  | 0x04 => some (false, false, fun _ _ => .delinearize)
  | 0x05 => some (true, false, fun inv _ => .reconstruct inv)
  | 0x06 => some (false, false, fun _ _ => .encode)
  | 0x07 => some (false, false, fun _ _ => .decode)
  | 0x10 => some (false, false, fun _ _ => .mortonEnc)
  | 0x11 => some (false, false, fun _ _ => .mortonDec)
  | 0x12 => some (false, false, fun _ _ => .mortonIncx)
  | 0x13 => some (false, false, fun _ _ => .mortonIncy)
  | 0x14 => some (false, false, fun _ _ => .mortonRstx)
  | 0x15 => some (false, false, fun _ _ => .mortonRsty)
  | _ => none

/-- The decoder: total on command words, rejecting each illegal word by the name of a reason (R83, R113). -/
def decode (w : Word) : Except IllegalWord Instr :=
  match opcodeRow (w.extractLsb' 0 8).toNat with
  | none => .error .reservedOp
  | some (takesInv, takesCount, instr) =>
    if w.extractLsb' 10 22 ≠ 0#22 then .error .reservedBits
    else if w.getLsbD 8 && !takesInv then .error .invNotTaken
    else if w.getLsbD 9 && !takesCount then .error .countNotTaken
    else .ok (instr (w.getLsbD 8) (w.getLsbD 9))

/-- R80: bits 31:10 zero, COUNT, INV, OP. -/
def commandWord (op : Byte) (inv count : Bool) : Word :=
  0#22 ++ BitVec.ofBool count ++ BitVec.ofBool inv ++ op

/-- The command word of a command (R81). -/
def encode : Instr → Word
  | .nop => commandWord 0x00#8 false false
  | .build inv => commandWord 0x01#8 inv false
  | .compress => commandWord 0x02#8 false false
  | .linearize inv count => commandWord 0x03#8 inv count
  | .delinearize => commandWord 0x04#8 false false
  | .reconstruct inv => commandWord 0x05#8 inv false
  | .encode => commandWord 0x06#8 false false
  | .decode => commandWord 0x07#8 false false
  | .mortonEnc => commandWord 0x10#8 false false
  | .mortonDec => commandWord 0x11#8 false false
  | .mortonIncx => commandWord 0x12#8 false false
  | .mortonIncy => commandWord 0x13#8 false false
  | .mortonRstx => commandWord 0x14#8 false false
  | .mortonRsty => commandWord 0x15#8 false false

/-- The word the opcode table's numbering gives: the low `nbits` bits of `w`, every higher bit 0. -/
def tableWord (nbits w : Nat) : Word := BitVec.ofNat 32 (w % 2 ^ nbits)

/-- The command the decoder reads from a word numbered as spec/opcode_table.json numbers it. -/
def decodeTableWord (nbits w : Nat) : Option Instr :=
  match decode (tableWord nbits w) with
  | .ok i => some i
  | .error _ => none

end Sys2Proof
end

