-- ==== Sys2Proof/Config.lean ====
section
/-!
DEFINITION. What the implementation and the platform fix (spec/00_scope.md R5–R7), what an unlisted byte of MEM
reads as, and the free values: constants without a body, of which nothing can be proved.
-/

namespace Sys2Proof.Config

/-- The open parameters of spec/92_eei_decisions.md. They are a field of State that no step changes, so that a
statement about every state holds for every value of them (log 1, log 2). -/
structure Params where
  /-- R_MAX, the largest tree depth accepted (R5); CAPS reads it (R41). Legal values are 1 to 15. -/
  rMax : BitVec 4
  /-- QTC_BASE, the host-bus address of the register block (R7). -/
  qtcBase : Nat
  deriving DecidableEq, Repr

/-- R_MAX at the spec's reference value 14 (R5). QTC_BASE has no value in the spec: DESIGN CHOICE 0 (log 2). -/
def reference : Params := { rMax := 14#4, qtcBase := 0 }

/-- ADDR_W (R6): MEM has 2^32 byte addresses. -/
def addrW : Nat := 32

/-- The size of MEM in bytes (R42). -/
def memSize : Nat := 2 ^ addrW

/-- The size of the register window in bytes (R21). -/
def windowSize : Nat := 0x100

/-- What a byte of MEM that nothing has written reads as. DESIGN CHOICE, unsafe (log 3): the spec leaves MEM
unspecified at power-up (R42, U18). -/
def unlistedByte : Byte := 0#8

/-- FREE VALUE: the byte at address `a` after the draw numbered `n` (R73 (c), R251, U10, U11, U17, U20). -/
opaque freeByte (n a : Nat) : Byte

/-- FREE VALUE: a result register or `latched` after the draw numbered `n` (U11, U19). -/
opaque freeWord (n : Nat) : Word

/-- FREE VALUE: INFO after the draw numbered `n` (U11). -/
opaque freeInfo (n : Nat) : BitVec 2

/-- FREE VALUE: which of a command's possible outcomes is reported after the draw numbered `n` (U11). -/
opaque freeChoice (n : Nat) : Nat

end Sys2Proof.Config
end

