-- ==== Sys2Proof/Machine/State.lean ====
section
/-!
DEFINITION. The state of the core, the host's turns still to come, and the reasons a step can stop
(spec/10_state.md R20–R45, spec/70_reset_and_hazards.md R250).
-/

namespace Sys2Proof.Machine

/-- The sequencer's phase (R43). STATUS.BUSY is this bit (log 16). -/
inductive Phase where
  | idle
  | busy
  deriving DecidableEq, Repr

/-- The error codes of spec/60_exceptions.md R221 but NONE. -/
inductive CmdError where
  | invalidDimensions
  | capacity
  | corruptStream
  | badCmd
  | badAddr
  | badTree
  deriving DecidableEq, Repr

/-- The fields of STATUS but BUSY (R23). -/
structure Status where
  done : Bool
  err : Bool
  errcode : BitVec 4
  lost : Bool
  deriving DecidableEq, Repr

/-- The operand registers the host programs for the tree commands (R24, R25, R28–R35). -/
structure Regs where
  width : Half
  height : Half
  rasterInBase : Word
  rasterOutBase : Word
  treeBase : Word
  rdBase : Word
  streamOutBase : Word
  streamOutCap : Word
  streamInBase : Word
  streamInLen : Word
  deriving DecidableEq, Repr

/-- The read-only result registers (R36, R37). INFO bit 0 is INV and bit 1 SHORTCUT. -/
structure Results where
  resultSize : Word
  info : BitVec 2
  deriving DecidableEq, Repr

/-- The registers of the morton_coordinate_converter (R38–R40). -/
structure Morton where
  x : Half
  y : Half
  code : Word
  deriving DecidableEq, Repr

/-- MEM (R42): the listed bytes, at strictly rising addresses, none equal to what an unlisted address reads as. -/
abbrev Memory := List Host.Cell

/-- What agents other than the core can do (R21, R73, R233, R250, R251). -/
inductive HostEvent where
  /-- A host-bus write of `size` bytes at the host-bus address `addr`; a 32-bit write carries `v`. -/
  | wr (addr size : Nat) (v : Word)
  /-- A host-bus read of `size` bytes at the host-bus address `addr`. -/
  | rd (addr size : Nat)
  /-- A byte write to MEM by the host or by another instance. -/
  | memWr (a : Word) (v : Byte)
  /-- A byte read of MEM by the host. -/
  | memRd (a : Word)
  /-- Another instance is running a command one of whose regions is [base, base + len); `writes` says whether that
  region is a W region (R233). -/
  | peer (base len : Word) (writes : Bool)
  /-- The platform's reset input (R250, R251). -/
  | reset
  /-- Power-up: a reset after which MEM is unspecified as well (R42, R250). -/
  | powerUp
  deriving DecidableEq, Repr

/-- One turn: the core's, or one event of another agent. -/
inductive Turn where
  | core
  | host (e : HostEvent)
  deriving DecidableEq, Repr

/-- What the host's latest read returned. -/
inductive Reply where
  /-- No read yet, or the read did not reach the core. -/
  | none
  /-- The value of a register read. -/
  | register (v : Word)
  /-- The value of a MEM byte read. -/
  | memory (v : Byte)
  deriving DecidableEq, Repr

/-- The state of one core, its MEM, and the turns still to come. -/
structure State where
  /-- R_MAX and QTC_BASE: no step changes them (log 1). -/
  params : Config.Params
  phase : Phase
  /-- The accepted command word, meaningful only while BUSY (R43). -/
  latched : Word
  status : Status
  regs : Regs
  results : Results
  morton : Morton
  mem : Memory
  /-- The model's own: the turns still to come; with none left it is the core's turn (log 5). -/
  inputs : List Turn
  /-- The model's own: the answer of the latest host read (log 6). -/
  reply : Reply
  /-- The model's own: another agent has touched the running command's regions, so that its output is unspecified
  (R73 (c), R233; log 7). -/
  interfered : Bool
  /-- The model's own: the number of free values drawn so far (log 8). -/
  draws : Nat
  deriving DecidableEq, Repr

/-- Reasons a step stops with a fault. There are none: "An error does not stop the core" (R220); every error is
reported in STATUS by a next state (log 19). Safe: no step can end so. -/
inductive Fault where
  deriving DecidableEq, Repr

/-- Reasons a step is refused. -/
inductive Refusal where
  /-- Raised by an arm of `exec` for a command without a meaning. No arm raises it. Safe. -/
  | notModelled (mnemonic : String)
  /-- Raised by a host access to the register window that is not an aligned 32-bit word: "Other access sizes are not
  supported, and a model refuses them" (R21, U13). Safe: the model stops where a bus might go on. -/
  | unsupportedAccess
  deriving DecidableEq, Repr

/-- The three outcomes of a step of this machine. -/
abbrev Outcome := Host.Outcome State Fault Refusal

namespace State

/-- R250: STATUS reads 0x00000000. -/
def resetStatus : Status := { done := false, err := false, errcode := 0#4, lost := false }

/-- R250: every operand register is 0. -/
def resetRegs : Regs :=
  { width := 0#16, height := 0#16, rasterInBase := 0#32, rasterOutBase := 0#32, treeBase := 0#32, rdBase := 0#32,
    streamOutBase := 0#32, streamOutCap := 0#32, streamInBase := 0#32, streamInLen := 0#32 }

/-- R250: RESULT_SIZE and INFO are 0. -/
def resetResults : Results := { resultSize := 0#32, info := 0#2 }

/-- R250: the Morton registers are 0. -/
def resetMorton : Morton := { x := 0#16, y := 0#16, code := 0#32 }

/-- The machine right after reset (R250): IDLE, every register 0, CAPS = R_MAX. DESIGN CHOICE: `latched` 0 (log 4),
QTC_BASE 0 (log 2), no byte of MEM listed (log 3), no turn to come (log 5), `draws` 0 (log 8). -/
def reset : State :=
  { params := Config.reference, phase := .idle, latched := 0#32, status := resetStatus, regs := resetRegs,
    results := resetResults, morton := resetMorton, mem := [], inputs := [], reply := .none, interfered := false,
    draws := 0 }

end State

end Sys2Proof.Machine
end

