-- ==== Sys2Proof/Machine/Ops.lean ====
section
/-!
DEFINITION. The shared operations: bits, MEM (spec/00_scope.md R8, R12; spec/10_state.md R42), free values, and the
life of a command: acceptance (R110), completion and the taking of an error (R112, R220–R226).
-/

namespace Sys2Proof.Machine

/-! Bits -/

/-- The n-bit value whose bit k is `f k`. -/
def ofBits : (n : Nat) → (Nat → Bool) → BitVec n
  | 0, _ => 0#0
  | n + 1, f => BitVec.cons (f n) (ofBits n f)

/-- popcount of a node code (R8). -/
def popcount (c : Nibble) : Nat := ((List.range 4).filter c.getLsbD).length

/-! Bytes of MEM -/

/-- MemRead(a, 1) (R8). -/
def Memory.read : Memory → Nat → Byte
  | [], _ => Config.unlistedByte
  | (k, b) :: m, a => if k = a then b else Memory.read m a

/-- Put byte `v` at `a` in a memory in canonical form, leaving it in canonical form. -/
def Memory.put : Memory → Nat → Byte → Memory
  | [], a, v => if v = Config.unlistedByte then [] else [(a, v)]
  | (k, b) :: m, a, v =>
    if a < k then (if v = Config.unlistedByte then (k, b) :: m else (a, v) :: (k, b) :: m)
    else if a = k then (if v = Config.unlistedByte then m else (a, v) :: m)
    else (k, b) :: Memory.put m a v

/-- MemWrite(a, 1, v) (R8). An address outside MEM holds no byte; no command that passes its checks
reaches one (R71 (a), R115; log 22). -/
def Memory.write (m : Memory) (a : Nat) (v : Byte) : Memory :=
  if a < Config.memSize then m.put a v else m

/-- The bytes `bs` at consecutive addresses from `a`. -/
def Memory.writeBytes : Memory → Nat → List Byte → Memory
  | m, _, [] => m
  | m, a, b :: bs => Memory.writeBytes (m.write a b) (a + 1) bs

/-- The `n` bytes from `a`. -/
def Memory.readBytes (m : Memory) (a n : Nat) : List Byte := (List.range n).map fun k => m.read (a + k)

/-- The canonical form: addresses strictly rising and inside MEM, and no byte listed that an unlisted address reads. -/
abbrev Memory.wf (m : Memory) : Prop :=
  m.Pairwise (fun c d => c.1 < d.1) ∧ ∀ c ∈ m, c.1 < Config.memSize ∧ c.2 ≠ Config.unlistedByte

/-! Nibbles of MEM -/

/-- The byte of two nibbles, the low one on the right (R8, R12). -/
def byteOf (hi lo : Nibble) : Byte := hi ++ lo

/-- The low or the high nibble of a byte: nibble i of a byte sequence is in byte i >> 1, the low one when i is even
(R12). -/
def nibbleOf (b : Byte) (i : Nat) : Nibble := if i % 2 = 0 then b.extractLsb' 0 4 else b.extractLsb' 4 4

/-- A byte with one nibble replaced and the other kept (R8). -/
def withNibble (b : Byte) (i : Nat) (v : Nibble) : Byte :=
  if i % 2 = 0 then byteOf (b.extractLsb' 4 4) v else byteOf v (b.extractLsb' 0 4)

/-- NibRead(b, i) (R8). -/
def Memory.nibRead (m : Memory) (b i : Nat) : Nibble := nibbleOf (m.read (b + i / 2)) i

/-- NibWrite(b, i, v) (R8). -/
def Memory.nibWrite (m : Memory) (b i : Nat) (v : Nibble) : Memory :=
  m.write (b + i / 2) (withNibble (m.read (b + i / 2)) i v)

/-- NibWrite of the codes `cs` at positions i, i + 1, … from base `b`. -/
def Memory.nibWrites : Memory → Nat → Nat → List Nibble → Memory
  | m, _, _, [] => m
  | m, b, i, c :: cs => Memory.nibWrites (m.nibWrite b i c) b (i + 1) cs

/-! Free values -/

/-- Give every byte of [a, a + n) a free value of the draw numbered `d` (U10, U11, U17, U20). -/
def Memory.fillFree (d : Nat) : Memory → Nat → Nat → Memory
  | m, _, 0 => m
  | m, a, n + 1 => Memory.fillFree d (m.write a (Config.freeByte d a)) (a + 1) n

/-! The life of a command -/

/-- ERRCODE of an error (R221). -/
def CmdError.code : CmdError → BitVec 4
  | .invalidDimensions => 1#4
  | .capacity => 2#4
  | .corruptStream => 3#4
  | .badCmd => 4#4
  | .badAddr => 5#4
  | .badTree => 6#4

/-- Acceptance of the command word `w` (R110). It is also the only "return" from an error: it clears ERR and ERRCODE
(R226). -/
def State.accept (s : State) (w : Word) : State :=
  { s with
    phase := .busy
    latched := w
    status := { done := false, err := false, errcode := 0#4, lost := false }
    interfered := false }

/-- STATUS at completion (R112): LOST keeps its value of the BUSY period. -/
def Status.complete (st : Status) (e : Option CmdError) : Status :=
  match e with
  | none => { st with done := true, err := false, errcode := 0#4 }
  | some err => { st with done := true, err := true, errcode := err.code }

/-- Completion of the running command (R112), with success or with an error. -/
def State.complete (s : State) (e : Option CmdError) : State :=
  { s with phase := .idle, status := s.status.complete e, interfered := false }

/-- TAKING AN ERROR, the one "exception" of this hardware (R220, R224, R225): the command completes with the error's
code and changes nothing else. No state is saved and no handler is entered. -/
def State.raiseError (s : State) (e : CmdError) : State := s.complete (some e)

/-- What a tree command's collected writes (R9) make of MEM, and its result registers where it writes them. -/
structure Effect where
  mem : Memory
  results : Option Results
  deriving DecidableEq, Repr

/-- Success: the collected writes take effect in the completion step (R112). -/
def State.commit (s : State) (eff : Effect) : State :=
  { s with mem := eff.mem, results := eff.results.getD s.results }.complete none

end Sys2Proof.Machine
end

