-- ==== Sys2Proof/Machine/Flags.lean ====
section
/-!
DEFINITION. The flags: the STATUS word (spec/10_state.md R23, R45), the bits of INFO and of a stream's header byte
(R37, spec/30_encoding.md R88), and the errors each command can report (spec/60_exceptions.md R222).
-/

namespace Sys2Proof.Machine

/-- STATUS as the host reads it (R23): BUSY 0, DONE 1, ERR 2, ERRCODE 7:4, LOST 8, every other bit 0. -/
def State.statusWord (s : State) : Word :=
  0#23 ++ BitVec.ofBool s.status.lost ++ s.status.errcode ++ 0#1 ++ BitVec.ofBool s.status.err
    ++ BitVec.ofBool s.status.done ++ BitVec.ofBool (s.phase == .busy)

/-- The header byte S[0] (R88): INV in bit 0, SHORTCUT in bit 1, bits 7:2 written 0. -/
def headerByte (inv shortcut : Bool) : Byte := 0#6 ++ BitVec.ofBool shortcut ++ BitVec.ofBool inv

/-- INFO copies bits 1:0 of the header byte (R37). -/
def infoOf (hdr : Byte) : BitVec 2 := hdr.extractLsb' 0 2

/-- The errors a command can report (R222). -/
def possibleErrors : Instr → List CmdError
  | .nop | .mortonEnc | .mortonDec | .mortonIncx | .mortonIncy | .mortonRstx | .mortonRsty => [.badCmd]
  | .build _ | .compress | .reconstruct _ => [.badCmd, .invalidDimensions, .badAddr]
  | .linearize _ false => [.badCmd, .invalidDimensions, .badAddr, .badTree, .capacity]
  | .linearize _ true => [.badCmd, .invalidDimensions, .badAddr, .badTree]
  | .delinearize | .decode => [.badCmd, .invalidDimensions, .badAddr, .corruptStream]
  | .encode => [.badCmd, .invalidDimensions, .badAddr, .capacity]

/-- FREE VALUE: the outcome of a command whose output is unspecified, drawn from success and `possibleErrors`
(U11; log 7). -/
def freeOutcome (d : Nat) (i : Instr) : Option CmdError :=
  let outcomes := none :: (possibleErrors i).map some
  outcomes.getD (Config.freeChoice d % outcomes.length) none

/-- The commands that write RESULT_SIZE and INFO (R36, R37). -/
def writesResults : Instr → Bool
  | .linearize _ _ | .delinearize | .encode | .decode => true
  | .nop | .build _ | .compress | .reconstruct _ | .mortonEnc | .mortonDec | .mortonIncx | .mortonIncy
  | .mortonRstx | .mortonRsty => false

end Sys2Proof.Machine
end

