-- ==== Sys2Proof/Machine/Operands.lean ====
section
/-!
DEFINITION. Operand assembly (spec/30_encoding.md R84), the geometry of the tree (spec/00_scope.md R10, R11;
spec/20_memory.md R61–R68), Morton codes (spec/41_morton.md R120, R121), the regions of a command and the checks at
command start (spec/20_memory.md R70, R71; spec/40_control.md R114, R115), and the frame every tree command shares.
-/

namespace Sys2Proof.Machine

/-! Depth and node numbers -/

/-- The first r, counting up from `r`, with 2^r ≥ n, looking at most `fuel` further. -/
def depthFrom : Nat → Nat → Nat → Nat
  | 0, r, _ => r
  | fuel + 1, r, n => if n ≤ 2 ^ r then r else depthFrom fuel (r + 1) n

/-- depth(w, h) (R10): "the smallest integer r >= 1 with 2^r >= max(w, h)". Dimensions have 16 bits (R24, R25), so the
answer is at most 16. -/
def depth (w h : Half) : Nat := depthFrom 15 1 (max w.toNat h.toNat)

/-- N(r) = (4^r − 1)/3 (R11). -/
def nodeCount (r : Nat) : Nat := (4 ^ r - 1) / 3

/-- base(l), the index of the first node of level l (R64). -/
def levelBase (l : Nat) : Nat := (4 ^ l - 1) / 3

/-- child(i, q) (R65). -/
def child (i q : Nat) : Nat := 4 * i + 1 + q

/-- TB_BYTES(r) (R63). -/
def treeBytes (r : Nat) : Nat := (nodeCount r + 1) / 2

/-- row_bytes = ceil(w/8) (R61). -/
def rowBytes (w : Nat) : Nat := (w + 7) / 8

/-- The tree in a list, node 0 first; the code of node i. -/
def nodeAt (t : List Nibble) (i : Nat) : Nibble := t.getD i 0#4

/-! Morton codes -/

/-- mort(x, y) (R120): bit 2k is x[k], bit 2k + 1 is y[k]. -/
def mort (x y : Half) : Word := ofBits 32 fun j => if j % 2 = 0 then x.getLsbD (j / 2) else y.getLsbD (j / 2)

/-- demort(m) (R121): x[k] = m[2k], y[k] = m[2k + 1]. -/
def demort (m : Word) : Half × Half :=
  (ofBits 16 fun k => m.getLsbD (2 * k), ofBits 16 fun k => m.getLsbD (2 * k + 1))

/-- mort on coordinates given as integers. -/
def mortNat (x y : Nat) : Nat := (mort (BitVec.ofNat 16 x) (BitVec.ofNat 16 y)).toNat

/-! Buffers -/

/-- pixel(B, w, x, y) (R61). -/
def pixel (m : Memory) (b w x y : Nat) : Bool := (m.read (b + y * rowBytes w + x / 8)).getLsbD (x % 8)

/-- The codes T[0] … T[N(r) − 1] of the TREE buffer (R63). -/
def readTree (m : Memory) (b r : Nat) : List Nibble := (List.range (nodeCount r)).map fun i => m.nibRead b i

/-- Every code of the TREE buffer, then the pad nibble 0 (R63, R144). -/
def writeTree (m : Memory) (b : Nat) (t : List Nibble) : Memory := m.nibWrites b 0 (t ++ [0#4])

/-- The bytes RD[0] … RD[N(r) − 1] (R68). -/
def readRd (m : Memory) (b r : Nat) : List Byte := m.readBytes b (nodeCount r)

/-! Regions -/

/-- A region [base, base + len) of a command, read or written (R70). -/
structure Region where
  base : Nat
  len : Nat
  write : Bool
  deriving DecidableEq, Repr

/-- An address lies in a region. -/
def Region.has (g : Region) (a : Nat) : Bool := g.base ≤ a && a < g.base + g.len

/-- Two regions share a byte; a region of length 0 overlaps nothing (R71 (d)). -/
def Region.overlaps (g k : Region) : Bool :=
  0 < g.len && 0 < k.len && g.base < k.base + k.len && k.base < g.base + g.len

/-- RIN or ROUT (R70): HEIGHT · ceil(WIDTH/8) bytes. -/
def rasterRegion (rg : Regs) (base : Word) (write : Bool) : Region :=
  { base := base.toNat, len := rg.height.toNat * rowBytes rg.width.toNat, write := write }

/-- TREE (R70). -/
def treeRegion (rg : Regs) (r : Nat) (write : Bool) : Region :=
  { base := rg.treeBase.toNat, len := treeBytes r, write := write }

/-- RDB (R70). -/
def rdRegion (rg : Regs) (r : Nat) (write : Bool) : Region :=
  { base := rg.rdBase.toNat, len := nodeCount r, write := write }

/-- SOUT (R70). -/
def streamOutRegion (rg : Regs) : Region :=
  { base := rg.streamOutBase.toNat, len := rg.streamOutCap.toNat, write := true }

/-- SIN (R70). -/
def streamInRegion (rg : Regs) : Region :=
  { base := rg.streamInBase.toNat, len := rg.streamInLen.toNat, write := false }

/-- The regions of a command at depth r (R70). LINEARIZE with COUNT = 1 uses no SOUT; NOP and MORTON_* touch no MEM. -/
def regions (rg : Regs) (r : Nat) : Instr → List Region
  | .build _ => [rasterRegion rg rg.rasterInBase false, treeRegion rg r true]
  | .compress => [treeRegion rg r false, rdRegion rg r true]
  | .linearize _ false => [treeRegion rg r false, rdRegion rg r false, streamOutRegion rg]
  | .linearize _ true => [treeRegion rg r false, rdRegion rg r false]
  | .delinearize => [streamInRegion rg, treeRegion rg r true]
  | .reconstruct _ => [treeRegion rg r false, rasterRegion rg rg.rasterOutBase true]
  | .encode => [rasterRegion rg rg.rasterInBase false, treeRegion rg r true, rdRegion rg r true, streamOutRegion rg]
  | .decode => [streamInRegion rg, treeRegion rg r true, rasterRegion rg rg.rasterOutBase true]
  | .nop | .mortonEnc | .mortonDec | .mortonIncx | .mortonIncy | .mortonRstx | .mortonRsty => []

/-- R71 (a): the region lies inside MEM without wrapping. -/
def Region.inMem (g : Region) : Bool := g.base + g.len ≤ Config.memSize

/-- R71 (b), (c): a W region and another region of the same command do not overlap; two R regions may. -/
def compatible (g k : Region) : Bool := !((g.write || k.write) && g.overlaps k)

/-- R71 (b) over every pair of regions of a command. -/
def disjointWrites : List Region → Bool
  | [] => true
  | g :: gs => gs.all (compatible g) && disjointWrites gs

/-- R71: the regions are valid. -/
def regionsValid (gs : List Region) : Bool := gs.all Region.inMem && disjointWrites gs

/-! The checks at command start -/

/-- R_MAX (R5). -/
def State.rMax (s : State) : Nat := s.params.rMax.toNat

/-- check_dimensions() (R114). -/
def State.checkDimensions (s : State) : Except CmdError Nat :=
  if s.regs.width = 0#16 ∨ s.regs.height = 0#16 then .error .invalidDimensions
  else
    let r := depth s.regs.width s.regs.height
    if s.rMax < r then .error .invalidDimensions else .ok r

/-- check_dimensions, then check_regions (R111, R114, R115, R223): the depth, or the first error that applies. -/
def State.checks (s : State) (i : Instr) : Except CmdError Nat :=
  match s.checkDimensions with
  | .error e => .error e
  | .ok r => if regionsValid (regions s.regs r i) then .ok r else .error .badAddr

/-- DEPTH (R26): depth(WIDTH, HEIGHT) when both are at least 1 and that depth is at most R_MAX, otherwise 0. -/
def State.depthReg (s : State) : Nat :=
  if s.regs.width = 0#16 ∨ s.regs.height = 0#16 then 0
  else if depth s.regs.width s.regs.height ≤ s.rMax then depth s.regs.width s.regs.height else 0

/-- NODE_COUNT (R27): N(DEPTH) when DEPTH ≠ 0, and 0 otherwise. -/
def State.nodeCountReg (s : State) : Nat := if s.depthReg = 0 then 0 else nodeCount s.depthReg

/-! The running command -/

/-- The word the sequencer executes next: the latched command while BUSY, none while IDLE (R43, R111). -/
def State.fetch (s : State) : Option (Except IllegalWord Instr) :=
  match s.phase with
  | .idle => none
  | .busy => some (decode s.latched)

/-- The regions of the running command (R70, with r = DEPTH), whether or not its checks will pass: R73 (c), R251 and R233
make no exception. None while IDLE, and none for an illegal word, which is no command (log 7). -/
def State.runningRegions (s : State) : List Region :=
  match s.fetch with
  | some (.ok i) => regions s.regs s.depthReg i
  | _ => []

/-- Give every byte of the W regions among `gs` a free value. -/
def Memory.fillWrites (m : Memory) (d : Nat) (gs : List Region) : Memory :=
  gs.foldl (fun m g => if g.write then m.fillFree d g.base g.len else m) m

/-- The completion of a command whose output another agent has made unspecified (R73 (c), R233, U11, U20; log 7):
every byte of its W regions, its result registers and its outcome are free values. -/
def State.completeUnspecified (s : State) (i : Instr) : State :=
  { s with
    mem := s.mem.fillWrites s.draws (regions s.regs s.depthReg i)
    results := if writesResults i
      then { resultSize := Config.freeWord s.draws, info := Config.freeInfo s.draws } else s.results
    draws := s.draws + 1 }.complete (freeOutcome s.draws i)

/-- The frame of every tree command (R111): the checks in order, then the operation on the collected writes, then
completion. An error discards every write (R9, R224). Where another agent has touched the command's regions its whole
output is unspecified, the result of its checks included (U11). -/
def runTree (i : Instr) (s : State) (perform : Nat → Except CmdError Effect) : Outcome :=
  if s.interfered then .next (s.completeUnspecified i)
  else match s.checks i with
    | .error e => .next (s.raiseError e)
    | .ok r =>
      match perform r with
      | .error e => .next (s.raiseError e)
      | .ok eff => .next (s.commit eff)

end Sys2Proof.Machine
end

