-- ==== Sys2Proof/Machine/Control.lean ====
section
/-!
DEFINITION. NOP (spec/40_control.md R116), and the illegal command word (R113).
-/

namespace Sys2Proof.Machine

/-- NOP (R116): "(nothing)" but completion. -/
def execNop (s : State) : Outcome := .next (s.complete none)

/-- An illegal command word: BADCMD, nothing else (R83, R113). -/
def execIllegal (s : State) : Outcome := .next (s.raiseError .badCmd)

end Sys2Proof.Machine
end

