-- ==== Sys2Proof/Machine/Morton.lean ====
section
/-!
DEFINITION. The morton_coordinate_converter commands (spec/41_morton.md R122–R127). None reads WIDTH, HEIGHT or MEM.
-/

namespace Sys2Proof.Machine

/-- Success of a Morton command, which writes `mo` to MORTON_X, MORTON_Y and MORTON_CODE. -/
def completeMorton (s : State) (mo : Morton) : Outcome := .next ({ s with morton := mo }.complete none)

/-- MORTON_ENC (R122): MORTON_CODE <- mort(MORTON_X, MORTON_Y). -/
def execMortonEnc (s : State) : Outcome :=
  completeMorton s { s.morton with code := mort s.morton.x s.morton.y }

/-- MORTON_DEC (R123): (MORTON_X, MORTON_Y) <- demort(MORTON_CODE). -/
def execMortonDec (s : State) : Outcome :=
  completeMorton s { s.morton with x := (demort s.morton.code).1, y := (demort s.morton.code).2 }

/-- MORTON_INCX (R124): x + 1 modulo 2^16, y kept. -/
def execMortonIncx (s : State) : Outcome :=
  completeMorton s { s.morton with code := mort ((demort s.morton.code).1 + 1#16) (demort s.morton.code).2 }

/-- MORTON_INCY (R125): y + 1 modulo 2^16, x kept. -/
def execMortonIncy (s : State) : Outcome :=
  completeMorton s { s.morton with code := mort (demort s.morton.code).1 ((demort s.morton.code).2 + 1#16) }

/-- MORTON_RSTX (R126): MORTON_CODE & 0xAAAAAAAA. -/
def execMortonRstx (s : State) : Outcome :=
  completeMorton s { s.morton with code := s.morton.code &&& 0xAAAAAAAA#32 }

/-- MORTON_RSTY (R127): MORTON_CODE & 0x55555555. -/
def execMortonRsty (s : State) : Outcome :=
  completeMorton s { s.morton with code := s.morton.code &&& 0x55555555#32 }

end Sys2Proof.Machine
end

