-- ==== Sys2Proof/Machine/Compressor.lean ====
section
/-!
DEFINITION. The tree_fill_compressor: COMPRESS (spec/43_compressor.md R150–R155, spec/30_encoding.md R87).
-/

namespace Sys2Proof.Machine

/-- UH of node i, which stands `height` levels above the leaves (R151). -/
def uniformHeight (t : List Nibble) : (height : Nat) → (i : Nat) → Nat
  | 0, i => if nodeAt t i = 0#4 then 0 else 1
  | height + 1, i =>
    if nodeAt t i = 0#4 then 0
    else
      1 + ((((List.range 4).filter (nodeAt t i).getLsbD).map fun q =>
        if nodeAt t (child i q) = nodeAt t i then uniformHeight t height (child i q) else 0).min?.getD 0)

/-- The span s and LCODE that R152 considers for a node with `rem` levels left and uniform height `h`. -/
def runSpan (rem h : Nat) : Nat × Nat := if h = rem then (rem, 7) else (min h 7, min h 7 - 1)

/-- RUN (R152): a run of span s of code c takes fewer nibbles than the plain codes. -/
def runPays (c : Nibble) (s : Nat) : Bool :=
  2 ≤ s && (3 ≤ popcount c || (popcount c == 2 && 3 ≤ s) || (popcount c == 1 && 4 ≤ s))

/-- The RD byte (R87): LCODE in bits 7:5, RUN in bit 4, UH in bits 3:0. -/
def rdByte (lcode : BitVec 3) (run : Bool) (uh : BitVec 4) : Byte := lcode ++ BitVec.ofBool run ++ uh

/-- The RD byte of a node of code `c`, with `rem` = r − level levels left and uniform height `h` (R152). -/
def descriptor (c : Nibble) (rem h : Nat) : Byte :=
  if c = 0#4 then rdByte 0#3 false (BitVec.ofNat 4 h)
  else if runPays c (runSpan rem h).1 then rdByte (BitVec.ofNat 3 (runSpan rem h).2) true (BitVec.ofNat 4 h)
  else rdByte 0#3 false (BitVec.ofNat 4 h)

/-- The run descriptors of a tree of depth r, one byte per node, node 0 first (R150). -/
def descriptors (t : List Nibble) (r : Nat) : List Byte :=
  (List.range r).flatMap fun l => (List.range (4 ^ l)).map fun m =>
    descriptor (nodeAt t (levelBase l + m)) (r - l) (uniformHeight t (r - 1 - l) (levelBase l + m))

/-- COMPRESS (R150, R153). -/
def execCompress (s : State) : Outcome :=
  runTree .compress s fun r =>
    .ok { mem := s.mem.writeBytes s.regs.rdBase.toNat (descriptors (readTree s.mem s.regs.treeBase.toNat r) r),
          results := none }

end Sys2Proof.Machine
end

