-- ==== Sys2Proof/Machine/Decoder.lean ====
section
/-!
DEFINITION. The quadtree_decoder: RECONSTRUCT (spec/45_decoder.md R190–R193).
-/

namespace Sys2Proof.Machine

/-- opix(x, y, inv) (R191): only leaf codes are read. -/
def opix (t : List Nibble) (r : Nat) (inv : Bool) (x y : Nat) : Bool :=
  ((nodeAt t (levelBase (r - 1) + mortNat x y / 4)).getLsbD (mortNat x y % 4)).xor inv

/-- The byte of columns 8j to 8j + 7 of row y (R190): raster pad bits are 0 for both polarities (R192). -/
def rasterByte (t : List Nibble) (r w : Nat) (inv : Bool) (y j : Nat) : Byte :=
  ofBits 8 fun k => decide (8 * j + k < w) && opix t r inv (8 * j + k) y

/-- The raster of a tree, row 0 first (R190). -/
def rasterBytes (t : List Nibble) (r w h : Nat) (inv : Bool) : List Byte :=
  (List.range h).flatMap fun y => (List.range (rowBytes w)).map fun j => rasterByte t r w inv y j

/-- MEM with the raster of a tree written to ROUT (R190, R192). -/
def writeRaster (s : State) (m : Memory) (t : List Nibble) (r : Nat) (inv : Bool) : Memory :=
  m.writeBytes s.regs.rasterOutBase.toNat (rasterBytes t r s.regs.width.toNat s.regs.height.toNat inv)

/-- RECONSTRUCT (R190). -/
def execReconstruct (inv : Bool) (s : State) : Outcome :=
  runTree (.reconstruct inv) s fun r =>
    .ok { mem := writeRaster s s.mem (readTree s.mem s.regs.treeBase.toNat r) r inv, results := none }

end Sys2Proof.Machine
end

