-- ==== Sys2Proof/Machine/Encoder.lean ====
section
/-!
DEFINITION. The quadtree_encoder: BUILD (spec/42_encoder.md R140–R145).
-/

namespace Sys2Proof.Machine

/-- epix(x, y, inv) (R141): padding is 0 for both polarities. -/
def epix (m : Memory) (b w h : Nat) (inv : Bool) (x y : Nat) : Bool :=
  if w ≤ x ∨ h ≤ y then false else (pixel m b w x y).xor inv

/-- The code of leaf m (R142): bit q is the effective pixel at quadrant q of its 2×2 block. -/
def leafCode (pix : Nat → Nat → Bool) (m : Nat) : Nibble :=
  let bx := (demort (BitVec.ofNat 32 m)).1.toNat
  let by' := (demort (BitVec.ofNat 32 m)).2.toNat
  ofBits 4 fun q => pix (2 * bx + q % 2) (2 * by' + q / 2)

/-- The code of the node at position `m`, `height` levels above the leaves (R143): bit q is 1 iff child q is nonzero. -/
def nodeCode (pix : Nat → Nat → Bool) : (height : Nat) → (m : Nat) → Nibble
  | 0, m => leafCode pix m
  | height + 1, m => ofBits 4 fun q => nodeCode pix height (4 * m + q) != 0#4

/-- The tree of depth r over the effective pixels, level by level from the root (R140, R64). -/
def buildTree (pix : Nat → Nat → Bool) (r : Nat) : List Nibble :=
  (List.range r).flatMap fun l => (List.range (4 ^ l)).map fun m => nodeCode pix (r - 1 - l) m

/-- The tree BUILD makes of the raster in RIN with polarity `inv` (R140). -/
def rasterTree (s : State) (inv : Bool) (r : Nat) : List Nibble :=
  buildTree (epix s.mem s.regs.rasterInBase.toNat s.regs.width.toNat s.regs.height.toNat inv) r

/-- BUILD (R140, R144). -/
def execBuild (inv : Bool) (s : State) : Outcome :=
  runTree (.build inv) s fun r =>
    .ok { mem := writeTree s.mem s.regs.treeBase.toNat (rasterTree s inv r), results := none }

end Sys2Proof.Machine
end

