-- ==== Sys2Proof/Machine/Linearizer.lean ====
section
/-!
DEFINITION. The level_order_nibble_linearizer: LINEARIZE and DELINEARIZE (spec/44_linearizer.md R160–R176), with the
stream's items (spec/30_encoding.md R86, R88–R93).

Both directions walk the levels in order and hold one `Slot` for every node of a level: what the nodes above it have
settled about it. That is `present` and `covered` of R161 and R162, kept per node (log 17).
-/

namespace Sys2Proof.Machine

/-! Items -/

/-- An item of the stream body (R89). -/
inductive Item where
  /-- A code item: one nonzero nibble. -/
  | code (c : Nibble)
  /-- A run item of span code `lcode` and fill value `v`. -/
  | run (lcode : BitVec 3) (v : Nibble)
  deriving DecidableEq, Repr

/-- The nibbles the core emits for an item (R89, R90, R164): E = 1 and a value nibble only when the fill value is not
0xF. -/
def Item.nibbles : Item → List Nibble
  | .code c => [c]
  | .run lcode v =>
    if v = 0xF#4 then [0#4, 0#1 ++ lcode] else [0#4, 1#1 ++ lcode, v]

/-- span(LCODE, l) in a tree of depth r (R91). -/
def span (lcode : BitVec 3) (r l : Nat) : Nat := if lcode = 7#3 then r - l else lcode.toNat + 1

/-! Slots -/

/-- What the levels above have settled about a node (R161, R162). -/
inductive Slot where
  /-- Not present: code 0, no item. -/
  | absent
  /-- Present and not covered: it takes an item. -/
  | fresh
  /-- Covered by a run of fill value `v`, which covers `below` more levels under this node. -/
  | covered (v : Nibble) (below : Nat)
  deriving DecidableEq, Repr

/-- The slots of the four children of a node of effective code `c` whose run covers `below` more levels: a child in
quadrant q is present iff c[q] = 1 (R161), and covered while the run lasts (R162). -/
def childSlots (c : Nibble) (below : Nat) : List Slot :=
  (List.range 4).map fun q =>
    if c.getLsbD q then (match below with
      | 0 => .fresh
      | k + 1 => .covered c k)
    else .absent

/-- A tree of depth r ≥ 1 starts with the root present (R161). -/
def rootSlots : List Slot := [.fresh]

/-! LINEARIZE -/

/-- RUN of an RD byte (R87). -/
def rdRun (b : Byte) : Bool := b.getLsbD 4

/-- LCODE of an RD byte (R87). -/
def rdLcode (b : Byte) : BitVec 3 := b.extractLsb' 5 3

/-- One node of the traversal of R160: its nibbles, and the slots of its children. `c` and `d` are T[i] and RD[i]. -/
def linNode (r l : Nat) (slot : Slot) (c : Nibble) (d : Byte) : Except CmdError (List Nibble × List Slot) :=
  match slot with
  | .absent => .ok ([], childSlots 0#4 0)
  | .covered v below => .ok ([], childSlots v below)
  | .fresh =>
    if c = 0#4 then .error .badTree
    else if rdRun d then
      if r < l + span (rdLcode d) r l then .error .badTree
      else .ok ((Item.run (rdLcode d) c).nibbles, childSlots c (span (rdLcode d) r l - 1))
    else .ok ((Item.code c).nibbles, childSlots c 0)

/-- The nodes of level l from index i on, in ascending order (R163): their nibbles, and the slots of the next level. -/
def linSlots (t : List Nibble) (rd : List Byte) (r l : Nat) : Nat → List Slot →
    Except CmdError (List Nibble × List Slot)
  | _, [] => .ok ([], [])
  | i, slot :: slots =>
    match linNode r l slot (nodeAt t i) (rd.getD i 0#8) with
    | .error e => .error e
    | .ok (items, kids) =>
      match linSlots t rd r l (i + 1) slots with
      | .error e => .error e
      | .ok (items', kids') => .ok (items ++ items', kids ++ kids')

/-- The levels from l on, of which `n` are left: the nibbles of the stream body (R160, R163). -/
def linLevels (t : List Nibble) (rd : List Byte) (r : Nat) : (n : Nat) → (l : Nat) → List Slot →
    Except CmdError (List Nibble)
  | 0, _, _ => .ok []
  | n + 1, l, slots =>
    match linSlots t rd r l (levelBase l) slots with
    | .error e => .error e
    | .ok (items, kids) =>
      match linLevels t rd r n (l + 1) kids with
      | .error e => .error e
      | .ok items' => .ok (items ++ items')

/-- pack(body) (R167): two nibbles a byte, low nibble first, a last odd one with high nibble 0. -/
def pack : List Nibble → List Byte
  | [] => []
  | [a] => [byteOf 0#4 a]
  | a :: b :: rest => byteOf b a :: pack rest

/-- The stream of a tree and its run descriptors with polarity `inv` (R160, R166): the header byte and the body. -/
def linearize (t : List Nibble) (rd : List Byte) (r : Nat) (inv : Bool) : Except CmdError (List Byte) :=
  if nodeAt t 0 = 0#4 then .ok [headerByte inv true]
  else
    match linLevels t rd r r 0 rootSlots with
    | .error e => .error e
    | .ok body => .ok (headerByte inv false :: pack body)

/-- RESULT_SIZE and INFO of a stream produced (R36, R37). -/
def streamResults (stream : List Byte) : Results :=
  { resultSize := BitVec.ofNat 32 stream.length, info := infoOf (stream.headD 0#8) }

/-- The stream of the tree in TREE and the descriptors in RDB (R160). -/
def linearizeBuffers (s : State) (r : Nat) (inv : Bool) : Except CmdError (List Byte) :=
  linearize (readTree s.mem s.regs.treeBase.toNat r) (readRd s.mem s.regs.rdBase.toNat r) r inv

/-- LINEARIZE (R160): with COUNT = 1 nothing is written to MEM and the capacity is not checked. -/
def execLinearize (inv count : Bool) (s : State) : Outcome :=
  runTree (.linearize inv count) s fun r =>
    match linearizeBuffers s r inv with
    | .error e => .error e
    | .ok stream =>
      if count then .ok { mem := s.mem, results := some (streamResults stream) }
      else if s.regs.streamOutCap.toNat < stream.length then .error .capacity
      else .ok { mem := s.mem.writeBytes s.regs.streamOutBase.toNat stream, results := some (streamResults stream) }

/-! DELINEARIZE -/

/-- next() at body nibble k of an input stream of `len` bytes at `b` (R69, R172): the length is checked before the
byte is read. -/
def nextNibble (m : Memory) (b len k : Nat) : Except CmdError Nibble :=
  if len ≤ 1 + k / 2 then .error .corruptStream else .ok (nibbleOf (m.read (b + (1 + k / 2))) k)

/-- The item at body nibble k and the position after it (R89, R90, R92). -/
def readItem (next : Nat → Except CmdError Nibble) (k : Nat) : Except CmdError (Item × Nat) :=
  match next k with
  | .error e => .error e
  | .ok c =>
    if c ≠ 0#4 then .ok (.code c, k + 1)
    else match next (k + 1) with
      | .error e => .error e
      | .ok run =>
        if run.getLsbD 3 then
          match next (k + 2) with
          | .error e => .error e
          | .ok v => .ok (.run (run.extractLsb' 0 3) v, k + 3)
        else .ok (.run (run.extractLsb' 0 3) 0xF#4, k + 2)

/-- One node of the traversal of R170: its code, the levels its run still covers below it, and the position after
its item. V = 0 and a span past the leaf level are CorruptStream (R174). -/
def delNode (next : Nat → Except CmdError Nibble) (r l : Nat) (slot : Slot) (k : Nat) :
    Except CmdError (Nibble × Nat × Nat) :=
  match slot with
  | .absent => .ok (0#4, 0, k)
  | .covered v below => .ok (v, below, k)
  | .fresh =>
    match readItem next k with
    | .error e => .error e
    | .ok (.code c, k') => .ok (c, 0, k')
    | .ok (.run lcode v, k') =>
      if v = 0#4 then .error .corruptStream
      else if r < l + span lcode r l then .error .corruptStream
      else .ok (v, span lcode r l - 1, k')

/-- The nodes of level l in ascending order: their codes, the slots of the next level, and the position reached. -/
def delSlots (next : Nat → Except CmdError Nibble) (r l : Nat) : List Slot → Nat →
    Except CmdError (List Nibble × List Slot × Nat)
  | [], k => .ok ([], [], k)
  | slot :: slots, k =>
    match delNode next r l slot k with
    | .error e => .error e
    | .ok (c, below, k') =>
      match delSlots next r l slots k' with
      | .error e => .error e
      | .ok (cs, kids, k'') => .ok (c :: cs, childSlots c below ++ kids, k'')

/-- The levels from l on, of which `n` are left: the codes of their nodes and the number of nibbles read (R170). -/
def delLevels (next : Nat → Except CmdError Nibble) (r : Nat) : (n : Nat) → (l : Nat) → List Slot → Nat →
    Except CmdError (List Nibble × Nat)
  | 0, _, _, k => .ok ([], k)
  | n + 1, l, slots, k =>
    match delSlots next r l slots k with
    | .error e => .error e
    | .ok (cs, kids, k') =>
      match delLevels next r n (l + 1) kids k' with
      | .error e => .error e
      | .ok (cs', k'') => .ok (cs ++ cs', k'')

/-- What decoding a stream gives (R170). -/
structure Decoded where
  tree : List Nibble
  hdr : Byte
  consumed : Nat
  deriving DecidableEq, Repr

/-- The body of DELINEARIZE on the `len` bytes at `b` for a tree of depth r (R170–R174). With SHORTCUT every code is
0. -/
def delinearize (m : Memory) (b len r : Nat) : Except CmdError Decoded :=
  if len = 0 then .error .corruptStream
  else
    let hdr := m.read b
    if hdr.getLsbD 1 then .ok { tree := List.replicate (nodeCount r) 0#4, hdr := hdr, consumed := 1 }
    else
      match delLevels (nextNibble m b len) r r 0 rootSlots 0 with
      | .error e => .error e
      | .ok (tree, k) => .ok { tree := tree, hdr := hdr, consumed := 1 + (k + 1) / 2 }

/-- The body of DELINEARIZE on the stream in SIN (R170). -/
def delinearizeBuffer (s : State) (r : Nat) : Except CmdError Decoded :=
  delinearize s.mem s.regs.streamInBase.toNat s.regs.streamInLen.toNat r

/-- RESULT_SIZE and INFO of a stream consumed (R36, R37). -/
def decodedResults (d : Decoded) : Results := { resultSize := BitVec.ofNat 32 d.consumed, info := infoOf d.hdr }

/-- DELINEARIZE (R170). -/
def execDelinearize (s : State) : Outcome :=
  runTree .delinearize s fun r =>
    match delinearizeBuffer s r with
    | .error e => .error e
    | .ok d => .ok { mem := writeTree s.mem s.regs.treeBase.toNat d.tree, results := some (decodedResults d) }

end Sys2Proof.Machine
end

