-- ==== Sys2Proof/Machine/Pipeline.lean ====
section
/-!
DEFINITION. The pipeline commands: ENCODE and DECODE (spec/46_pipeline.md R200–R209).
-/

namespace Sys2Proof.Machine

/-- A candidate of the polarity trial (R201): the tree, its descriptors and their stream. -/
structure Candidate where
  tree : List Nibble
  rd : List Byte
  stream : List Byte
  deriving DecidableEq, Repr

/-- The candidate of polarity p (R201). -/
def candidate (s : State) (p : Bool) (r : Nat) : Except CmdError Candidate :=
  let t := rasterTree s p r
  let rd := descriptors t r
  match linearize t rd r p with
  | .error e => .error e
  | .ok stream => .ok { tree := t, rd := rd, stream := stream }

/-- The polarity trial (R201): the shorter stream, the non-inverted one on a tie. -/
def polarityTrial (s : State) (r : Nat) : Except CmdError Candidate :=
  match candidate s false r, candidate s true r with
  | .error e, _ => .error e
  | _, .error e => .error e
  | .ok c0, .ok c1 => .ok (if c1.stream.length < c0.stream.length then c1 else c0)

/-- ENCODE (R200). -/
def execEncode (s : State) : Outcome :=
  runTree .encode s fun r =>
    match polarityTrial s r with
    | .error e => .error e
    | .ok c =>
      if s.regs.streamOutCap.toNat < c.stream.length then .error .capacity
      else
        let m := writeTree s.mem s.regs.treeBase.toNat c.tree
        let m := m.writeBytes s.regs.rdBase.toNat c.rd
        .ok { mem := m.writeBytes s.regs.streamOutBase.toNat c.stream, results := some (streamResults c.stream) }

/-- DECODE (R203, R204). -/
def execDecode (s : State) : Outcome :=
  runTree .decode s fun r =>
    match delinearizeBuffer s r with
    | .error e => .error e
    | .ok d =>
      .ok { mem := writeRaster s (writeTree s.mem s.regs.treeBase.toNat d.tree) d.tree r (d.hdr.getLsbD 0),
            results := some (decodedResults d) }

end Sys2Proof.Machine
end

