-- ==== Sys2Proof/Machine/Dispatch.lean ====
section
/-!
DEFINITION. One arm per command (spec/30_encoding.md R81).
-/

namespace Sys2Proof.Machine

def exec (i : Instr) (s : State) : Host.Outcome State Fault Refusal :=
  match i with
  | .nop => Sys2Proof.Machine.execNop s
  | .build inv => Sys2Proof.Machine.execBuild inv s
  | .compress => Sys2Proof.Machine.execCompress s
  | .linearize inv count => Sys2Proof.Machine.execLinearize inv count s
  | .delinearize => Sys2Proof.Machine.execDelinearize s
  | .reconstruct inv => Sys2Proof.Machine.execReconstruct inv s
  | .encode => Sys2Proof.Machine.execEncode s
  | .decode => Sys2Proof.Machine.execDecode s
  | .mortonEnc => Sys2Proof.Machine.execMortonEnc s
  | .mortonDec => Sys2Proof.Machine.execMortonDec s
  | .mortonIncx => Sys2Proof.Machine.execMortonIncx s
  | .mortonIncy => Sys2Proof.Machine.execMortonIncy s
  | .mortonRstx => Sys2Proof.Machine.execMortonRstx s
  | .mortonRsty => Sys2Proof.Machine.execMortonRsty s

end Sys2Proof.Machine
end

