-- ==== Sys2Proof/Machine/HostPort.lean ====
section
/-!
DEFINITION. The host interface: the register block (spec/10_state.md R21–R41), host accesses to MEM
(spec/20_memory.md R73), other instances (spec/60_exceptions.md R233), reset and power-up
(spec/70_reset_and_hazards.md R250, R251, R254).
-/

namespace Sys2Proof.Machine

/-! The register block -/

/-- The twenty registers of the register map (R21). -/
inductive RegName where
  | cmd | status | width | height | depth | nodeCount | rasterInBase | rasterOutBase | treeBase | rdBase
  | streamOutBase | streamOutCap | streamInBase | streamInLen | resultSize | info | mortonX | mortonY | mortonCode
  | caps
  deriving DecidableEq, Repr

/-- The register at an offset of the window; every other offset is reserved (R21, the register map). -/
def regAt (offset : Nat) : Option RegName :=
  match offset with
  | 0x00 => some .cmd
  | 0x04 => some .status
  | 0x08 => some .width
  | 0x0C => some .height
  | 0x10 => some .depth
  | 0x14 => some .nodeCount
  | 0x18 => some .rasterInBase
  | 0x1C => some .rasterOutBase
  | 0x20 => some .treeBase
  | 0x24 => some .rdBase
  | 0x28 => some .streamOutBase
  | 0x2C => some .streamOutCap
  | 0x30 => some .streamInBase
  | 0x34 => some .streamInLen
  | 0x38 => some .resultSize
  | 0x3C => some .info
  | 0x40 => some .mortonX
  | 0x44 => some .mortonY
  | 0x48 => some .mortonCode
  | 0x4C => some .caps
  | _ => none

/-- What a register reads as (R22–R41): CMD reads 0, reserved bits read 0. -/
def State.readReg (s : State) : RegName → Word
  | .cmd => 0#32
  | .status => s.statusWord
  | .width => s.regs.width.setWidth 32
  | .height => s.regs.height.setWidth 32
  | .depth => BitVec.ofNat 32 s.depthReg
  | .nodeCount => BitVec.ofNat 32 s.nodeCountReg
  | .rasterInBase => s.regs.rasterInBase
  | .rasterOutBase => s.regs.rasterOutBase
  | .treeBase => s.regs.treeBase
  | .rdBase => s.regs.rdBase
  | .streamOutBase => s.regs.streamOutBase
  | .streamOutCap => s.regs.streamOutCap
  | .streamInBase => s.regs.streamInBase
  | .streamInLen => s.regs.streamInLen
  | .resultSize => s.results.resultSize
  | .info => s.results.info.setWidth 32
  | .mortonX => s.morton.x.setWidth 32
  | .mortonY => s.morton.y.setWidth 32
  | .mortonCode => s.morton.code
  | .caps => s.params.rMax.setWidth 32

/-- What an offset of the window reads as: a reserved one reads 0 (R21, U14). -/
def State.readOffset (s : State) (offset : Nat) : Word :=
  match regAt offset with
  | some n => s.readReg n
  | none => 0#32

/-- A write to a register while IDLE (R21–R41): to CMD it is acceptance (R110), to a read-only register it is ignored,
and reserved bits are dropped. -/
def State.writeReg (s : State) (v : Word) : RegName → State
  | .cmd => s.accept v
  | .width => { s with regs := { s.regs with width := v.setWidth 16 } }
  | .height => { s with regs := { s.regs with height := v.setWidth 16 } }
  | .rasterInBase => { s with regs := { s.regs with rasterInBase := v } }
  | .rasterOutBase => { s with regs := { s.regs with rasterOutBase := v } }
  | .treeBase => { s with regs := { s.regs with treeBase := v } }
  | .rdBase => { s with regs := { s.regs with rdBase := v } }
  | .streamOutBase => { s with regs := { s.regs with streamOutBase := v } }
  | .streamOutCap => { s with regs := { s.regs with streamOutCap := v } }
  | .streamInBase => { s with regs := { s.regs with streamInBase := v } }
  | .streamInLen => { s with regs := { s.regs with streamInLen := v } }
  | .mortonX => { s with morton := { s.morton with x := v.setWidth 16 } }
  | .mortonY => { s with morton := { s.morton with y := v.setWidth 16 } }
  | .mortonCode => { s with morton := { s.morton with code := v } }
  | .status | .depth | .nodeCount | .resultSize | .info | .caps => s

/-- A host write of a word at an offset of the window: while BUSY it is ignored and sets LOST, whatever the offset;
a write to a reserved offset is ignored (R21, R227). -/
def State.writeOffset (s : State) (offset : Nat) (v : Word) : State :=
  match s.phase with
  | .busy => { s with status := { s.status with lost := true } }
  | .idle =>
    match regAt offset with
    | some n => s.writeReg v n
    | none => s

/-- Where a host-bus access of `size` bytes at `addr` lands (R7, R21). -/
inductive Access where
  /-- It touches no byte of the register window. -/
  | outside
  /-- A whole aligned 32-bit word at this offset. -/
  | word (offset : Nat)
  /-- It touches the window but is not a whole aligned word. -/
  | unsupported
  deriving DecidableEq, Repr

/-- R21: "whole aligned 32-bit words only", at offsets from QTC_BASE (logs 12, 13). -/
def State.access (s : State) (addr size : Nat) : Access :=
  if addr < s.params.qtcBase + Config.windowSize ∧ s.params.qtcBase < addr + size then
    if size = 4 ∧ s.params.qtcBase ≤ addr ∧ (addr - s.params.qtcBase) % 4 = 0 then
      .word (addr - s.params.qtcBase)
    else .unsupported
  else .outside

/-! Accesses to MEM by other agents -/

/-- A byte write to MEM by the host or another instance: into a region of the running command it makes the command's
whole output unspecified (R73 (c), U11). -/
def State.memWrite (s : State) (a : Word) (v : Byte) : State :=
  { s with
    mem := s.mem.write a.toNat v
    interfered := s.interfered || s.runningRegions.any fun g => g.has a.toNat }

/-- A byte read of MEM by the host: of a byte in a W region of the running command it gives a free value (R73 (c),
U10). -/
def State.memRead (s : State) (a : Word) : State :=
  if s.runningRegions.any fun g => g.write && g.has a.toNat then
    { s with reply := .memory (Config.freeByte s.draws a.toNat), draws := s.draws + 1 }
  else { s with reply := .memory (s.mem.read a.toNat) }

/-- The part of region `g` that lies in region `k`. -/
def Region.meet (g k : Region) : Region :=
  { base := max g.base k.base, len := min (g.base + g.len) (k.base + k.len) - max g.base k.base, write := g.write }

/-- Another instance runs a command with the region `k`: where `k` and a region of our running command overlap and one
of the two is written, the overlapped bytes and the outputs of both commands are unspecified (R233, U20; log 14). -/
def State.peerCommand (s : State) (k : Region) : State :=
  let met := s.runningRegions.filter fun g => (g.write || k.write) && g.overlaps k
  match met with
  | [] => s
  | _ :: _ =>
    { s with
      mem := met.foldl (fun m g => m.fillFree s.draws (g.meet k).base (g.meet k).len) s.mem
      interfered := true
      draws := s.draws + 1 }

/-! Reset -/

/-- The registers and the sequencer take their reset values and `latched` a free one, with MEM as given (R250, U19). The
parameters are constants, and the turns to come, the latest reply and the count of draws are not the core's. -/
def State.resetCore (s : State) (m : Memory) : State :=
  { State.reset with
    params := s.params
    latched := Config.freeWord s.draws
    mem := m
    inputs := s.inputs
    reply := s.reply
    draws := s.draws + 1 }

/-- The reset input (R250, R251): every byte of the abandoned command's W regions is a free value, every other byte of
MEM is unchanged. -/
def State.resetInput (s : State) : State := s.resetCore (s.mem.fillWrites s.draws s.runningRegions)

/-- Power-up: the registers as after reset, every byte of MEM a free value (R42, R250, U18; log 11). -/
def State.powerUp (s : State) : State := s.resetCore (s.mem.fillFree s.draws 0 Config.memSize)

/-! One turn of another agent -/

/-- One event. An access that touches no byte of the window does not reach this core (log 12); a register access that
is not a whole aligned word is refused (R21, U13). -/
def hostStep (e : HostEvent) (s : State) : Outcome :=
  match e with
  | .wr addr size v =>
    match s.access addr size with
    | .outside => .next s
    | .word offset => .next (s.writeOffset offset v)
    | .unsupported => .refused .unsupportedAccess
  | .rd addr size =>
    match s.access addr size with
    | .outside => .next { s with reply := .none }
    | .word offset => .next { s with reply := .register (s.readOffset offset) }
    | .unsupported => .refused .unsupportedAccess
  | .memWr a v => .next (s.memWrite a v)
  | .memRd a => .next (s.memRead a)
  | .peer base len writes => .next (s.peerCommand { base := base.toNat, len := len.toNat, write := writes })
  | .reset => .next s.resetInput
  | .powerUp => .next s.powerUp

end Sys2Proof.Machine
end

