-- ==== Sys2Proof/Machine/Step.lean ====
section
/-!
DEFINITION. One step: the next turn in `inputs`, or the core's when none is left (spec/40_control.md R110–R112,
spec/70_reset_and_hazards.md R259, R260; log 5).
-/

namespace Sys2Proof.Machine

/-- The core's turn: while BUSY it executes the latched command (R111); "When IDLE it does nothing until a CMD write"
(R235). -/
def coreStep (s : State) : Host.Outcome State Fault Refusal :=
  match s.fetch with
  | none => .next s
  | some (.error _) => execIllegal s
  | some (.ok i) => exec i s

/-- One step of the machine. -/
def step (s : State) : Host.Outcome State Fault Refusal :=
  match s.inputs with
  | [] => coreStep s
  | .core :: rest => coreStep { s with inputs := rest }
  | .host e :: rest => hostStep e { s with inputs := rest }

/-- The state in which the very next step executes the command word `w` (R22, R110): the word is accepted, and no turn
of another agent comes first (log 5). -/
def State.withFetchWord (s : State) (nbits w : Nat) : State :=
  { s with inputs := [] }.accept (tableWord nbits w)

end Sys2Proof.Machine
end

