-- ==== Sys2Proof/Safety.lean ====
section
/-!
DEFINITION. The legal states of the core and the terms in which the statements speak of a command's completion.
-/

namespace Sys2Proof.Safety

open Sys2Proof.Machine

/-- The legal values of STATUS (R23): BUSY = 1 implies DONE = 0, ERR = 0 and ERRCODE = 0; ERR = 1 implies DONE = 1 and
ERRCODE ≠ 0; ERRCODE is 0 when ERR = 0; and ERRCODE is at most 6 (R221, U16). -/
abbrev LegalStatus (s : State) : Prop :=
  (s.phase = .busy → s.status.done = false ∧ s.status.err = false ∧ s.status.errcode = 0#4) ∧
  (s.status.err = true → s.status.done = true ∧ s.status.errcode ≠ 0#4) ∧
  (s.status.err = false → s.status.errcode = 0#4) ∧
  s.status.errcode.toNat ≤ 6

/-- A legal state: MEM in its canonical form, R_MAX legal (R5), STATUS legal, and an output made unspecified only while
a command runs. -/
abbrev Inv (s : State) : Prop :=
  s.mem.wf ∧ 1 ≤ s.rMax ∧ LegalStatus s ∧ (s.interfered = true → s.phase = .busy)

/-- What no command writes: the parameters, the operand registers, LOST, the latched word, and the fields that belong to
the other agents. -/
abbrev Frame (s t : State) : Prop :=
  t.params = s.params ∧ t.latched = s.latched ∧ t.regs = s.regs ∧ t.status.lost = s.status.lost ∧
  t.inputs = s.inputs ∧ t.reply = s.reply ∧ t.draws = s.draws

/-- The command completed with success (R112). -/
abbrev Succeeds (s t : State) : Prop :=
  t.phase = .idle ∧ t.status.done = true ∧ t.status.err = false ∧ t.status.errcode = 0#4 ∧ t.interfered = false ∧
  Frame s t

/-- The command completed with the error of code `code`, and changed nothing but STATUS (R112, R224). -/
abbrev Fails (s t : State) (code : BitVec 4) : Prop :=
  t.phase = .idle ∧ t.status.done = true ∧ t.status.err = true ∧ t.status.errcode = code ∧ t.interfered = false ∧
  Frame s t ∧ t.mem = s.mem ∧ t.results = s.results ∧ t.morton = s.morton

/-- A tree command passes its checks at depth r (R114, R115), and no other agent has touched its regions. -/
abbrev Ready (i : Instr) (s : State) (r : Nat) : Prop := s.checks i = .ok r ∧ s.interfered = false

/-- Every byte of MEM outside [base, base + len) reads as before. -/
abbrev SameOutside (s t : State) (base len : Nat) : Prop :=
  ∀ a, ¬(base ≤ a ∧ a < base + len) → t.mem.read a = s.mem.read a

/-- Nibble k of the byte sequence at b (R12): in byte k >> 1, the low one when k is even. -/
abbrev nibbleAt (m : Memory) (b k : Nat) : Nibble :=
  if k % 2 = 0 then (m.read (b + k / 2)).extractLsb' 0 4 else (m.read (b + k / 2)).extractLsb' 4 4

/-- T[i] in the TREE buffer (R63). -/
abbrev treeCode (s : State) (i : Nat) : Nibble := nibbleAt s.mem s.regs.treeBase.toNat i

/-- RD[i] in the RDB buffer (R68). -/
abbrev rdAt (s : State) (i : Nat) : Byte := s.mem.read (s.regs.rdBase.toNat + i)

/-- UH of RD[i] (R87). -/
abbrev rdHeight (s : State) (i : Nat) : Nat := ((rdAt s i).extractLsb' 0 4).toNat

/-- Body nibble k of the stream at b (R69): the body starts at S[1]. -/
abbrev bodyAt (m : Memory) (b k : Nat) : Nibble := nibbleAt m (b + 1) k

/-- Body nibble k of a stream (R69). -/
abbrev bodyNibble (stream : List Byte) (k : Nat) : Nibble :=
  if k % 2 = 0 then (stream.getD (1 + k / 2) 0#8).extractLsb' 0 4 else (stream.getD (1 + k / 2) 0#8).extractLsb' 4 4

/-- The pixel (x, y) of a raster of width w at b (R61): rows of ceil(w/8) bytes, the leftmost pixel in bit 0. -/
abbrev pixelAt (m : Memory) (b w x y : Nat) : Bool := (m.read (b + y * ((w + 7) / 8) + x / 8)).getLsbD (x % 8)

/-- The in-bounds pixel (x, y) of the input raster (R61). -/
abbrev pixelIn (s : State) (x y : Nat) : Bool := pixelAt s.mem s.regs.rasterInBase.toNat s.regs.width.toNat x y

/-- The bit of column x, row y of the output raster, pad bits included (R61, R62). -/
abbrev bitOut (s : State) (x y : Nat) : Bool := pixelAt s.mem s.regs.rasterOutBase.toNat s.regs.width.toNat x y

/-- The tree commands, which check dimensions and regions (R111). -/
def isTreeCommand : Instr → Bool
  | .build _ | .compress | .linearize _ _ | .delinearize | .reconstruct _ | .encode | .decode => true
  | .nop | .mortonEnc | .mortonDec | .mortonIncx | .mortonIncy | .mortonRstx | .mortonRsty => false

/-! The traversal of R160 seen from one node: what the path from the root settles about it, with no walk over the levels.
`t` and `rd` are T and RD. -/

/-- What a traversal knows of a node (R161, R162). -/
structure NodeView where
  /-- T'[i], 0 for a node that is not present. -/
  code : Nibble
  /-- How many more levels under the node the run over it covers. -/
  below : Nat
  /-- The node is present and not covered, so it takes an item (R163). -/
  emitted : Bool
  deriving DecidableEq, Repr

/-- The number of levels a run item at level l covers (R91). -/
def runLevels (lcode : BitVec 3) (r l : Nat) : Nat := if lcode = 7#3 then r - l else lcode.toNat + 1

/-- Node i of level l, present and not covered (R164). -/
def ownView (t : Nat → Nibble) (rd : Nat → Byte) (r l i : Nat) : NodeView :=
  { code := t i
    below := if (rd i).getLsbD 4 then runLevels ((rd i).extractLsb' 5 3) r l - 1 else 0
    emitted := true }

/-- The node at position m of level l (R161, R162). -/
def nodeView (t : Nat → Nibble) (rd : Nat → Byte) (r : Nat) : Nat → Nat → NodeView
  | 0, m => ownView t rd r 0 m
  | l + 1, m =>
    let parent := nodeView t rd r l (m / 4)
    if !parent.code.getLsbD (m % 4) then { code := 0#4, below := 0, emitted := false }
    else if 0 < parent.below then { code := parent.code, below := parent.below - 1, emitted := false }
    else ownView t rd r (l + 1) (levelBase (l + 1) + m)

/-- The nibbles of the item of the node at position m of level l, none where it takes none (R89, R90, R164). -/
def itemNibbles (t : Nat → Nibble) (rd : Nat → Byte) (r l m : Nat) : List Nibble :=
  let c := t (levelBase l + m)
  let d := rd (levelBase l + m)
  if (nodeView t rd r l m).emitted then
    if d.getLsbD 4 then
      [0#4, BitVec.ofBool (c != 0xF#4) ++ d.extractLsb' 5 3] ++ (if c = 0xF#4 then [] else [c])
    else [c]
  else []

/-- The nibbles of the items of level l that come before position m. -/
def levelBody (t : Nat → Nibble) (rd : Nat → Byte) (r l m : Nat) : List Nibble :=
  (List.range m).flatMap (itemNibbles t rd r l)

/-- The body of the stream: the items in level order (R163). -/
def streamBody (t : Nat → Nibble) (rd : Nat → Byte) (r : Nat) : List Nibble :=
  (List.range r).flatMap fun l => levelBody t rd r l (4 ^ l)

/-- The part of the body that comes before the item of the node at position m of level l (R163). -/
def bodyBefore (t : Nat → Nibble) (rd : Nat → Byte) (r l m : Nat) : List Nibble :=
  ((List.range l).flatMap fun k => levelBody t rd r k (4 ^ k)) ++ levelBody t rd r l m

/-- A node at which the traversal raises BADTREE (R165). -/
abbrev badNode (t : Nat → Nibble) (rd : Nat → Byte) (r l m : Nat) : Prop :=
  (nodeView t rd r l m).emitted = true ∧
  (t (levelBase l + m) = 0#4 ∨
    ((rd (levelBase l + m)).getLsbD 4 = true ∧ (rd (levelBase l + m)).extractLsb' 5 3 ≠ 7#3 ∧
      r < l + ((rd (levelBase l + m)).extractLsb' 5 3).toNat + 1))

/-- The length of a stream whose body has k nibbles (R93). -/
abbrev streamLength (k : Nat) : Nat := 1 + (k + 1) / 2

end Sys2Proof.Safety
end

