-- ==== Sys2Proof/Certificates/Slice0/Obligations.lean ====
section
/-!
DEFINITION. The statements, in the order of OBLIGATIONS.json. Each docstring names the rule of spec/ it formalises.
-/

open Sys2Proof Sys2Proof.Machine Sys2Proof.Safety

/-! Encoding -/

/-- R80–R82, R81's opcode map: the decoder and the encoder are inverse to each other, both ways, so no bit of a legal
word is dropped and no two words mean the same command. -/
def Obligations.DecodedWordsAreTheEncodedOnes : Prop :=
  ∀ (w : Word) (i : Instr), decode w = .ok i ↔ encode i = w

/-- R83: the words the decoder rejects are exactly those with a reserved OP, a bit of 31:10 set, or a flag where R82
forbids it; and such a word, latched, completes in one step with BADCMD and changes nothing but STATUS. -/
def Obligations.IllegalWordsCompleteWithBadCmd : Prop :=
  (∀ w : Word, (∃ e, decode w = .error e) ↔
    (0x08 ≤ w.toNat % 256 ∧ w.toNat % 256 ≤ 0x0F) ∨ 0x16 ≤ w.toNat % 256 ∨ w.toNat / 1024 ≠ 0 ∨
    (w.getLsbD 8 = true ∧ w.toNat % 256 ≠ 1 ∧ w.toNat % 256 ≠ 3 ∧ w.toNat % 256 ≠ 5) ∨
    (w.getLsbD 9 = true ∧ w.toNat % 256 ≠ 3)) ∧
  ∀ (s : State) (e : IllegalWord), s.phase = .busy → s.inputs = [] → decode s.latched = .error e →
    ∃ t, step s = .next t ∧ Fails s t 4#4

/-- Words written out bit by bit from R80 and R81 decode to their commands. -/
def Obligations.WordsOfEachBlockDecode : Prop :=
  decode 0b00000000000000000000000000000000#32 = .ok .nop ∧
  decode 0b00000000000000000000000100000001#32 = .ok (.build true) ∧
  decode 0b00000000000000000000000000000010#32 = .ok .compress ∧
  decode 0b00000000000000000000001100000011#32 = .ok (.linearize true true) ∧
  decode 0b00000000000000000000001000000011#32 = .ok (.linearize false true) ∧
  decode 0b00000000000000000000000000000100#32 = .ok .delinearize ∧
  decode 0b00000000000000000000000100000101#32 = .ok (.reconstruct true) ∧
  decode 0b00000000000000000000000000000110#32 = .ok .encode ∧
  decode 0b00000000000000000000000000000111#32 = .ok .decode ∧
  decode 0b00000000000000000000000000010001#32 = .ok .mortonDec ∧
  decode 0b00000000000000000000000000010100#32 = .ok .mortonRstx

/-! The step, the invariant and reset -/

/-- R111: while BUSY the core's turn is `exec` of the decoded command at that state; while IDLE it changes nothing (R235);
and the turn of another agent is `hostStep`. That the turns stand in `inputs`, and that it is the core's turn when `inputs` is
empty, is the model's choice (log 5, DESIGN CHOICE), not the spec's. -/
def Obligations.StepRunsTheDecodedCommand : Prop :=
  (∀ (s : State) (i : Instr), s.inputs = [] → s.phase = .busy → decode s.latched = .ok i → step s = exec i s) ∧
  (∀ (s : State) (i : Instr) (rest : List Turn), s.inputs = .core :: rest → s.phase = .busy →
    decode s.latched = .ok i → step s = exec i { s with inputs := rest }) ∧
  (∀ s : State, s.inputs = [] → s.phase = .idle → step s = .next s) ∧
  (∀ (s : State) (rest : List Turn), s.inputs = .core :: rest → s.phase = .idle →
    step s = .next { s with inputs := rest }) ∧
  (∀ (s : State) (e : HostEvent) (rest : List Turn), s.inputs = .host e :: rest →
    step s = hostStep e { s with inputs := rest })

/-- Every step keeps the legal states legal: MEM in canonical form, STATUS with a legal value of R23 and an ERRCODE of
R221, R_MAX legal, an unspecified output only while a command runs. -/
def Obligations.StepKeepsTheLegalStates : Prop :=
  ∀ s t : State, Inv s → step s = .next t → Inv t

/-- The state after reset is legal. -/
def Obligations.ResetIsLegal : Prop := Inv State.reset

/-- R41, R5: R_MAX (and QTC_BASE, R7) are constants: no step changes them, the reset input included, and CAPS reads
R_MAX. -/
def Obligations.CapsIsConstant : Prop :=
  (∀ s t : State, step s = .next t → t.params = s.params) ∧
  ∀ s : State, s.readReg .caps = s.params.rMax.setWidth 32

/-- R250: the reset input and power-up give every register its value of the table, whatever the state before; CAPS reads
R_MAX; the reset input on an IDLE core leaves MEM as it was (on a BUSY one: R251, ResetWhileBusyKeepsOtherBytes), while at
power-up MEM is unspecified and nothing is said of it; and with no turn of another agent to come the core then does nothing.
The value of `latched` is not stated, since R250 leaves it unspecified. -/
def Obligations.ResetSetsTheRegisters : Prop :=
  ∀ (s : State) (e : HostEvent) (rest : List Turn), e = .reset ∨ e = .powerUp → s.inputs = .host e :: rest →
    ∃ t, step s = .next t ∧ t.phase = .idle ∧ t.inputs = rest ∧
      (∀ n : RegName, n ≠ .caps → t.readReg n = 0#32) ∧ (t.readReg .caps).toNat = s.rMax ∧
      (e = .reset → s.phase = .idle → t.mem = s.mem) ∧ (rest = [] → step t = .next t)

/-- R250: the table again for the model's state after reset, whose R_MAX is the reference value 14 of R5. -/
def Obligations.StateResetReadsAsTheTable : Prop :=
  State.reset.phase = .idle ∧ (∀ n : RegName, n ≠ .caps → State.reset.readReg n = 0#32) ∧
  State.reset.readReg .caps = 14#32

/-- R251: a reset while a command runs abandons it: the registers take their reset values, and every byte of MEM outside
the W regions of that command is unchanged; nothing is said of the bytes inside, which hold unspecified values. A
command has its regions of R70, with r = DEPTH, whether or not its checks would pass; an illegal word has none (the model's
reading, log 7). -/
def Obligations.ResetWhileBusyKeepsOtherBytes : Prop :=
  ∀ (s : State) (rest : List Turn), Inv s → s.inputs = .host .reset :: rest → s.phase = .busy →
    ∃ t, step s = .next t ∧ t.phase = .idle ∧ (∀ n : RegName, n ≠ .caps → t.readReg n = 0#32) ∧
      (t.readReg .caps).toNat = s.rMax ∧
      (∀ e, decode s.latched = .error e → t.mem = s.mem) ∧
      ∀ (i : Instr) (a : Nat), decode s.latched = .ok i →
        (∀ g ∈ regions s.regs s.depthReg i, g.write = true → ¬(g.base ≤ a ∧ a < g.base + g.len)) →
        t.mem.read a = s.mem.read a

/-- R260, R220: every accepted command, legal or not, completes in its one execution step: IDLE, DONE, LOST kept. -/
def Obligations.EveryAcceptedCommandCompletes : Prop :=
  ∀ s : State, s.phase = .busy → s.inputs = [] →
    ∃ t, step s = .next t ∧ t.phase = .idle ∧ t.status.done = true ∧ t.status.lost = s.status.lost

/-! The host port -/

/-- R110: a write of w to CMD while IDLE latches w, makes the core BUSY and clears DONE, ERR, ERRCODE and LOST, and
nothing else; while BUSY the write is ignored and sets LOST. -/
def Obligations.CmdWriteAcceptsACommand : Prop :=
  ∀ (s : State) (w : Word) (rest : List Turn), s.inputs = .host (.wr s.params.qtcBase 4 w) :: rest →
    (s.phase = .idle → ∃ t, step s = .next t ∧ t.latched = w ∧ t.phase = .busy ∧ t.readReg .status = 1#32 ∧
      t.status.done = false ∧ t.status.err = false ∧ t.status.errcode = 0#4 ∧ t.status.lost = false ∧
      t.interfered = false ∧ t.params = s.params ∧ t.regs = s.regs ∧ t.results = s.results ∧ t.morton = s.morton ∧
      t.mem = s.mem ∧ t.inputs = rest ∧ t.reply = s.reply ∧ t.draws = s.draws) ∧
    (s.phase = .busy → step s = .next { s with inputs := rest, status := { s.status with lost := true } })

/-- R21, R227: while BUSY a host write to any offset of the window, reserved ones included, changes nothing but LOST. -/
def Obligations.WritesWhileBusyAreLost : Prop :=
  ∀ (s : State) (offset : Nat) (v : Word) (rest : List Turn), offset < 0x100 → offset % 4 = 0 →
    s.inputs = .host (.wr (s.params.qtcBase + offset) 4 v) :: rest → s.phase = .busy →
    step s = .next { s with inputs := rest, status := { s.status with lost := true } }

/-- R21, R22–R41: a read of a word of the window returns the register there and has no side effect, BUSY or IDLE; CMD and
every reserved offset read 0; and each register stands at its offset of the register map. (What STATUS, DEPTH and NODE_COUNT
read is StatusWordLayout and DepthIsTheLeastThatCovers.) -/
def Obligations.ReadsHaveNoSideEffects : Prop :=
  ∀ (s : State) (offset : Nat) (rest : List Turn), offset < 0x100 → offset % 4 = 0 →
    s.inputs = .host (.rd (s.params.qtcBase + offset) 4) :: rest →
    step s = .next { s with inputs := rest, reply := .register (s.readOffset offset) } ∧
    (offset = 0 ∨ 0x50 ≤ offset → s.readOffset offset = 0#32) ∧
    s.readOffset 0x04 = s.readReg .status ∧ s.readOffset 0x08 = s.regs.width.setWidth 32 ∧
    s.readOffset 0x0C = s.regs.height.setWidth 32 ∧ s.readOffset 0x10 = s.readReg .depth ∧
    s.readOffset 0x14 = s.readReg .nodeCount ∧ s.readOffset 0x18 = s.regs.rasterInBase ∧
    s.readOffset 0x1C = s.regs.rasterOutBase ∧ s.readOffset 0x20 = s.regs.treeBase ∧
    s.readOffset 0x24 = s.regs.rdBase ∧ s.readOffset 0x28 = s.regs.streamOutBase ∧
    s.readOffset 0x2C = s.regs.streamOutCap ∧ s.readOffset 0x30 = s.regs.streamInBase ∧
    s.readOffset 0x34 = s.regs.streamInLen ∧ s.readOffset 0x38 = s.results.resultSize ∧
    s.readOffset 0x3C = s.results.info.setWidth 32 ∧ s.readOffset 0x40 = s.morton.x.setWidth 32 ∧
    s.readOffset 0x44 = s.morton.y.setWidth 32 ∧ s.readOffset 0x48 = s.morton.code ∧
    (s.readOffset 0x4C).toNat = s.rMax

/-- R21, R24–R41: while IDLE a write to an offset other than CMD's changes what that offset reads as, if it is a RW
register (to the whole word, or to its low 16 bits for WIDTH, HEIGHT, MORTON_X, MORTON_Y), and what DEPTH and NODE_COUNT
derive from it; the field that changes is the register's of that offset; every other offset reads as before, and MEM is
unchanged. -/
def Obligations.WritesReachOneRegister : Prop :=
  ∀ (s : State) (offset : Nat) (v : Word) (rest : List Turn), 0 < offset → offset < 0x100 → offset % 4 = 0 →
    s.inputs = .host (.wr (s.params.qtcBase + offset) 4 v) :: rest → s.phase = .idle →
    ∃ t, step s = .next t ∧ t.mem = s.mem ∧ t.phase = .idle ∧ t.latched = s.latched ∧ t.inputs = rest ∧
      (offset ∈ [0x18, 0x1C, 0x20, 0x24, 0x28, 0x2C, 0x30, 0x34, 0x48] → t.readOffset offset = v) ∧
      (offset ∈ [0x08, 0x0C, 0x40, 0x44] → (t.readOffset offset).toNat = v.toNat % 2 ^ 16) ∧
      (offset ∉ [0x08, 0x0C, 0x18, 0x1C, 0x20, 0x24, 0x28, 0x2C, 0x30, 0x34, 0x40, 0x44, 0x48] →
        t = { s with inputs := rest }) ∧
      (offset = 0x08 → t = { s with inputs := rest, regs := { s.regs with width := v.setWidth 16 } }) ∧
      (offset = 0x0C → t = { s with inputs := rest, regs := { s.regs with height := v.setWidth 16 } }) ∧
      (offset = 0x18 → t = { s with inputs := rest, regs := { s.regs with rasterInBase := v } }) ∧
      (offset = 0x1C → t = { s with inputs := rest, regs := { s.regs with rasterOutBase := v } }) ∧
      (offset = 0x20 → t = { s with inputs := rest, regs := { s.regs with treeBase := v } }) ∧
      (offset = 0x24 → t = { s with inputs := rest, regs := { s.regs with rdBase := v } }) ∧
      (offset = 0x28 → t = { s with inputs := rest, regs := { s.regs with streamOutBase := v } }) ∧
      (offset = 0x2C → t = { s with inputs := rest, regs := { s.regs with streamOutCap := v } }) ∧
      (offset = 0x30 → t = { s with inputs := rest, regs := { s.regs with streamInBase := v } }) ∧
      (offset = 0x34 → t = { s with inputs := rest, regs := { s.regs with streamInLen := v } }) ∧
      (offset = 0x40 → t = { s with inputs := rest, morton := { s.morton with x := v.setWidth 16 } }) ∧
      (offset = 0x44 → t = { s with inputs := rest, morton := { s.morton with y := v.setWidth 16 } }) ∧
      (offset = 0x48 → t = { s with inputs := rest, morton := { s.morton with code := v } }) ∧
      ∀ k, k ≠ offset → k ≠ 0x10 → k ≠ 0x14 → t.readOffset k = s.readOffset k

/-- R21, U13: an access that touches the window but is not a whole aligned 32-bit word is refused by name. -/
def Obligations.OtherAccessSizesAreRefused : Prop :=
  ∀ (s : State) (addr size : Nat) (v : Word) (rest : List Turn),
    addr < s.params.qtcBase + 0x100 → s.params.qtcBase < addr + size →
    (size ≠ 4 ∨ addr < s.params.qtcBase ∨ (addr - s.params.qtcBase) % 4 ≠ 0) →
    (s.inputs = .host (.wr addr size v) :: rest → step s = .refused .unsupportedAccess) ∧
    (s.inputs = .host (.rd addr size) :: rest → step s = .refused .unsupportedAccess)

/-- R23: the bits of STATUS: BUSY 0, DONE 1, ERR 2, ERRCODE 7:4, LOST 8, and every other bit 0. -/
def Obligations.StatusWordLayout : Prop :=
  ∀ s : State,
    ((s.readReg .status).getLsbD 0 = true ↔ s.phase = .busy) ∧
    (s.readReg .status).getLsbD 1 = s.status.done ∧ (s.readReg .status).getLsbD 2 = s.status.err ∧
    (s.readReg .status).getLsbD 3 = false ∧ (s.readReg .status).extractLsb' 4 4 = s.status.errcode ∧
    (s.readReg .status).getLsbD 8 = s.status.lost ∧ ∀ k, 9 ≤ k → (s.readReg .status).getLsbD k = false

/-- R26, R10, R27, R11: DEPTH reads the least r ≥ 1 with 2^r ≥ max(WIDTH, HEIGHT) when that is at most R_MAX, and 0
when it is not or a dimension is 0; NODE_COUNT reads (4^r − 1)/3, and 0 when DEPTH is 0. -/
def Obligations.DepthIsTheLeastThatCovers : Prop :=
  ∀ s : State,
    (s.regs.width = 0#16 ∨ s.regs.height = 0#16 → s.readReg .depth = 0#32 ∧ s.readReg .nodeCount = 0#32) ∧
    ∀ r, s.regs.width ≠ 0#16 → s.regs.height ≠ 0#16 → 1 ≤ r → max s.regs.width.toNat s.regs.height.toNat ≤ 2 ^ r →
      (∀ k, 1 ≤ k → k < r → 2 ^ k < max s.regs.width.toNat s.regs.height.toNat) →
      (r ≤ s.rMax → (s.readReg .depth).toNat = r ∧ (s.readReg .nodeCount).toNat = (4 ^ r - 1) / 3) ∧
      (s.rMax < r → s.readReg .depth = 0#32 ∧ s.readReg .nodeCount = 0#32)

/-- R73 (c), U11: while a command runs, a byte written to MEM by another agent outside its regions only changes that
byte; inside one of its regions, R or W and whether or not its checks would pass, it also makes the command's output unspecified.
While IDLE, or with an illegal word latched (the model's reading, log 7), it only changes the byte. -/
def Obligations.MemWritesOfOtherAgents : Prop :=
  ∀ (s : State) (a : Word) (v : Byte) (rest : List Turn), Inv s → s.inputs = .host (.memWr a v) :: rest →
    ∃ t, step s = .next t ∧ t.mem.read a.toNat = v ∧ (∀ b, b ≠ a.toNat → t.mem.read b = s.mem.read b) ∧
      t = { s with inputs := rest, mem := t.mem, interfered := t.interfered } ∧
      (s.phase = .idle → t.interfered = s.interfered) ∧
      (∀ e, decode s.latched = .error e → t.interfered = s.interfered) ∧
      ∀ i : Instr, s.phase = .busy → decode s.latched = .ok i →
        ((∃ g ∈ regions s.regs s.depthReg i, g.base ≤ a.toNat ∧ a.toNat < g.base + g.len) → t.interfered = true) ∧
        ((∀ g ∈ regions s.regs s.depthReg i, ¬(g.base ≤ a.toNat ∧ a.toNat < g.base + g.len)) →
          t.interfered = s.interfered)

/-- R73, R254, U10: a byte of MEM read by the host is the byte there, but for a byte in a W region of the running
command, of which nothing is said, whether or not its checks would pass; an illegal word has no region (the model's reading,
log 7); in every case the read changes nothing but the reply (and the count of free values). -/
def Obligations.MemReadsOfTheHost : Prop :=
  ∀ (s : State) (a : Word) (rest : List Turn), s.inputs = .host (.memRd a) :: rest →
    ∃ t, step s = .next t ∧ t = { s with inputs := rest, reply := t.reply, draws := t.draws } ∧
      (s.phase = .idle → t.reply = .memory (s.mem.read a.toNat)) ∧
      (∀ e, decode s.latched = .error e → t.reply = .memory (s.mem.read a.toNat)) ∧
      ∀ i : Instr, s.phase = .busy → decode s.latched = .ok i →
        (∀ g ∈ regions s.regs s.depthReg i, g.write = true → ¬(g.base ≤ a.toNat ∧ a.toNat < g.base + g.len)) →
        t.reply = .memory (s.mem.read a.toNat)

/-- R233: a command of another instance does not interact with this core as long as none of its regions has a byte in
common with a region of the running command where one of the two is a W region, whether or not the
running command's checks would pass; never while this core is IDLE, and never with an illegal word latched, which has no region
(the model's reading, log 7). Where a region of the running command and the peer's have a byte in common and one of the two is a
W region, the running command's output is unspecified from then on, and nothing is said of the bytes in common; every other byte
of MEM and every register is as before (U20; that the peer is seen as an event is the model's choice, log 14). -/
def Obligations.DisjointPeersDoNotInteract : Prop :=
  ∀ (s : State) (base len : Word) (writes : Bool) (rest : List Turn), s.inputs = .host (.peer base len writes) :: rest →
    (s.phase = .idle → step s = .next { s with inputs := rest }) ∧
    (∀ e, decode s.latched = .error e → step s = .next { s with inputs := rest }) ∧
    (∀ i : Instr, s.phase = .busy → decode s.latched = .ok i →
      (∀ g ∈ regions s.regs s.depthReg i, g.write = true ∨ writes = true →
        ∀ a, ¬((g.base ≤ a ∧ a < g.base + g.len) ∧ (base.toNat ≤ a ∧ a < base.toNat + len.toNat))) →
      step s = .next { s with inputs := rest }) ∧
    ∀ i : Instr, Inv s → s.phase = .busy → decode s.latched = .ok i →
      (∃ g ∈ regions s.regs s.depthReg i, (g.write = true ∨ writes = true) ∧
        ∃ a, (g.base ≤ a ∧ a < g.base + g.len) ∧ (base.toNat ≤ a ∧ a < base.toNat + len.toNat)) →
      ∃ t, step s = .next t ∧ t.interfered = true ∧
        t = { s with inputs := rest, mem := t.mem, interfered := true, draws := t.draws } ∧
        ∀ a, (∀ g ∈ regions s.regs s.depthReg i, g.write = true ∨ writes = true →
            ¬((g.base ≤ a ∧ a < g.base + g.len) ∧ (base.toNat ≤ a ∧ a < base.toNat + len.toNat))) →
          t.mem.read a = s.mem.read a

/-! The checks at command start -/

/-- R71: the regions of a command are valid iff each ends inside MEM without wrapping and no W region has a byte in
common with another region of the command (a region of length 0 has none, and two R regions may overlap); a tree command of
valid dimensions whose regions violate this raises BADADDR. (Where another agent has touched its regions the outcome is
unspecified: InterferedCommandsStillComplete.) -/
def Obligations.ValidRegionsAreDisjointAndInside : Prop :=
  ∀ (i : Instr) (s : State), s.interfered = false → isTreeCommand i = true → s.regs.width ≠ 0#16 →
    s.regs.height ≠ 0#16 → depth s.regs.width s.regs.height ≤ s.rMax →
    ((∀ g ∈ regions s.regs (depth s.regs.width s.regs.height) i, g.base + g.len ≤ 2 ^ 32) ∧
      ((regions s.regs (depth s.regs.width s.regs.height) i).Pairwise fun g k => g.write = true ∨ k.write = true →
        ∀ a, ¬((g.base ≤ a ∧ a < g.base + g.len) ∧ (k.base ≤ a ∧ a < k.base + k.len))) →
      s.checks i = .ok (depth s.regs.width s.regs.height)) ∧
    (¬((∀ g ∈ regions s.regs (depth s.regs.width s.regs.height) i, g.base + g.len ≤ 2 ^ 32) ∧
      ((regions s.regs (depth s.regs.width s.regs.height) i).Pairwise fun g k => g.write = true ∨ k.write = true →
        ∀ a, ¬((g.base ≤ a ∧ a < g.base + g.len) ∧ (k.base ≤ a ∧ a < k.base + k.len)))) →
      ∃ t, exec i s = .next t ∧ Fails s t 5#4)

/-- R114, R115, R223: a tree command first reports InvalidDimensions (WIDTH = 0, HEIGHT = 0, or a depth above R_MAX),
then BADADDR for invalid regions; each changes nothing but STATUS. (Where another agent has touched its regions the outcome is
unspecified: InterferedCommandsStillComplete.) -/
def Obligations.ChecksReportInPriorityOrder : Prop :=
  ∀ (i : Instr) (s : State), s.interfered = false → isTreeCommand i = true →
    (s.regs.width = 0#16 ∨ s.regs.height = 0#16 ∨ s.rMax < depth s.regs.width s.regs.height →
      ∃ t, exec i s = .next t ∧ Fails s t 1#4) ∧
    (s.regs.width ≠ 0#16 → s.regs.height ≠ 0#16 → depth s.regs.width s.regs.height ≤ s.rMax →
      regionsValid (regions s.regs (depth s.regs.width s.regs.height) i) = false →
      ∃ t, exec i s = .next t ∧ Fails s t 5#4)

/-! Every command -/

/-- R224: a command that ends in an error changes only STATUS, where LOST keeps its value. (Premise: no other agent has
made the command's output unspecified, U11.) -/
def Obligations.ErrorsRollBack : Prop :=
  ∀ (i : Instr) (s t : State), s.interfered = false → exec i s = .next t → t.status.err = true →
    Fails s t t.status.errcode

/-- R222: the only errors each command reports, in particular no BADTREE from ENCODE. -/
def Obligations.EachCommandReportsOnlyItsErrors : Prop :=
  ∀ (i : Instr) (s t : State), exec i s = .next t → t.status.err = true →
    t.status.errcode.toNat ∈ (match i with
      | .nop | .mortonEnc | .mortonDec | .mortonIncx | .mortonIncy | .mortonRstx | .mortonRsty => [4]
      | .build _ | .compress | .reconstruct _ => [4, 1, 5]
      | .linearize _ false => [4, 1, 5, 6, 2]
      | .linearize _ true => [4, 1, 5, 6]
      | .delinearize | .decode => [4, 1, 5, 3]
      | .encode => [4, 1, 5, 2])

/-- R70: every byte of MEM outside the W regions of a command is unchanged, even where another agent interferes; and where
none does, all of MEM is unchanged by a command that fails its checks. NOP, MORTON_* and LINEARIZE with COUNT = 1 have no W
region. -/
def Obligations.OnlyWriteRegionsChange : Prop :=
  ∀ (i : Instr) (s t : State) (a : Nat), Inv s → exec i s = .next t →
    (∀ r, s.checks i = .ok r ∨ (s.interfered = true ∧ r = s.depthReg) →
      ∀ g ∈ regions s.regs r i, g.write = true → ¬(g.base ≤ a ∧ a < g.base + g.len)) →
    t.mem.read a = s.mem.read a

/-- R70, R111: a command depends on MEM only through the bytes of its regions: two states that differ only in other
bytes give the same STATUS, results and Morton registers, and the same bytes in every region. -/
def Obligations.CommandsReadOnlyTheirRegions : Prop :=
  ∀ (i : Instr) (s t v : State) (m : Memory), Inv s → m.wf → s.interfered = false →
    (∀ r, s.checks i = .ok r → ∀ g ∈ regions s.regs r i, ∀ a, g.base ≤ a → a < g.base + g.len →
      m.read a = s.mem.read a) →
    exec i s = .next t → exec i { s with mem := m } = .next v →
    v.status = t.status ∧ v.results = t.results ∧ v.morton = t.morton ∧
    ∀ r, s.checks i = .ok r → ∀ g ∈ regions s.regs r i, ∀ a, g.base ≤ a → a < g.base + g.len →
      v.mem.read a = t.mem.read a

/-- R45, R36–R40, R110, R112: no command changes the parameters, the operand registers, the latched word or LOST; only
the stream commands change RESULT_SIZE and INFO; only MORTON_DEC changes MORTON_X and MORTON_Y; and only the other MORTON_*
commands change MORTON_CODE. -/
def Obligations.CommandsChangeOnlyTheirRegisters : Prop :=
  ∀ (i : Instr) (s t : State), exec i s = .next t →
    t.params = s.params ∧ t.regs = s.regs ∧ t.latched = s.latched ∧ t.status.lost = s.status.lost ∧
    t.inputs = s.inputs ∧ t.reply = s.reply ∧
    ((∀ inv count, i ≠ .linearize inv count) → i ≠ .delinearize → i ≠ .encode → i ≠ .decode →
      t.results = s.results) ∧
    (i ≠ .mortonDec → t.morton.x = s.morton.x ∧ t.morton.y = s.morton.y) ∧
    (i ≠ .mortonEnc → i ≠ .mortonIncx → i ≠ .mortonIncy → i ≠ .mortonRstx → i ≠ .mortonRsty →
      t.morton.code = s.morton.code)

/-- U11, R73 (c): a tree command whose regions another agent has touched still completes, whether or not its checks would
pass, and keeps every register it does not write (RESULT_SIZE and INFO among them for BUILD, COMPRESS and RECONSTRUCT) and
every byte outside its W regions. -/
def Obligations.InterferedCommandsStillComplete : Prop :=
  ∀ (i : Instr) (s : State), Inv s → isTreeCommand i = true → s.interfered = true →
    ∃ t, exec i s = .next t ∧ t.phase = .idle ∧ t.status.done = true ∧ t.interfered = false ∧ t.regs = s.regs ∧
      t.morton = s.morton ∧ t.params = s.params ∧ t.latched = s.latched ∧ t.status.lost = s.status.lost ∧
      t.inputs = s.inputs ∧ t.reply = s.reply ∧
      ((∃ inv, i = .build inv) ∨ i = .compress ∨ (∃ inv, i = .reconstruct inv) → t.results = s.results) ∧
      ∀ a, (∀ g ∈ regions s.regs s.depthReg i, g.write = true → ¬(g.base ≤ a ∧ a < g.base + g.len)) →
        t.mem.read a = s.mem.read a

/-! NOP and the Morton commands -/

/-- R116: NOP completes with success and leaves everything else as it was. -/
def Obligations.NopOnlyCompletes : Prop :=
  ∀ s : State, ∃ t, exec .nop s = .next t ∧ Succeeds s t ∧ t.mem = s.mem ∧ t.results = s.results ∧
    t.morton = s.morton

/-- R122, R120: MORTON_ENC writes to MORTON_CODE the value whose bit 2k is X[k] and whose bit 2k + 1 is Y[k]. -/
def Obligations.MortonEncInterleaves : Prop :=
  ∀ s : State, ∃ t, exec .mortonEnc s = .next t ∧ Succeeds s t ∧ t.mem = s.mem ∧ t.results = s.results ∧
    t.morton.x = s.morton.x ∧ t.morton.y = s.morton.y ∧
    ∀ k, k < 16 → t.morton.code.getLsbD (2 * k) = s.morton.x.getLsbD k ∧
      t.morton.code.getLsbD (2 * k + 1) = s.morton.y.getLsbD k

/-- R123, R121: MORTON_DEC writes x[k] = CODE[2k] and y[k] = CODE[2k + 1] to MORTON_X and MORTON_Y. -/
def Obligations.MortonDecDeinterleaves : Prop :=
  ∀ s : State, ∃ t, exec .mortonDec s = .next t ∧ Succeeds s t ∧ t.mem = s.mem ∧ t.results = s.results ∧
    t.morton.code = s.morton.code ∧
    ∀ k, k < 16 → t.morton.x.getLsbD k = s.morton.code.getLsbD (2 * k) ∧
      t.morton.y.getLsbD k = s.morton.code.getLsbD (2 * k + 1)

/-- R124, R125: the increments add 1 modulo 2^16 to one coordinate of the code and keep the other; MORTON_X and MORTON_Y
are unchanged. -/
def Obligations.MortonIncrementsOneCoordinate : Prop :=
  ∀ s : State,
    (∃ t, exec .mortonIncx s = .next t ∧ Succeeds s t ∧ t.mem = s.mem ∧ t.results = s.results ∧
      t.morton.x = s.morton.x ∧ t.morton.y = s.morton.y ∧
      (demort t.morton.code).1.toNat = ((demort s.morton.code).1.toNat + 1) % 2 ^ 16 ∧
      (demort t.morton.code).2 = (demort s.morton.code).2) ∧
    (∃ t, exec .mortonIncy s = .next t ∧ Succeeds s t ∧ t.mem = s.mem ∧ t.results = s.results ∧
      t.morton.x = s.morton.x ∧ t.morton.y = s.morton.y ∧
      (demort t.morton.code).1 = (demort s.morton.code).1 ∧
      (demort t.morton.code).2.toNat = ((demort s.morton.code).2.toNat + 1) % 2 ^ 16)

/-- R126, R127: MORTON_RSTX is MORTON_CODE & 0xAAAAAAAA, which is mort(0, y), and MORTON_RSTY is MORTON_CODE & 0x55555555,
which is mort(x, 0); MORTON_X and MORTON_Y are unchanged. -/
def Obligations.MortonResetsOneCoordinate : Prop :=
  ∀ s : State,
    (∃ t, exec .mortonRstx s = .next t ∧ Succeeds s t ∧ t.mem = s.mem ∧ t.results = s.results ∧
      t.morton.x = s.morton.x ∧ t.morton.y = s.morton.y ∧ t.morton.code = s.morton.code &&& 0xAAAAAAAA#32 ∧
      t.morton.code = mort 0#16 (demort s.morton.code).2) ∧
    (∃ t, exec .mortonRsty s = .next t ∧ Succeeds s t ∧ t.mem = s.mem ∧ t.results = s.results ∧
      t.morton.x = s.morton.x ∧ t.morton.y = s.morton.y ∧ t.morton.code = s.morton.code &&& 0x55555555#32 ∧
      t.morton.code = mort (demort s.morton.code).1 0#16)

/-- R121: demort(m) = (x, y) with x[k] = m[2k] and y[k] = m[2k + 1], and it is the inverse of mort, both ways. -/
def Obligations.MortonCodesRoundTrip : Prop :=
  (∀ (m : Word) (k : Nat), k < 16 →
    (demort m).1.getLsbD k = m.getLsbD (2 * k) ∧ (demort m).2.getLsbD k = m.getLsbD (2 * k + 1)) ∧
  (∀ x y : Half, demort (mort x y) = (x, y)) ∧ ∀ m : Word, mort (demort m).1 (demort m).2 = m

/-- R128: for a code m MORTON_INCX gives ((m | 0xAAAAAAAA) + 1) & 0x55555555 | (m & 0xAAAAAAAA) and MORTON_INCY gives
((m | 0x55555555) + 1) & 0xAAAAAAAA | (m & 0x55555555), the sums modulo 2^32. -/
def Obligations.MortonIncrementsAreMaskedAdds : Prop :=
  ∀ s : State,
    (∃ t, exec .mortonIncx s = .next t ∧ t.morton.code =
      (((s.morton.code ||| 0xAAAAAAAA#32) + 1#32) &&& 0x55555555#32) ||| (s.morton.code &&& 0xAAAAAAAA#32)) ∧
    (∃ t, exec .mortonIncy s = .next t ∧ t.morton.code =
      (((s.morton.code ||| 0x55555555#32) + 1#32) &&& 0xAAAAAAAA#32) ||| (s.morton.code &&& 0x55555555#32))

/-! BUILD -/

/-- R140–R144, R63: BUILD writes the tree of the effective pixels: bit q of leaf m is the effective pixel at quadrant q of
the 2×2 block at demort(m), padding 0 for both polarities; bit q of an internal node is 1 iff child q is nonzero; the pad
nibble is 0; every byte outside TREE and every register but STATUS is unchanged. -/
def Obligations.BuildWritesTheTree : Prop :=
  ∀ (inv : Bool) (s : State) (r : Nat), Inv s → Ready (.build inv) s r →
    ∃ t, exec (.build inv) s = .next t ∧ Succeeds s t ∧ t.results = s.results ∧ t.morton = s.morton ∧
      SameOutside s t s.regs.treeBase.toNat ((nodeCount r + 1) / 2) ∧
      (∀ m q, m < 4 ^ (r - 1) → q < 4 →
        (treeCode t (levelBase (r - 1) + m)).getLsbD q =
          (decide (2 * (demort (BitVec.ofNat 32 m)).1.toNat + q % 2 < s.regs.width.toNat) &&
           decide (2 * (demort (BitVec.ofNat 32 m)).2.toNat + q / 2 < s.regs.height.toNat) &&
           (pixelIn s (2 * (demort (BitVec.ofNat 32 m)).1.toNat + q % 2)
              (2 * (demort (BitVec.ofNat 32 m)).2.toNat + q / 2)).xor inv)) ∧
      (∀ i q, q < 4 → child i q < nodeCount r →
        ((treeCode t i).getLsbD q = true ↔ treeCode t (child i q) ≠ 0#4)) ∧
      treeCode t (nodeCount r) = 0#4

/-- R145 (b): the root BUILD writes is 0 iff the raster, under the polarity, has no set in-bounds pixel. -/
def Obligations.BuiltRootIsZeroIffRasterIsEmpty : Prop :=
  ∀ (inv : Bool) (s t : State) (r : Nat), Inv s → Ready (.build inv) s r → exec (.build inv) s = .next t →
    (treeCode t 0 = 0#4 ↔
      ∀ x y, x < s.regs.width.toNat → y < s.regs.height.toNat → pixelIn s x y = inv)

/-! COMPRESS -/

/-- R150–R153, R87: COMPRESS writes to RD[i] the uniform height of node i by the recursion of R151 (0 for code 0, 1 for
a nonzero leaf, otherwise 1 plus the least, over the quadrants set, of the child's height where the child has the same
code and 0 where it has not), and RUN and LCODE by R152; every byte outside RDB (T among them) and every register but STATUS
is unchanged. -/
def Obligations.CompressWritesTheDescriptors : Prop :=
  ∀ (s : State) (r : Nat), Inv s → Ready .compress s r →
    ∃ t, exec .compress s = .next t ∧ Succeeds s t ∧ t.results = s.results ∧ t.morton = s.morton ∧
      SameOutside s t s.regs.rdBase.toNat (nodeCount r) ∧
      ∀ l m, l < r → m < 4 ^ l →
        (treeCode s (levelBase l + m) = 0#4 → rdAt t (levelBase l + m) = 0#8) ∧
        (treeCode s (levelBase l + m) ≠ 0#4 →
          (l + 1 = r → rdHeight t (levelBase l + m) = 1) ∧
          (l + 1 < r →
            (∀ q, q < 4 → (treeCode s (levelBase l + m)).getLsbD q = true →
              rdHeight t (levelBase l + m) ≤
                1 + (if treeCode s (child (levelBase l + m) q) = treeCode s (levelBase l + m)
                  then rdHeight t (child (levelBase l + m) q) else 0)) ∧
            (∃ q, q < 4 ∧ (treeCode s (levelBase l + m)).getLsbD q = true ∧
              rdHeight t (levelBase l + m) =
                1 + (if treeCode s (child (levelBase l + m) q) = treeCode s (levelBase l + m)
                  then rdHeight t (child (levelBase l + m) q) else 0))) ∧
          ∀ p span lcode, p = popcount (treeCode s (levelBase l + m)) →
            (if rdHeight t (levelBase l + m) = r - l then span = r - l ∧ lcode = 7
              else span = min (rdHeight t (levelBase l + m)) 7 ∧ lcode = span - 1) →
            ((rdAt t (levelBase l + m)).getLsbD 4 = true ↔
              2 ≤ span ∧ (3 ≤ p ∨ (p = 2 ∧ 3 ≤ span) ∨ (p = 1 ∧ 4 ≤ span))) ∧
            ((rdAt t (levelBase l + m)).extractLsb' 5 3).toNat =
              if (rdAt t (levelBase l + m)).getLsbD 4 then lcode else 0)

/-- R152: the condition for a run is that it takes fewer nibbles (2 for fill 0xF, else 3) than the plain codes of the
span, 1 + p + … + p^(s − 1); a tie keeps the plain codes. -/
def Obligations.RunsAreTakenExactlyWhenShorter : Prop :=
  ∀ (c : Nibble) (s : Nat), c ≠ 0#4 → 1 ≤ s →
    (runPays c s = true ↔
      (if c = 0xF#4 then 2 else 3) < ((List.range s).map fun k => popcount c ^ k).sum)

/-! LINEARIZE -/

/-- R166, R160: a tree whose root is 0 gives the one-byte stream 0x02 | INV whatever RD holds, with RESULT_SIZE 1, INFO.INV =
INV and INFO.SHORTCUT = 1; with COUNT = 1 no byte of MEM changes. -/
def Obligations.LinearizeTakesTheShortcut : Prop :=
  ∀ (inv count : Bool) (s : State) (r : Nat), Inv s → Ready (.linearize inv count) s r → treeCode s 0 = 0#4 →
    (count = true ∨ 1 ≤ s.regs.streamOutCap.toNat) →
    ∃ t, exec (.linearize inv count) s = .next t ∧ Succeeds s t ∧ t.morton = s.morton ∧
      t.results.resultSize = 1#32 ∧ t.results.info.getLsbD 0 = inv ∧ t.results.info.getLsbD 1 = true ∧
      (count = true → t.mem = s.mem) ∧
      (count = false → t.mem.read s.regs.streamOutBase.toNat = (if inv then 0x03#8 else 0x02#8) ∧
        SameOutside s t s.regs.streamOutBase.toNat 1)

/-- R160, R164: when the traversal of T and RD gives a stream S, LINEARIZE sets RESULT_SIZE to its length and INFO to bits 1:0
of S[0]; with COUNT = 0 and S no longer than STREAM_OUT_CAP it writes S at STREAM_OUT_BASE and no other byte; with COUNT = 1
it writes no byte and does not check the capacity. Where T[0] is nonzero, S[0] is INV, and the body starts with the root's
item, low nibble first: the code T[0], or 0, then E in bit 3 and LCODE of RD[0] in bits 2:0 with E = 1 iff T[0] is not 0xF, then
T[0] iff E = 1. (The other items: LinearizeEmitsOneItemPerEmittedNode.) -/
def Obligations.LinearizeWritesTheStream : Prop :=
  ∀ (inv count : Bool) (s : State) (r : Nat) (stream : List Byte), Inv s → Ready (.linearize inv count) s r →
    linearizeBuffers s r inv = .ok stream → (count = true ∨ stream.length ≤ s.regs.streamOutCap.toNat) →
    (∃ t, exec (.linearize inv count) s = .next t ∧ Succeeds s t ∧ t.morton = s.morton ∧
      t.results.resultSize.toNat = stream.length ∧ t.results.info = (stream.getD 0 0#8).extractLsb' 0 2 ∧
      (count = true → t.mem = s.mem) ∧
      (count = false →
        (∀ j, j < stream.length → t.mem.read (s.regs.streamOutBase.toNat + j) = stream.getD j 0#8) ∧
        SameOutside s t s.regs.streamOutBase.toNat stream.length)) ∧
    (treeCode s 0 ≠ 0#4 →
      stream.getD 0 0#8 = (if inv then 0x01#8 else 0x00#8) ∧
      ((rdAt s 0).getLsbD 4 = false → bodyNibble stream 0 = treeCode s 0) ∧
      ((rdAt s 0).getLsbD 4 = true →
        bodyNibble stream 0 = 0#4 ∧ ((bodyNibble stream 1).getLsbD 3 = true ↔ treeCode s 0 ≠ 0xF#4) ∧
        (bodyNibble stream 1).extractLsb' 0 3 = (rdAt s 0).extractLsb' 5 3 ∧
        (treeCode s 0 ≠ 0xF#4 → bodyNibble stream 2 = treeCode s 0)))

/-- R165, R160, R223: a traversal that meets BADTREE ends the command with code 6, whatever STREAM_OUT_CAP; a stream
longer than STREAM_OUT_CAP ends it with code 2 when COUNT = 0; each changes nothing but STATUS. A present, uncovered root
taken as a run past the leaf level, and a root whose child is present with code 0 and not covered, are BADTREE. -/
def Obligations.LinearizeReportsBadTreeAndCapacity : Prop :=
  (∀ (inv count : Bool) (s : State) (r : Nat) (e : CmdError), Ready (.linearize inv count) s r →
    linearizeBuffers s r inv = .error e → ∃ t, exec (.linearize inv count) s = .next t ∧ Fails s t 6#4) ∧
  (∀ (inv : Bool) (s : State) (r : Nat) (stream : List Byte), Ready (.linearize inv false) s r →
    linearizeBuffers s r inv = .ok stream → s.regs.streamOutCap.toNat < stream.length →
    ∃ t, exec (.linearize inv false) s = .next t ∧ Fails s t 2#4) ∧
  (∀ (inv count : Bool) (s : State) (r : Nat), Ready (.linearize inv count) s r → treeCode s 0 ≠ 0#4 →
    (rdAt s 0).getLsbD 4 = true → (rdAt s 0).extractLsb' 5 3 ≠ 7#3 →
    r < ((rdAt s 0).extractLsb' 5 3).toNat + 1 →
    ∃ t, exec (.linearize inv count) s = .next t ∧ Fails s t 6#4) ∧
  (∀ (inv count : Bool) (s : State) (r q : Nat), Ready (.linearize inv count) s r → 2 ≤ r → q < 4 →
    (treeCode s 0).getLsbD q = true → (rdAt s 0).getLsbD 4 = false → treeCode s (child 0 q) = 0#4 →
    ∃ t, exec (.linearize inv count) s = .next t ∧ Fails s t 6#4)

/-! DELINEARIZE -/

/-- R170, R63, R69: when the stream in SIN decodes, DELINEARIZE writes its tree to TREE with the pad nibble 0, sets
RESULT_SIZE to the bytes consumed and INFO to bits 1:0 of the header, and changes no other byte and no other register but
STATUS. With SHORTCUT every code is 0 and one byte is consumed. Otherwise the root's code is the first body nibble where that
is not 0; where it is 0, the fill value: the third where bit 3 of the second, E, is 1 (0xF included), 0xF where E is 0; a run
that covers two levels or more gives its fill value to the root's present children; and a tree of one node consumes 2 bytes,
or 3 where E is 1. And for every node (R164, R89–R93): when the body in SIN is the items of any T and RD with no node of R165,
whatever the header's other bits hold and whatever follows the body, DELINEARIZE writes the effective tree T' of R161 and
R162, and RESULT_SIZE is the length of that stream. -/
def Obligations.DelinearizeWritesTheTree : Prop :=
  (∀ (s : State) (r : Nat) (d : Decoded), Inv s → Ready .delinearize s r → delinearizeBuffer s r = .ok d →
    ∃ t, exec .delinearize s = .next t ∧ Succeeds s t ∧ t.morton = s.morton ∧
      (∀ i, i < nodeCount r → treeCode t i = nodeAt d.tree i) ∧ treeCode t (nodeCount r) = 0#4 ∧
      SameOutside s t s.regs.treeBase.toNat ((nodeCount r + 1) / 2) ∧
      t.results.resultSize.toNat = d.consumed ∧
      t.results.info = (s.mem.read s.regs.streamInBase.toNat).extractLsb' 0 2 ∧
      ((s.mem.read s.regs.streamInBase.toNat).getLsbD 1 = true →
        d.consumed = 1 ∧ ∀ i, i < nodeCount r → treeCode t i = 0#4) ∧
      ((s.mem.read s.regs.streamInBase.toNat).getLsbD 1 = false →
        ∀ first run v, first = bodyAt s.mem s.regs.streamInBase.toNat 0 →
          run = bodyAt s.mem s.regs.streamInBase.toNat 1 → v = bodyAt s.mem s.regs.streamInBase.toNat 2 →
          (first ≠ 0#4 → treeCode t 0 = first) ∧
          (first = 0#4 → treeCode t 0 = (if run.getLsbD 3 then v else 0xF#4)) ∧
          (first = 0#4 → 2 ≤ runLevels (run.extractLsb' 0 3) r 0 →
            ∀ q, q < 4 → (treeCode t 0).getLsbD q = true → treeCode t (child 0 q) = treeCode t 0) ∧
          (r = 1 → d.consumed = (if first = 0#4 ∧ run.getLsbD 3 = true then 3 else 2)))) ∧
  ∀ (s : State) (r : Nat) (tree : Nat → Nibble) (rd : Nat → Byte) (body : List Nibble), Inv s →
    Ready .delinearize s r → body = streamBody tree rd r →
    (∀ l m, l < r → m < 4 ^ l → ¬badNode tree rd r l m) →
    (s.mem.read s.regs.streamInBase.toNat).getLsbD 1 = false →
    (∀ k, k < body.length → bodyAt s.mem s.regs.streamInBase.toNat k = body.getD k 0#4) →
    streamLength body.length ≤ s.regs.streamInLen.toNat →
    ∃ t, exec .delinearize s = .next t ∧ Succeeds s t ∧ t.morton = s.morton ∧
      (∀ l m, l < r → m < 4 ^ l → treeCode t (levelBase l + m) = (nodeView tree rd r l m).code) ∧
      treeCode t (nodeCount r) = 0#4 ∧ SameOutside s t s.regs.treeBase.toNat ((nodeCount r + 1) / 2) ∧
      t.results.resultSize.toNat = streamLength body.length ∧
      t.results.info = (s.mem.read s.regs.streamInBase.toNat).extractLsb' 0 2

/-- R172, R174: a stream that does not decode ends DELINEARIZE and DECODE with CorruptStream and no other change. Those do not
decode: the empty stream; a stream cut short, at any byte, of one that does; one whose header has SHORTCUT = 0 and no byte
follows it; and one whose root item is a run with V = 0, or with a span past the leaf level. And at any node that takes an
item, after the items of any T and RD without a node of R165 for the nodes before it in level order: a stream that ends before
the item's code or escape, its run nibble or its V; an item that is a run with V = 0; and one that is a run whose span from that
node's level passes the leaf level. -/
def Obligations.CorruptStreamsAreReported : Prop :=
  (∀ (s : State) (r : Nat) (e : CmdError), Ready .delinearize s r → delinearizeBuffer s r = .error e →
    ∃ t, exec .delinearize s = .next t ∧ Fails s t 3#4) ∧
  (∀ (s : State) (r : Nat) (e : CmdError), Ready .decode s r → delinearizeBuffer s r = .error e →
    ∃ t, exec .decode s = .next t ∧ Fails s t 3#4) ∧
  (∀ (s : State) (r : Nat), s.regs.streamInLen = 0#32 → delinearizeBuffer s r = .error .corruptStream) ∧
  (∀ (s : State) (r : Nat), 1 ≤ r → s.regs.streamInLen = 1#32 →
    (s.mem.read s.regs.streamInBase.toNat).getLsbD 1 = false → delinearizeBuffer s r = .error .corruptStream) ∧
  (∀ (m : Memory) (b len r : Nat) (d : Decoded), delinearize m b len r = .ok d →
    ∀ len', len' < d.consumed → delinearize m b len' r = .error .corruptStream) ∧
  (∀ (m : Memory) (b len r : Nat), 1 ≤ r → (m.read b).getLsbD 1 = false → bodyAt m b 0 = 0#4 →
    (bodyAt m b 1).getLsbD 3 = true → bodyAt m b 2 = 0#4 → delinearize m b len r = .error .corruptStream) ∧
  (∀ (m : Memory) (b len r : Nat), 1 ≤ r → (m.read b).getLsbD 1 = false → bodyAt m b 0 = 0#4 →
    (bodyAt m b 1).extractLsb' 0 3 ≠ 7#3 → r < ((bodyAt m b 1).extractLsb' 0 3).toNat + 1 →
    delinearize m b len r = .error .corruptStream) ∧
  ∀ (m : Memory) (b len r l p k : Nat) (tree : Nat → Nibble) (rd : Nat → Byte), l < r → p < 4 ^ l →
    (m.read b).getLsbD 1 = false →
    (∀ j q, (j < l ∧ q < 4 ^ j) ∨ (j = l ∧ q < p) → ¬badNode tree rd r j q) →
    k = (bodyBefore tree rd r l p).length →
    (∀ j, j < k → bodyAt m b j = (bodyBefore tree rd r l p).getD j 0#4) →
    (nodeView tree rd r l p).emitted = true →
    (len ≤ 1 + k / 2 → delinearize m b len r = .error .corruptStream) ∧
    (bodyAt m b k = 0#4 →
      (len ≤ 1 + (k + 1) / 2 → delinearize m b len r = .error .corruptStream) ∧
      ((bodyAt m b (k + 1)).getLsbD 3 = true → len ≤ 1 + (k + 2) / 2 →
        delinearize m b len r = .error .corruptStream) ∧
      ((bodyAt m b (k + 1)).getLsbD 3 = true → bodyAt m b (k + 2) = 0#4 →
        delinearize m b len r = .error .corruptStream) ∧
      ((bodyAt m b (k + 1)).extractLsb' 0 3 ≠ 7#3 → r < l + ((bodyAt m b (k + 1)).extractLsb' 0 3).toNat + 1 →
        delinearize m b len r = .error .corruptStream))

/-- R175: in a decoded tree bit q of an internal node is 1 iff the child in quadrant q has a nonzero code, and the root is
nonzero iff SHORTCUT = 0. -/
def Obligations.DecodedTreesKeepTheCodeInvariant : Prop :=
  ∀ (m : Memory) (b len r : Nat) (d : Decoded), 1 ≤ r → delinearize m b len r = .ok d →
    d.tree.length = nodeCount r ∧ (nodeAt d.tree 0 = 0#4 ↔ (m.read b).getLsbD 1 = true) ∧
    ∀ i q, q < 4 → child i q < nodeCount r →
      ((nodeAt d.tree i).getLsbD q = true ↔ nodeAt d.tree (child i q) ≠ 0#4)

/-- R173, R172, R257: decoding consumes no more bytes than it is given, and what it gives depends only on the bytes it
consumes, whatever follows them. -/
def Obligations.DecodingDependsOnlyOnConsumedBytes : Prop :=
  ∀ (m m' : Memory) (b len len' r : Nat) (d : Decoded), delinearize m b len r = .ok d →
    1 ≤ d.consumed ∧ d.consumed ≤ len ∧
    (d.consumed ≤ len' → (∀ a, b ≤ a → a < b + d.consumed → m'.read a = m.read a) →
      delinearize m' b len' r = .ok d)

/-! RECONSTRUCT -/

/-- R190–R192: RECONSTRUCT writes to each in-bounds (x, y) the bit mort(x, y) & 3 of leaf mort(x, y) >> 2, complemented
when INV = 1, and 0 to each pad bit; every byte outside ROUT and every register but STATUS is unchanged. -/
def Obligations.ReconstructWritesThePixels : Prop :=
  ∀ (inv : Bool) (s : State) (r : Nat), Inv s → Ready (.reconstruct inv) s r →
    ∃ t, exec (.reconstruct inv) s = .next t ∧ Succeeds s t ∧ t.results = s.results ∧ t.morton = s.morton ∧
      SameOutside s t s.regs.rasterOutBase.toNat (s.regs.height.toNat * rowBytes s.regs.width.toNat) ∧
      (∀ x y, x < s.regs.width.toNat → y < s.regs.height.toNat →
        bitOut t x y =
          ((treeCode s (levelBase (r - 1) + mortNat x y / 4)).getLsbD (mortNat x y % 4)).xor inv) ∧
      ∀ x y, s.regs.width.toNat ≤ x → x < 8 * rowBytes s.regs.width.toNat → y < s.regs.height.toNat →
        bitOut t x y = false

/-! ENCODE and DECODE -/

/-- R201: BADTREE cannot arise inside the trial: both candidates exist at every depth. -/
def Obligations.PolarityTrialNeverFails : Prop :=
  ∀ (s : State) (p : Bool) (r : Nat), 1 ≤ r → ∃ c, candidate s p r = .ok c

/-- R200, R201: ENCODE keeps the shorter of the two candidates, the non-inverted one on a tie, and writes its tree (with
the pad nibble 0), its descriptors and its stream, RESULT_SIZE and INFO; no other byte and no other register but STATUS
changes. When the stream is longer than STREAM_OUT_CAP it reports CAPACITY and changes nothing else. -/
def Obligations.EncodeKeepsTheShorterCandidate : Prop :=
  ∀ (s : State) (r : Nat) (c0 c1 c : Candidate), Inv s → Ready .encode s r → candidate s false r = .ok c0 →
    candidate s true r = .ok c1 → c = (if c1.stream.length < c0.stream.length then c1 else c0) →
    (s.regs.streamOutCap.toNat < c.stream.length → ∃ t, exec .encode s = .next t ∧ Fails s t 2#4) ∧
    (c.stream.length ≤ s.regs.streamOutCap.toNat →
      ∃ t, exec .encode s = .next t ∧ Succeeds s t ∧ t.morton = s.morton ∧
        (∀ i, i < nodeCount r → treeCode t i = nodeAt c.tree i ∧ rdAt t i = c.rd.getD i 0#8) ∧
        treeCode t (nodeCount r) = 0#4 ∧
        (∀ j, j < c.stream.length → t.mem.read (s.regs.streamOutBase.toNat + j) = c.stream.getD j 0#8) ∧
        (∀ a, ¬(s.regs.treeBase.toNat ≤ a ∧ a < s.regs.treeBase.toNat + (nodeCount r + 1) / 2) →
          ¬(s.regs.rdBase.toNat ≤ a ∧ a < s.regs.rdBase.toNat + nodeCount r) →
          ¬(s.regs.streamOutBase.toNat ≤ a ∧ a < s.regs.streamOutBase.toNat + c.stream.length) →
          t.mem.read a = s.mem.read a) ∧
        t.results.resultSize.toNat = c.stream.length ∧
        t.results.info.getLsbD 0 = decide (c1.stream.length < c0.stream.length) ∧
        t.results.info.getLsbD 1 = decide (nodeAt c.tree 0 = 0#4))

/-- R203, R204: when the stream in SIN decodes, DECODE writes its tree to TREE with the pad nibble 0 and its raster to
ROUT, complemented when the header's INV is 1, pad bits 0; RESULT_SIZE and INFO as DELINEARIZE; no other byte and no other
register but STATUS changes. -/
def Obligations.DecodeWritesTreeAndRaster : Prop :=
  ∀ (s : State) (r : Nat) (d : Decoded), Inv s → Ready .decode s r → delinearizeBuffer s r = .ok d →
    ∃ t, exec .decode s = .next t ∧ Succeeds s t ∧ t.morton = s.morton ∧
      (∀ i, i < nodeCount r → treeCode t i = nodeAt d.tree i) ∧ treeCode t (nodeCount r) = 0#4 ∧
      (∀ x y, x < s.regs.width.toNat → y < s.regs.height.toNat →
        bitOut t x y = ((nodeAt d.tree (levelBase (r - 1) + mortNat x y / 4)).getLsbD (mortNat x y % 4)).xor
          ((s.mem.read s.regs.streamInBase.toNat).getLsbD 0)) ∧
      (∀ x y, s.regs.width.toNat ≤ x → x < 8 * rowBytes s.regs.width.toNat → y < s.regs.height.toNat →
        bitOut t x y = false) ∧
      (∀ a, ¬(s.regs.treeBase.toNat ≤ a ∧ a < s.regs.treeBase.toNat + (nodeCount r + 1) / 2) →
        ¬(s.regs.rasterOutBase.toNat ≤ a ∧
          a < s.regs.rasterOutBase.toNat + s.regs.height.toNat * rowBytes s.regs.width.toNat) →
        t.mem.read a = s.mem.read a) ∧
      t.results.resultSize.toNat = d.consumed ∧
      t.results.info = (s.mem.read s.regs.streamInBase.toNat).extractLsb' 0 2

/-- R201: a successful ENCODE leaves the very state that the block commands leave when they run in turn with the polarity
it chose: BUILD, COMPRESS, then LINEARIZE to STREAM_OUT. -/
def Obligations.EncodeIsBuildCompressLinearize : Prop :=
  ∀ (s t : State) (r : Nat), Inv s → Ready .encode s r → exec .encode s = .next t → t.status.err = false →
    ∃ t1 t2, exec (.build (t.results.info.getLsbD 0)) s = .next t1 ∧ Succeeds s t1 ∧
      exec .compress t1 = .next t2 ∧ Succeeds t1 t2 ∧
      exec (.linearize (t.results.info.getLsbD 0) false) t2 = .next t

/-- R204: a successful DECODE leaves the very state that DELINEARIZE and then RECONSTRUCT with the header's INV leave. -/
def Obligations.DecodeIsDelinearizeReconstruct : Prop :=
  ∀ (s t : State) (r : Nat), Inv s → Ready .decode s r → exec .decode s = .next t → t.status.err = false →
    ∃ t1, exec .delinearize s = .next t1 ∧ Succeeds s t1 ∧
      exec (.reconstruct (t.results.info.getLsbD 0)) t1 = .next t

/-- R176: the stream of a built tree with its own descriptors decodes to that tree exactly, with the header's INV as given
and all of its bytes consumed, whatever bytes follow it. -/
def Obligations.LinearizerRoundTrip : Prop :=
  ∀ (pix : Nat → Nat → Bool) (r : Nat) (inv : Bool) (stream : List Byte) (m : Memory) (b len : Nat), 1 ≤ r →
    linearize (buildTree pix r) (descriptors (buildTree pix r) r) r inv = .ok stream →
    (∀ j, j < stream.length → m.read (b + j) = stream.getD j 0#8) → stream.length ≤ len →
    ∃ d, delinearize m b len r = .ok d ∧ d.tree = buildTree pix r ∧ d.consumed = stream.length ∧
      d.hdr.getLsbD 0 = inv

/-- R168: the stream of a built tree with its own descriptors is at most one byte longer than the tree buffer. -/
def Obligations.BuiltStreamsFitTheBound : Prop :=
  ∀ (pix : Nat → Nat → Bool) (r : Nat) (inv : Bool) (stream : List Byte), 1 ≤ r →
    linearize (buildTree pix r) (descriptors (buildTree pix r) r) r inv = .ok stream →
    stream.length ≤ 1 + (nodeCount r + 1) / 2

/-- R205: ENCODE with room for the stream succeeds, and DECODE of the stream it wrote, with the same WIDTH and HEIGHT in any
state where it is ready and finds the stream's bytes at STREAM_IN_BASE, gives back every in-bounds pixel, pad bits 0, and
the same RESULT_SIZE. -/
def Obligations.EncodeDecodeRoundTrip : Prop :=
  ∀ (s : State) (r : Nat), Inv s → Ready .encode s r → 1 + (nodeCount r + 1) / 2 ≤ s.regs.streamOutCap.toNat →
    ∃ t, exec .encode s = .next t ∧ Succeeds s t ∧
      ∀ u : State, Inv u → Ready .decode u r → u.regs.width = s.regs.width → u.regs.height = s.regs.height →
        t.results.resultSize.toNat ≤ u.regs.streamInLen.toNat →
        (∀ j, j < t.results.resultSize.toNat →
          u.mem.read (u.regs.streamInBase.toNat + j) = t.mem.read (s.regs.streamOutBase.toNat + j)) →
        ∃ v, exec .decode u = .next v ∧ Succeeds u v ∧ v.results.resultSize = t.results.resultSize ∧
          (∀ x y, x < s.regs.width.toNat → y < s.regs.height.toNat → bitOut v x y = pixelIn s x y) ∧
          ∀ x y, s.regs.width.toNat ≤ x → x < 8 * rowBytes s.regs.width.toNat → y < s.regs.height.toNat →
            bitOut v x y = false

/-- R206: what a successful ENCODE writes (stream, TREE, RDB, RESULT_SIZE, INFO) is a function of WIDTH, HEIGHT and the
in-bounds pixels alone: two states that agree on these, wherever their buffers stand and whatever else MEM holds, get the
same outputs. -/
def Obligations.EncodingDependsOnlyOnThePixels : Prop :=
  ∀ (s u t v : State) (r : Nat), Inv s → Inv u → Ready .encode s r → Ready .encode u r →
    u.regs.width = s.regs.width → u.regs.height = s.regs.height →
    (∀ x y, x < s.regs.width.toNat → y < s.regs.height.toNat → pixelIn u x y = pixelIn s x y) →
    exec .encode s = .next t → exec .encode u = .next v → t.status.err = false → v.status.err = false →
    v.results = t.results ∧
    (∀ i, i < nodeCount r → treeCode v i = treeCode t i ∧ rdAt v i = rdAt t i) ∧
    ∀ j, j < t.results.resultSize.toNat →
      v.mem.read (v.regs.streamOutBase.toNat + j) = t.mem.read (t.regs.streamOutBase.toNat + j)

/-- R207, on a tie by the model's reading of it (log 23, DEDUCED): for complemented rasters the two candidates' trees change
places, so the streams kept have the same length;
where the two candidates differ in length the bodies are equal and the INV bits complementary, and on a tie both INV bits are
0. -/
def Obligations.InversionSymmetry : Prop :=
  ∀ (s u : State) (r : Nat), 1 ≤ r → u.regs.width = s.regs.width → u.regs.height = s.regs.height →
    (∀ x y, x < s.regs.width.toNat → y < s.regs.height.toNat → pixelIn u x y = !pixelIn s x y) →
    (∀ p, rasterTree u p r = rasterTree s (!p) r) ∧
    ∀ c0 c1 c k, candidate s false r = .ok c0 → candidate s true r = .ok c1 → polarityTrial s r = .ok c →
      polarityTrial u r = .ok k →
      k.stream.length = c.stream.length ∧
      (c0.stream.length ≠ c1.stream.length →
        k.stream.tail = c.stream.tail ∧ (k.stream.getD 0 0#8).getLsbD 0 = !(c.stream.getD 0 0#8).getLsbD 0) ∧
      (c0.stream.length = c1.stream.length →
        (k.stream.getD 0 0#8).getLsbD 0 = false ∧ (c.stream.getD 0 0#8).getLsbD 0 = false)

/-- R209: at every size an all-zero raster encodes to the single byte 02 and an all-ones raster to the single byte 03. -/
def Obligations.UniformRastersEncodeToOneByte : Prop :=
  ∀ (s : State) (r : Nat), Inv s → Ready .encode s r → 1 ≤ s.regs.streamOutCap.toNat →
    ∀ p : Bool, (∀ x y, x < s.regs.width.toNat → y < s.regs.height.toNat → pixelIn s x y = p) →
      ∃ t, exec .encode s = .next t ∧ Succeeds s t ∧ t.results.resultSize = 1#32 ∧
        t.mem.read s.regs.streamOutBase.toNat = (if p then 0x03#8 else 0x02#8)

/-! LINEARIZE, node by node -/

/-- R160–R167: for a nonzero root LINEARIZE emits one item for each node that is present and not covered, in level order, each
a code item or a run item by its RD byte, packed low nibble first with a pad nibble 0, after the header INV. A node that
takes an item and has code 0, or a run past the leaf level, makes it BADTREE, whatever the capacity; otherwise with COUNT = 0
a stream longer than STREAM_OUT_CAP is CAPACITY. The nodes that take an item are told from the path from the root alone
(`nodeView`). -/
def Obligations.LinearizeEmitsOneItemPerEmittedNode : Prop :=
  ∀ (inv count : Bool) (s : State) (r : Nat) (body : List Nibble), Inv s → Ready (.linearize inv count) s r →
    treeCode s 0 ≠ 0#4 → body = streamBody (treeCode s) (rdAt s) r →
    ((∃ l m, l < r ∧ m < 4 ^ l ∧ badNode (treeCode s) (rdAt s) r l m) →
      ∃ t, exec (.linearize inv count) s = .next t ∧ Fails s t 6#4) ∧
    ((∀ l m, l < r → m < 4 ^ l → ¬badNode (treeCode s) (rdAt s) r l m) →
      (count = false → s.regs.streamOutCap.toNat < streamLength body.length →
        ∃ t, exec (.linearize inv count) s = .next t ∧ Fails s t 2#4) ∧
      (count = true ∨ streamLength body.length ≤ s.regs.streamOutCap.toNat →
        ∃ t, exec (.linearize inv count) s = .next t ∧ Succeeds s t ∧ t.morton = s.morton ∧
          t.results.resultSize.toNat = streamLength body.length ∧ t.results.info = (if inv then 1#2 else 0#2) ∧
          (count = true → t.mem = s.mem) ∧
          (count = false →
            t.mem.read s.regs.streamOutBase.toNat = (if inv then 0x01#8 else 0x00#8) ∧
            (∀ k, k < body.length → bodyAt t.mem s.regs.streamOutBase.toNat k = body.getD k 0#4) ∧
            (body.length % 2 = 1 → bodyAt t.mem s.regs.streamOutBase.toNat body.length = 0#4) ∧
            SameOutside s t s.regs.streamOutBase.toNat (streamLength body.length))))
end

