-- ==== Sys2Proof/Laws/Bits.lean ====
section
/-!
SUPPORT. The bits of `ofBits`, of the packing operations and of Morton codes.
-/

namespace Sys2Proof.Machine

@[simp] theorem getLsbD_ofBits (n : Nat) (f : Nat → Bool) (k : Nat) :
    (ofBits n f).getLsbD k = (decide (k < n) && f k) := by
  induction n with
  | zero => simp [ofBits]
  | succ n ih =>
    simp only [ofBits, BitVec.getLsbD_cons, ih]
    by_cases h : k = n
    · subst h; simp
    · have : decide (k ≤ n) = decide (k < n) := by simp; omega
      simp [h, this]

@[simp] theorem getElem_ofBits (n : Nat) (f : Nat → Bool) (k : Nat) (h : k < n) : (ofBits n f)[k] = f k := by
  rw [← BitVec.getLsbD_eq_getElem, getLsbD_ofBits]; simp [h]

theorem ofBits_congr (n : Nat) {f g : Nat → Bool} (h : ∀ k, k < n → f k = g k) : ofBits n f = ofBits n g := by
  apply BitVec.eq_of_getLsbD_eq
  intro k hk
  simp [hk, h k hk]

theorem ofBits_getLsbD {n : Nat} (v : BitVec n) : ofBits n v.getLsbD = v := by
  apply BitVec.eq_of_getLsbD_eq
  intro k hk
  simp [hk]

/-- A nibble is zero iff its four bits are. -/
theorem nibble_eq_zero_iff (c : Nibble) : c = 0#4 ↔ ∀ q, q < 4 → c.getLsbD q = false := by
  constructor
  · rintro rfl q -; simp
  · intro h
    apply BitVec.eq_of_getLsbD_eq
    intro k hk
    simpa using h k hk

/-! Nibbles of a byte (R8, R12) -/

theorem getLsbD_byteOf (hi lo : Nibble) (k : Nat) :
    (byteOf hi lo).getLsbD k = if k < 4 then lo.getLsbD k else hi.getLsbD (k - 4) := by
  unfold byteOf
  rw [show BitVec.getLsbD (w := 8) (hi ++ lo) k = BitVec.getLsbD (w := 4 + 4) (hi ++ lo) k from rfl,
    BitVec.getLsbD_append]

@[simp] theorem byteOf_low (hi lo : Nibble) : (byteOf hi lo).extractLsb' 0 4 = lo := by
  apply BitVec.eq_of_getLsbD_eq
  intro k hk
  simp [getLsbD_byteOf, hk]

@[simp] theorem byteOf_high (hi lo : Nibble) : (byteOf hi lo).extractLsb' 4 4 = hi := by
  apply BitVec.eq_of_getLsbD_eq
  intro k hk
  simp [getLsbD_byteOf, hk]

theorem nibbleOf_byteOf (hi lo : Nibble) (i : Nat) : nibbleOf (byteOf hi lo) i = if i % 2 = 0 then lo else hi := by
  unfold nibbleOf
  split <;> simp

@[simp] theorem byteOf_nibbles (b : Byte) : byteOf (b.extractLsb' 4 4) (b.extractLsb' 0 4) = b := by
  apply BitVec.eq_of_getLsbD_eq
  intro k hk
  rw [getLsbD_byteOf]
  split
  · next h => simp [h]
  · next h => simp [show k - 4 < 4 by omega, show 4 + (k - 4) = k by omega]

theorem nibbleOf_withNibble_same (b : Byte) (i : Nat) (v : Nibble) : nibbleOf (withNibble b i v) i = v := by
  unfold withNibble
  split <;> simp [nibbleOf_byteOf, *]

theorem nibbleOf_withNibble_other (b : Byte) (i j : Nat) (v : Nibble) (h : i % 2 ≠ j % 2) :
    nibbleOf (withNibble b i v) j = nibbleOf b j := by
  unfold withNibble
  rcases Nat.mod_two_eq_zero_or_one i with hi | hi <;> rcases Nat.mod_two_eq_zero_or_one j with hj | hj <;>
    simp [hi, hj, nibbleOf] at h ⊢

/-- The nibble at position i depends only on the parity of i. -/
theorem nibbleOf_parity (b : Byte) {i j : Nat} (h : i % 2 = j % 2) : nibbleOf b i = nibbleOf b j := by
  simp [nibbleOf, h]

/-! Morton codes (R120, R121) -/

theorem mort_even (x y : Half) (k : Nat) (h : k < 16) : (mort x y).getLsbD (2 * k) = x.getLsbD k := by
  have : 2 * k < 32 := by omega
  simp [mort, this]

theorem mort_odd (x y : Half) (k : Nat) (h : k < 16) : (mort x y).getLsbD (2 * k + 1) = y.getLsbD k := by
  have h1 : 2 * k + 1 < 32 := by omega
  have h2 : (2 * k + 1) % 2 = 1 := by omega
  have h3 : (2 * k + 1) / 2 = k := by omega
  simp [mort, h1, h2, h3]

theorem demort_x (m : Word) (k : Nat) (h : k < 16) : (demort m).1.getLsbD k = m.getLsbD (2 * k) := by
  simp [demort, h]

theorem demort_y (m : Word) (k : Nat) (h : k < 16) : (demort m).2.getLsbD k = m.getLsbD (2 * k + 1) := by
  simp [demort, h]

end Sys2Proof.Machine
end

