-- ==== Sys2Proof/Laws/Memory.lean ====
section
/-!
SUPPORT. The laws of MEM: a read after a write, what a write leaves alone, and that every memory operation keeps the
canonical form.
-/

namespace Sys2Proof.Machine

/-! Reading after one write -/

/-- A memory in canonical form lists its addresses above any lower bound of the first. -/
theorem Memory.read_of_lt {m : Memory} {a : Nat} (h : ∀ c ∈ m, a < c.1) : m.read a = Config.unlistedByte := by
  induction m with
  | nil => rfl
  | cons c m ih =>
    obtain ⟨k, b⟩ := c
    have hk : a < k := h (k, b) (by simp)
    simp only [Memory.read]
    rw [if_neg (by omega), ih (fun c hc => h c (by simp [hc]))]

theorem Memory.read_put (m : Memory) (hw : m.Pairwise fun c d => c.1 < d.1) (a : Nat) (v : Byte) (x : Nat) :
    (m.put a v).read x = if x = a then v else m.read x := by
  induction m with
  | nil =>
    simp only [Memory.put]
    split
    · next h => subst h; simp [Memory.read]
    · simp only [Memory.read]; split <;> split <;> simp_all
  | cons c m ih =>
    obtain ⟨k, b⟩ := c
    have hlt : ∀ c ∈ m, k < c.1 := fun c hc => (List.pairwise_cons.mp hw).1 c hc
    have ih := ih (List.pairwise_cons.mp hw).2
    have below : ∀ y, y < k → Memory.read ((k, b) :: m) y = Config.unlistedByte := fun y hy =>
      Memory.read_of_lt (by
        intro c hc
        rcases List.mem_cons.mp hc with rfl | hc
        · exact hy
        · exact lt_trans hy (hlt c hc))
    simp only [Memory.put]
    split
    · next hak =>
      split
      · next hv =>
        by_cases hx : x = a
        · subst hx; rw [if_pos rfl, below x hak, hv]
        · rw [if_neg hx]
      · by_cases hx : x = a
        · subst hx; simp [Memory.read]
        · rw [if_neg hx]; conv_lhs => rw [Memory.read]
          rw [if_neg (fun h => hx h.symm)]
    · split
      · next hak =>
        subst hak
        split
        · next hv =>
          by_cases hx : x = a
          · subst hx; rw [if_pos rfl, Memory.read_of_lt hlt, hv]
          · rw [if_neg hx]; simp only [Memory.read]; rw [if_neg (fun h => hx h.symm)]
        · by_cases hx : x = a
          · subst hx; simp [Memory.read]
          · rw [if_neg hx]; simp only [Memory.read]; rw [if_neg (fun h => hx h.symm), if_neg (fun h => hx h.symm)]
      · next h1 h2 =>
        simp only [Memory.read, ih]
        by_cases hx : k = x
        · subst hx; rw [if_pos rfl, if_pos rfl, if_neg (fun h => h2 h.symm)]
        · rw [if_neg hx, if_neg hx]

theorem Memory.read_write (m : Memory) (hw : m.wf) (a : Nat) (v : Byte) (ha : a < Config.memSize) (x : Nat) :
    (m.write a v).read x = if x = a then v else m.read x := by
  rw [Memory.write, if_pos ha, Memory.read_put m hw.1]

theorem Memory.read_write_ne (m : Memory) (hw : m.wf) (a : Nat) (v : Byte) (x : Nat) (h : x ≠ a) :
    (m.write a v).read x = m.read x := by
  unfold Memory.write
  split
  · rw [Memory.read_put m hw.1, if_neg h]
  · rfl

/-! The canonical form is kept -/

theorem Memory.mem_put {m : Memory} {a : Nat} {v : Byte} {c : Host.Cell} (h : c ∈ m.put a v) : c = (a, v) ∨ c ∈ m := by
  induction m with
  | nil =>
    simp only [Memory.put] at h
    split at h
    · simp at h
    · simpa using h
  | cons d m ih =>
    obtain ⟨k, b⟩ := d
    simp only [Memory.put] at h
    split at h
    · split at h
      · exact .inr h
      · simpa using h
    · split at h
      · split at h
        · exact .inr (by simp [h])
        · rcases List.mem_cons.mp h with h | h
          · exact .inl h
          · exact .inr (by simp [h])
      · rcases List.mem_cons.mp h with h | h
        · exact .inr (by simp [h])
        · rcases ih h with h | h
          · exact .inl h
          · exact .inr (by simp [h])

/-- What `put` adds holds the byte written, and that byte is not the one an unlisted address reads. -/
theorem Memory.put_ne {m : Memory} {a : Nat} {v : Byte} (hm : ∀ c ∈ m, c.2 ≠ Config.unlistedByte) :
    ∀ c ∈ m.put a v, c.2 ≠ Config.unlistedByte := by
  induction m with
  | nil =>
    intro c hc
    simp only [Memory.put] at hc
    split at hc
    · simp at hc
    · next hv => simp at hc; subst hc; exact hv
  | cons d m ih =>
    obtain ⟨k, b⟩ := d
    have hb : b ≠ Config.unlistedByte := hm (k, b) (by simp)
    have ht : ∀ c ∈ m, c.2 ≠ Config.unlistedByte := fun c hc => hm c (by simp [hc])
    intro c hc
    simp only [Memory.put] at hc
    split at hc
    · split at hc
      · exact hm c hc
      · next hv =>
        rcases List.mem_cons.mp hc with rfl | hc
        · exact hv
        · exact hm c hc
    · split at hc
      · split at hc
        · exact ht c hc
        · next hv =>
          rcases List.mem_cons.mp hc with rfl | hc
          · exact hv
          · exact ht c hc
      · rcases List.mem_cons.mp hc with rfl | hc
        · exact hb
        · exact ih ht c hc

theorem Memory.put_sorted {m : Memory} (a : Nat) (v : Byte) (hw : m.Pairwise fun c d => c.1 < d.1) :
    (m.put a v).Pairwise fun c d => c.1 < d.1 := by
  induction m with
  | nil => simp only [Memory.put]; split <;> simp
  | cons d m ih =>
    obtain ⟨k, b⟩ := d
    obtain ⟨hlt, hm⟩ := List.pairwise_cons.mp hw
    simp only [Memory.put]
    split
    · next hak =>
      split
      · exact hw
      · refine List.pairwise_cons.mpr ⟨?_, hw⟩
        intro c hc
        rcases List.mem_cons.mp hc with rfl | hc
        · exact hak
        · exact lt_trans hak (hlt c hc)
    · split
      · next hak =>
        subst hak
        split
        · exact hm
        · exact List.pairwise_cons.mpr ⟨hlt, hm⟩
      · next h1 h2 =>
        refine List.pairwise_cons.mpr ⟨?_, ih hm⟩
        intro c hc
        rcases Memory.mem_put hc with rfl | hc
        · simp only; omega
        · exact hlt c hc

theorem Memory.write_wf {m : Memory} (hw : m.wf) (a : Nat) (v : Byte) : (m.write a v).wf := by
  unfold Memory.write
  split
  · next ha =>
    refine ⟨Memory.put_sorted a v hw.1, fun c hc => ⟨?_, Memory.put_ne (fun c hc => (hw.2 c hc).2) c hc⟩⟩
    rcases Memory.mem_put hc with rfl | hc
    · exact ha
    · exact (hw.2 c hc).1
  · exact hw

theorem Memory.writeBytes_wf {m : Memory} (hw : m.wf) (a : Nat) (bs : List Byte) : (m.writeBytes a bs).wf := by
  induction bs generalizing m a with
  | nil => exact hw
  | cons b bs ih => exact ih (Memory.write_wf hw a b) (a + 1)

theorem Memory.nibWrite_wf {m : Memory} (hw : m.wf) (b i : Nat) (v : Nibble) : (m.nibWrite b i v).wf :=
  Memory.write_wf hw _ _

theorem Memory.nibWrites_wf {m : Memory} (hw : m.wf) (b i : Nat) (cs : List Nibble) : (m.nibWrites b i cs).wf := by
  induction cs generalizing m i with
  | nil => exact hw
  | cons c cs ih => exact ih (Memory.nibWrite_wf hw b i c) (i + 1)

theorem writeTree_wf {m : Memory} (hw : m.wf) (b : Nat) (t : List Nibble) : (writeTree m b t).wf :=
  Memory.nibWrites_wf hw _ _ _

theorem Memory.fillFree_wf {m : Memory} (hw : m.wf) (d a n : Nat) : (m.fillFree d a n).wf := by
  induction n generalizing m a with
  | zero => exact hw
  | succ n ih => exact ih (Memory.write_wf hw a _) (a + 1)

theorem Memory.fillWrites_wf {m : Memory} (hw : m.wf) (d : Nat) (gs : List Region) : (m.fillWrites d gs).wf := by
  unfold Memory.fillWrites
  induction gs generalizing m with
  | nil => exact hw
  | cons g gs ih =>
    simp only [List.foldl_cons]
    split
    · exact ih (Memory.fillFree_wf hw d _ _)
    · exact ih hw

/-! Reading after many writes -/

/-- Bytes written at consecutive addresses: those addresses read the bytes, every other address reads as before. -/
theorem Memory.read_writeBytes {m : Memory} (hw : m.wf) (a : Nat) (bs : List Byte)
    (hb : a + bs.length ≤ Config.memSize) (x : Nat) :
    (m.writeBytes a bs).read x = if a ≤ x ∧ x < a + bs.length then bs.getD (x - a) 0#8 else m.read x := by
  induction bs generalizing m a with
  | nil => simp only [Memory.writeBytes, List.length_nil]; rw [if_neg (by omega)]
  | cons b bs ih =>
    simp only [List.length_cons] at hb
    simp only [Memory.writeBytes, List.length_cons]
    rw [ih (Memory.write_wf hw a b) (a + 1) (by omega), Memory.read_write m hw a b (by omega)]
    by_cases hx : x = a
    · subst hx
      rw [if_neg (by omega), if_pos rfl, if_pos (by omega)]
      simp
    · rw [if_neg hx]
      by_cases h : a + 1 ≤ x ∧ x < a + 1 + bs.length
      · rw [if_pos h, if_pos (by omega)]
        have : x - a = (x - (a + 1)) + 1 := by omega
        rw [this]; simp
      · rw [if_neg h, if_neg (by omega)]

theorem Memory.read_writeBytes_outside {m : Memory} (hw : m.wf) (a : Nat) (bs : List Byte) (x : Nat)
    (hx : ¬(a ≤ x ∧ x < a + bs.length)) : (m.writeBytes a bs).read x = m.read x := by
  induction bs generalizing m a with
  | nil => rfl
  | cons b bs ih =>
    simp only [List.length_cons] at hx
    simp only [Memory.writeBytes]
    rw [ih (Memory.write_wf hw a b) (a + 1) (by omega), Memory.read_write_ne m hw a b x (by omega)]

theorem Memory.read_fillFree_outside {m : Memory} (hw : m.wf) (d a n x : Nat) (hx : ¬(a ≤ x ∧ x < a + n)) :
    (m.fillFree d a n).read x = m.read x := by
  induction n generalizing m a with
  | zero => rfl
  | succ n ih =>
    simp only [Memory.fillFree]
    rw [ih (Memory.write_wf hw a _) (a + 1) (by omega), Memory.read_write_ne m hw a _ x (by omega)]

theorem Memory.read_fillWrites_outside {m : Memory} (hw : m.wf) (d : Nat) (gs : List Region) (x : Nat)
    (hx : ∀ g ∈ gs, g.write = true → g.has x = false) : (m.fillWrites d gs).read x = m.read x := by
  unfold Memory.fillWrites
  induction gs generalizing m with
  | nil => rfl
  | cons g gs ih =>
    have ht : ∀ k ∈ gs, k.write = true → k.has x = false := fun k hk => hx k (by simp [hk])
    simp only [List.foldl_cons]
    split
    · next hg =>
      rw [ih (Memory.fillFree_wf hw d _ _) ht]
      refine Memory.read_fillFree_outside hw d _ _ x ?_
      have := hx g (by simp) hg
      simpa [Region.has] using this
    · exact ih hw ht

/-! Nibbles -/

/-- NibWrite replaces one nibble of the array at `b` and keeps every other (R8). -/
theorem Memory.nibRead_nibWrite {m : Memory} (hw : m.wf) (b i : Nat) (v : Nibble)
    (hb : b + i / 2 < Config.memSize) (j : Nat) :
    (m.nibWrite b i v).nibRead b j = if j = i then v else m.nibRead b j := by
  unfold Memory.nibRead Memory.nibWrite
  rw [Memory.read_write m hw _ _ hb]
  by_cases hij : j = i
  · subst hij; simp [nibbleOf_withNibble_same]
  · rw [if_neg hij]
    by_cases hd : b + j / 2 = b + i / 2
    · rw [if_pos hd, nibbleOf_withNibble_other _ _ _ _ (by omega)]
      rw [show b + i / 2 = b + j / 2 from hd.symm]
    · rw [if_neg hd]

theorem Memory.nibRead_nibWrites {m : Memory} (hw : m.wf) (b i : Nat) (cs : List Nibble)
    (hb : b + (i + cs.length + 1) / 2 ≤ Config.memSize) (j : Nat) :
    (m.nibWrites b i cs).nibRead b j = if i ≤ j ∧ j < i + cs.length then cs.getD (j - i) 0#4 else m.nibRead b j := by
  induction cs generalizing m i with
  | nil => simp only [Memory.nibWrites, List.length_nil]; rw [if_neg (by omega)]
  | cons c cs ih =>
    simp only [List.length_cons] at hb
    simp only [Memory.nibWrites, List.length_cons]
    rw [ih (Memory.nibWrite_wf hw b i c) (i + 1) (by omega),
      Memory.nibRead_nibWrite hw b i c (by omega)]
    by_cases hj : j = i
    · subst hj
      rw [if_neg (by omega), if_pos rfl, if_pos (by omega)]
      simp
    · rw [if_neg hj]
      by_cases h : i + 1 ≤ j ∧ j < i + 1 + cs.length
      · rw [if_pos h, if_pos (by omega)]
        have : j - i = (j - (i + 1)) + 1 := by omega
        rw [this]; simp
      · rw [if_neg h, if_neg (by omega)]

theorem Memory.read_nibWrites_outside {m : Memory} (hw : m.wf) (b i : Nat) (cs : List Nibble) (x : Nat)
    (hx : ¬(b + i / 2 ≤ x ∧ x < b + (i + cs.length + 1) / 2)) : (m.nibWrites b i cs).read x = m.read x := by
  induction cs generalizing m i with
  | nil => rfl
  | cons c cs ih =>
    simp only [List.length_cons] at hx
    simp only [Memory.nibWrites]
    rw [ih (Memory.nibWrite_wf hw b i c) (i + 1) (by omega)]
    unfold Memory.nibWrite
    rw [Memory.read_write_ne m hw _ _ x (by omega)]

/-! Equal memories are equal data -/

/-- Two memories in canonical form that read the same everywhere are the same list. -/
theorem Memory.ext {m n : Memory} (hm : m.wf) (hn : n.wf) (h : ∀ a, m.read a = n.read a) : m = n := by
  induction m generalizing n with
  | nil =>
    cases n with
    | nil => rfl
    | cons d n =>
      obtain ⟨k, b⟩ := d
      have := h k
      simp only [Memory.read, if_pos] at this
      exact absurd this.symm (hn.2 (k, b) (by simp)).2
  | cons c m ih =>
    obtain ⟨k, b⟩ := c
    have hb := (hm.2 (k, b) (by simp)).2
    have hlt : ∀ c ∈ m, k < c.1 := (List.pairwise_cons.mp hm.1).1
    cases n with
    | nil =>
      have := h k
      simp only [Memory.read, if_pos] at this
      exact absurd this hb
    | cons d n =>
      obtain ⟨k', b'⟩ := d
      have hb' := (hn.2 (k', b') (by simp)).2
      have hlt' : ∀ c ∈ n, k' < c.1 := (List.pairwise_cons.mp hn.1).1
      have hk : k = k' := by
        rcases lt_trichotomy k k' with hkk | hkk | hkk
        · have h1 : Memory.read ((k', b') :: n) k = Config.unlistedByte := Memory.read_of_lt (by
            intro c hc
            rcases List.mem_cons.mp hc with rfl | hc
            · exact hkk
            · exact lt_trans hkk (hlt' c hc))
          have h2 := h k
          rw [h1] at h2
          simp only [Memory.read, if_pos] at h2
          exact absurd h2 hb
        · exact hkk
        · have h1 : Memory.read ((k, b) :: m) k' = Config.unlistedByte := Memory.read_of_lt (by
            intro c hc
            rcases List.mem_cons.mp hc with rfl | hc
            · exact hkk
            · exact lt_trans hkk (hlt c hc))
          have h2 := h k'
          rw [h1] at h2
          simp only [Memory.read, if_pos] at h2
          exact absurd h2.symm hb'
      subst hk
      have hbb : b = b' := by
        have := h k
        simpa only [Memory.read, if_pos] using this
      subst hbb
      have : m = n := ih ⟨(List.pairwise_cons.mp hm.1).2, fun c hc => hm.2 c (by simp [hc])⟩
        ⟨(List.pairwise_cons.mp hn.1).2, fun c hc => hn.2 c (by simp [hc])⟩ (by
          intro a
          by_cases ha : k = a
          · subst ha
            rw [Memory.read_of_lt hlt, Memory.read_of_lt hlt']
          · have := h a
            simpa only [Memory.read, if_neg ha] using this)
      rw [this]

end Sys2Proof.Machine
end

