-- ==== Sys2Proof/Laws/State.lean ====
section
/-!
SUPPORT. One lemma per field per update of State, so that no proof unfolds a record update.
-/

namespace Sys2Proof.Machine

/-! Acceptance (R110) -/

@[simp] theorem State.accept_params (s : State) (w : Word) : (s.accept w).params = s.params := rfl
@[simp] theorem State.accept_phase (s : State) (w : Word) : (s.accept w).phase = .busy := rfl
@[simp] theorem State.accept_latched (s : State) (w : Word) : (s.accept w).latched = w := rfl
@[simp] theorem State.accept_status (s : State) (w : Word) : (s.accept w).status = { done := false, err := false, errcode := 0#4, lost := false } := rfl
@[simp] theorem State.accept_regs (s : State) (w : Word) : (s.accept w).regs = s.regs := rfl
@[simp] theorem State.accept_results (s : State) (w : Word) : (s.accept w).results = s.results := rfl
@[simp] theorem State.accept_morton (s : State) (w : Word) : (s.accept w).morton = s.morton := rfl
@[simp] theorem State.accept_mem (s : State) (w : Word) : (s.accept w).mem = s.mem := rfl
@[simp] theorem State.accept_inputs (s : State) (w : Word) : (s.accept w).inputs = s.inputs := rfl
@[simp] theorem State.accept_reply (s : State) (w : Word) : (s.accept w).reply = s.reply := rfl
@[simp] theorem State.accept_interfered (s : State) (w : Word) : (s.accept w).interfered = false := rfl
@[simp] theorem State.accept_draws (s : State) (w : Word) : (s.accept w).draws = s.draws := rfl

/-! Completion (R112) -/

@[simp] theorem State.complete_params (s : State) (e : Option CmdError) : (s.complete e).params = s.params := rfl
@[simp] theorem State.complete_phase (s : State) (e : Option CmdError) : (s.complete e).phase = .idle := rfl
@[simp] theorem State.complete_latched (s : State) (e : Option CmdError) : (s.complete e).latched = s.latched := rfl
@[simp] theorem State.complete_status (s : State) (e : Option CmdError) : (s.complete e).status = s.status.complete e := rfl
@[simp] theorem State.complete_regs (s : State) (e : Option CmdError) : (s.complete e).regs = s.regs := rfl
@[simp] theorem State.complete_results (s : State) (e : Option CmdError) : (s.complete e).results = s.results := rfl
@[simp] theorem State.complete_morton (s : State) (e : Option CmdError) : (s.complete e).morton = s.morton := rfl
@[simp] theorem State.complete_mem (s : State) (e : Option CmdError) : (s.complete e).mem = s.mem := rfl
@[simp] theorem State.complete_inputs (s : State) (e : Option CmdError) : (s.complete e).inputs = s.inputs := rfl
@[simp] theorem State.complete_reply (s : State) (e : Option CmdError) : (s.complete e).reply = s.reply := rfl
@[simp] theorem State.complete_interfered (s : State) (e : Option CmdError) : (s.complete e).interfered = false := rfl
@[simp] theorem State.complete_draws (s : State) (e : Option CmdError) : (s.complete e).draws = s.draws := rfl

@[simp] theorem State.raiseError_params (s : State) (e : CmdError) : (s.raiseError e).params = s.params := rfl
@[simp] theorem State.raiseError_phase (s : State) (e : CmdError) : (s.raiseError e).phase = .idle := rfl
@[simp] theorem State.raiseError_latched (s : State) (e : CmdError) : (s.raiseError e).latched = s.latched := rfl
@[simp] theorem State.raiseError_status (s : State) (e : CmdError) : (s.raiseError e).status = s.status.complete (some e) := rfl
@[simp] theorem State.raiseError_regs (s : State) (e : CmdError) : (s.raiseError e).regs = s.regs := rfl
@[simp] theorem State.raiseError_results (s : State) (e : CmdError) : (s.raiseError e).results = s.results := rfl
@[simp] theorem State.raiseError_morton (s : State) (e : CmdError) : (s.raiseError e).morton = s.morton := rfl
@[simp] theorem State.raiseError_mem (s : State) (e : CmdError) : (s.raiseError e).mem = s.mem := rfl
@[simp] theorem State.raiseError_inputs (s : State) (e : CmdError) : (s.raiseError e).inputs = s.inputs := rfl
@[simp] theorem State.raiseError_reply (s : State) (e : CmdError) : (s.raiseError e).reply = s.reply := rfl
@[simp] theorem State.raiseError_interfered (s : State) (e : CmdError) : (s.raiseError e).interfered = false := rfl
@[simp] theorem State.raiseError_draws (s : State) (e : CmdError) : (s.raiseError e).draws = s.draws := rfl

@[simp] theorem State.commit_params (s : State) (eff : Effect) : (s.commit eff).params = s.params := rfl
@[simp] theorem State.commit_phase (s : State) (eff : Effect) : (s.commit eff).phase = .idle := rfl
@[simp] theorem State.commit_latched (s : State) (eff : Effect) : (s.commit eff).latched = s.latched := rfl
@[simp] theorem State.commit_status (s : State) (eff : Effect) : (s.commit eff).status = s.status.complete none := rfl
@[simp] theorem State.commit_regs (s : State) (eff : Effect) : (s.commit eff).regs = s.regs := rfl
@[simp] theorem State.commit_results (s : State) (eff : Effect) : (s.commit eff).results = eff.results.getD s.results := rfl
@[simp] theorem State.commit_morton (s : State) (eff : Effect) : (s.commit eff).morton = s.morton := rfl
@[simp] theorem State.commit_mem (s : State) (eff : Effect) : (s.commit eff).mem = eff.mem := rfl
@[simp] theorem State.commit_inputs (s : State) (eff : Effect) : (s.commit eff).inputs = s.inputs := rfl
@[simp] theorem State.commit_reply (s : State) (eff : Effect) : (s.commit eff).reply = s.reply := rfl
@[simp] theorem State.commit_interfered (s : State) (eff : Effect) : (s.commit eff).interfered = false := rfl
@[simp] theorem State.commit_draws (s : State) (eff : Effect) : (s.commit eff).draws = s.draws := rfl

/-! The completion whose output is unspecified (U11) -/

@[simp] theorem State.completeUnspecified_params (s : State) (i : Instr) : (s.completeUnspecified i).params = s.params := rfl
@[simp] theorem State.completeUnspecified_phase (s : State) (i : Instr) : (s.completeUnspecified i).phase = .idle := rfl
@[simp] theorem State.completeUnspecified_latched (s : State) (i : Instr) : (s.completeUnspecified i).latched = s.latched := rfl
@[simp] theorem State.completeUnspecified_status (s : State) (i : Instr) : (s.completeUnspecified i).status = s.status.complete (freeOutcome s.draws i) := rfl
@[simp] theorem State.completeUnspecified_regs (s : State) (i : Instr) : (s.completeUnspecified i).regs = s.regs := rfl
@[simp] theorem State.completeUnspecified_results (s : State) (i : Instr) : (s.completeUnspecified i).results = if writesResults i then
      { resultSize := Config.freeWord s.draws, info := Config.freeInfo s.draws } else s.results := rfl
@[simp] theorem State.completeUnspecified_morton (s : State) (i : Instr) : (s.completeUnspecified i).morton = s.morton := rfl
@[simp] theorem State.completeUnspecified_mem (s : State) (i : Instr) : (s.completeUnspecified i).mem = s.mem.fillWrites s.draws (regions s.regs s.depthReg i) := rfl
@[simp] theorem State.completeUnspecified_inputs (s : State) (i : Instr) : (s.completeUnspecified i).inputs = s.inputs := rfl
@[simp] theorem State.completeUnspecified_reply (s : State) (i : Instr) : (s.completeUnspecified i).reply = s.reply := rfl
@[simp] theorem State.completeUnspecified_interfered (s : State) (i : Instr) : (s.completeUnspecified i).interfered = false := rfl
@[simp] theorem State.completeUnspecified_draws (s : State) (i : Instr) : (s.completeUnspecified i).draws = s.draws + 1 := rfl

/-! Reset (R250) -/

@[simp] theorem State.resetCore_params (s : State) (m : Memory) : (s.resetCore m).params = s.params := rfl
@[simp] theorem State.resetCore_phase (s : State) (m : Memory) : (s.resetCore m).phase = .idle := rfl
@[simp] theorem State.resetCore_latched (s : State) (m : Memory) : (s.resetCore m).latched = Config.freeWord s.draws := rfl
@[simp] theorem State.resetCore_status (s : State) (m : Memory) : (s.resetCore m).status = State.resetStatus := rfl
@[simp] theorem State.resetCore_regs (s : State) (m : Memory) : (s.resetCore m).regs = State.resetRegs := rfl
@[simp] theorem State.resetCore_results (s : State) (m : Memory) : (s.resetCore m).results = State.resetResults := rfl
@[simp] theorem State.resetCore_morton (s : State) (m : Memory) : (s.resetCore m).morton = State.resetMorton := rfl
@[simp] theorem State.resetCore_mem (s : State) (m : Memory) : (s.resetCore m).mem = m := rfl
@[simp] theorem State.resetCore_inputs (s : State) (m : Memory) : (s.resetCore m).inputs = s.inputs := rfl
@[simp] theorem State.resetCore_reply (s : State) (m : Memory) : (s.resetCore m).reply = s.reply := rfl
@[simp] theorem State.resetCore_interfered (s : State) (m : Memory) : (s.resetCore m).interfered = false := rfl
@[simp] theorem State.resetCore_draws (s : State) (m : Memory) : (s.resetCore m).draws = s.draws + 1 := rfl

/-! MEM writes by another agent (R73) -/

@[simp] theorem State.memWrite_params (s : State) (a : Word) (v : Byte) : (s.memWrite a v).params = s.params := rfl
@[simp] theorem State.memWrite_phase (s : State) (a : Word) (v : Byte) : (s.memWrite a v).phase = s.phase := rfl
@[simp] theorem State.memWrite_latched (s : State) (a : Word) (v : Byte) : (s.memWrite a v).latched = s.latched := rfl
@[simp] theorem State.memWrite_status (s : State) (a : Word) (v : Byte) : (s.memWrite a v).status = s.status := rfl
@[simp] theorem State.memWrite_regs (s : State) (a : Word) (v : Byte) : (s.memWrite a v).regs = s.regs := rfl
@[simp] theorem State.memWrite_results (s : State) (a : Word) (v : Byte) : (s.memWrite a v).results = s.results := rfl
@[simp] theorem State.memWrite_morton (s : State) (a : Word) (v : Byte) : (s.memWrite a v).morton = s.morton := rfl
@[simp] theorem State.memWrite_mem (s : State) (a : Word) (v : Byte) : (s.memWrite a v).mem = s.mem.write a.toNat v := rfl
@[simp] theorem State.memWrite_inputs (s : State) (a : Word) (v : Byte) : (s.memWrite a v).inputs = s.inputs := rfl
@[simp] theorem State.memWrite_reply (s : State) (a : Word) (v : Byte) : (s.memWrite a v).reply = s.reply := rfl
@[simp] theorem State.memWrite_interfered (s : State) (a : Word) (v : Byte) : (s.memWrite a v).interfered = (s.interfered || s.runningRegions.any fun g => g.has a.toNat) := rfl
@[simp] theorem State.memWrite_draws (s : State) (a : Word) (v : Byte) : (s.memWrite a v).draws = s.draws := rfl

/-! STATUS at completion -/

@[simp] theorem Status.complete_done (st : Status) (e : Option CmdError) : (st.complete e).done = true := by
  cases e <;> rfl

@[simp] theorem Status.complete_err (st : Status) (e : Option CmdError) : (st.complete e).err = e.isSome := by
  cases e <;> rfl

@[simp] theorem Status.complete_lost (st : Status) (e : Option CmdError) : (st.complete e).lost = st.lost := by
  cases e <;> rfl

@[simp] theorem Status.complete_none_errcode (st : Status) : (st.complete none).errcode = 0#4 := rfl

@[simp] theorem Status.complete_some_errcode (st : Status) (e : CmdError) :
    (st.complete (some e)).errcode = e.code := rfl

theorem CmdError.code_ne_zero (e : CmdError) : e.code ≠ 0#4 := by cases e <;> decide

theorem CmdError.code_le_six (e : CmdError) : e.code.toNat ≤ 6 := by cases e <;> decide

end Sys2Proof.Machine
end

