-- ==== Sys2Proof/Laws/Tree.lean ====
section
/-!
SUPPORT. Node numbers and levels (spec/00_scope.md R11, spec/20_memory.md R64, R65), and the lengths of the lists that
hold a tree, its descriptors and the slots of a level.
-/

namespace Sys2Proof.Machine

theorem four_pow_mod_three (l : Nat) : 4 ^ l % 3 = 1 := by
  induction l with
  | zero => rfl
  | succ l ih => rw [Nat.pow_succ]; omega

@[simp] theorem levelBase_zero : levelBase 0 = 0 := rfl

theorem levelBase_succ (l : Nat) : levelBase (l + 1) = levelBase l + 4 ^ l := by
  have h1 := four_pow_mod_three l
  have h2 : 0 < 4 ^ l := Nat.pow_pos (by omega)
  simp only [levelBase, Nat.pow_succ]; omega

theorem levelBase_succ' (l : Nat) : levelBase (l + 1) = 4 * levelBase l + 1 := by
  have h1 := four_pow_mod_three l
  have h2 : 0 < 4 ^ l := Nat.pow_pos (by omega)
  simp only [levelBase, Nat.pow_succ]; omega

theorem nodeCount_eq_levelBase (r : Nat) : nodeCount r = levelBase r := rfl

theorem levelBase_mono {l r : Nat} (h : l ≤ r) : levelBase l ≤ levelBase r := by
  have := Nat.pow_le_pow_right (n := 4) (by omega) h
  simp only [levelBase]; omega

/-- N(r) is odd (R11). -/
theorem nodeCount_odd {r : Nat} (h : 1 ≤ r) : nodeCount r % 2 = 1 := by
  obtain ⟨k, rfl⟩ : ∃ k, r = k + 1 := ⟨r - 1, by omega⟩
  rw [nodeCount_eq_levelBase, levelBase_succ']; omega

/-- child(i, q) stands on the next level, at position 4·pos(i) + q (R65). -/
theorem child_levelBase (l m q : Nat) : child (levelBase l + m) q = levelBase (l + 1) + (4 * m + q) := by
  rw [levelBase_succ']; unfold child; omega

/-! A list written level by level -/

/-- A list built level by level has N(r) entries. -/
theorem length_levels {α : Type} (f : Nat → Nat → α) (r : Nat) :
    ((List.range r).flatMap fun l => (List.range (4 ^ l)).map (f l)).length = nodeCount r := by
  induction r with
  | zero => rfl
  | succ r ih =>
    rw [List.range_succ, List.flatMap_append, List.length_append, ih]
    simp [nodeCount_eq_levelBase, levelBase_succ]

/-- Its entry base(l) + m is the one made for position m of level l (R64). -/
theorem getD_levels {α : Type} (f : Nat → Nat → α) (d : α) {r l m : Nat} (hl : l < r) (hm : m < 4 ^ l) :
    ((List.range r).flatMap fun l => (List.range (4 ^ l)).map (f l)).getD (levelBase l + m) d = f l m := by
  induction r with
  | zero => omega
  | succ r ih =>
    have hlen := length_levels f r
    rw [nodeCount_eq_levelBase] at hlen
    rw [List.range_succ, List.flatMap_append]
    by_cases h : l = r
    · subst h
      rw [List.getD_append_right _ _ _ _ (by omega), hlen]
      simp [hm]
    · have hlt : levelBase l + m < levelBase r := by
        have h1 := levelBase_succ l
        have h2 := levelBase_mono (show l + 1 ≤ r by omega)
        omega
      rw [List.getD_append _ _ _ _ (by omega)]
      exact ih (by omega)

/-! BUILD and COMPRESS -/

@[simp] theorem length_buildTree (pix : Nat → Nat → Bool) (r : Nat) : (buildTree pix r).length = nodeCount r :=
  length_levels _ r

theorem nodeAt_buildTree (pix : Nat → Nat → Bool) {r l m : Nat} (hl : l < r) (hm : m < 4 ^ l) :
    nodeAt (buildTree pix r) (levelBase l + m) = nodeCode pix (r - 1 - l) m :=
  getD_levels (fun l m => nodeCode pix (r - 1 - l) m) 0#4 hl hm

@[simp] theorem length_descriptors (t : List Nibble) (r : Nat) : (descriptors t r).length = nodeCount r :=
  length_levels _ r

theorem getD_descriptors (t : List Nibble) {r l m : Nat} (hl : l < r) (hm : m < 4 ^ l) :
    (descriptors t r).getD (levelBase l + m) 0#8 =
      descriptor (nodeAt t (levelBase l + m)) (r - l) (uniformHeight t (r - 1 - l) (levelBase l + m)) :=
  getD_levels (fun l m => descriptor (nodeAt t (levelBase l + m)) (r - l)
    (uniformHeight t (r - 1 - l) (levelBase l + m))) 0#8 hl hm

@[simp] theorem length_readTree (m : Memory) (b r : Nat) : (readTree m b r).length = nodeCount r := by
  simp [readTree]

theorem nodeAt_readTree (m : Memory) (b : Nat) {r i : Nat} (h : i < nodeCount r) :
    nodeAt (readTree m b r) i = m.nibRead b i := by
  simp [nodeAt, readTree, h]

@[simp] theorem length_readRd (m : Memory) (b r : Nat) : (readRd m b r).length = nodeCount r := by
  simp [readRd, Memory.readBytes]

theorem getD_readRd (m : Memory) (b : Nat) {r i : Nat} (h : i < nodeCount r) :
    (readRd m b r).getD i 0#8 = m.read (b + i) := by
  simp [readRd, Memory.readBytes, h]

/-! Slots -/

@[simp] theorem length_childSlots (c : Nibble) (below : Nat) : (childSlots c below).length = 4 := by
  simp [childSlots]

theorem length_linNode {r l : Nat} {slot : Slot} {c : Nibble} {d : Byte} {items : List Nibble} {kids : List Slot}
    (h : linNode r l slot c d = .ok (items, kids)) : kids.length = 4 := by
  unfold linNode at h
  repeat' split at h
  all_goals first
    | (cases h; simp)
    | cases h

theorem length_linSlots {t : List Nibble} {rd : List Byte} {r l i : Nat} {slots : List Slot} {items : List Nibble}
    {kids : List Slot} (h : linSlots t rd r l i slots = .ok (items, kids)) : kids.length = 4 * slots.length := by
  induction slots generalizing i items kids with
  | nil => cases h; rfl
  | cons slot slots ih =>
    unfold linSlots at h
    split at h
    · cases h
    · next hn =>
      split at h
      · cases h
      · next hs =>
        cases h
        have h1 := length_linNode hn
        have h2 := ih hs
        simp only [List.length_append, List.length_cons]; omega

theorem length_delSlots {next : Nat → Except CmdError Nibble} {r l k k' : Nat} {slots : List Slot}
    {cs : List Nibble} {kids : List Slot} (h : delSlots next r l slots k = .ok (cs, kids, k')) :
    cs.length = slots.length ∧ kids.length = 4 * slots.length := by
  induction slots generalizing k cs kids k' with
  | nil => cases h; exact ⟨rfl, rfl⟩
  | cons slot slots ih =>
    unfold delSlots at h
    split at h
    · cases h
    · split at h
      · cases h
      · next hs =>
        cases h
        have h2 := ih hs
        simp only [List.length_append, List.length_cons, length_childSlots]; omega

theorem length_delLevels {next : Nat → Except CmdError Nibble} {r n l k k' : Nat} {slots : List Slot}
    {cs : List Nibble} (hs : slots.length = 4 ^ l) (h : delLevels next r n l slots k = .ok (cs, k')) :
    levelBase l + cs.length = levelBase (l + n) := by
  induction n generalizing l slots k cs k' with
  | zero => cases h; rfl
  | succ n ih =>
    unfold delLevels at h
    split at h
    · cases h
    · next hd =>
      split at h
      · cases h
      · next hr =>
        cases h
        obtain ⟨h1, h2⟩ := length_delSlots hd
        have h3 := ih (by rw [h2, hs, Nat.pow_succ]; omega) hr
        have h4 := levelBase_succ l
        rw [List.length_append, show l + (n + 1) = l + 1 + n by omega]
        omega

/-- DELINEARIZE gives a tree of N(r) codes. -/
theorem length_delinearize {m : Memory} {b len r : Nat} {d : Decoded} (h : delinearize m b len r = .ok d) :
    d.tree.length = nodeCount r := by
  unfold delinearize at h
  split at h
  · cases h
  · dsimp only at h
    split at h
    · cases h; simp
    · split at h
      · cases h
      · next hd =>
        cases h
        have := length_delLevels (l := 0) (slots := rootSlots) rfl hd
        simpa [nodeCount_eq_levelBase] using this

/-! The stream and the raster -/

theorem length_pack (ns : List Nibble) : (pack ns).length = (ns.length + 1) / 2 := by
  induction ns using pack.induct with
  | case1 => rfl
  | case2 a => simp [pack]
  | case3 a b rest ih => simp only [pack, List.length_cons, ih]; omega

/-- Nibble k of a packed body is the k-th nibble (R69, R167). -/
theorem nibbleOf_pack (ns : List Nibble) (k : Nat) (h : k < ns.length) :
    nibbleOf ((pack ns).getD (k / 2) 0#8) k = ns.getD k 0#4 := by
  induction ns using pack.induct generalizing k with
  | case1 => simp at h
  | case2 a =>
    obtain rfl : k = 0 := by simpa using h
    simp [pack, nibbleOf_byteOf]
  | case3 a b rest ih =>
    match k with
    | 0 => simp [pack, nibbleOf_byteOf]
    | 1 => simp [pack, nibbleOf_byteOf]
    | k + 2 =>
      have hk : k < rest.length := by simpa using h
      have := ih k hk
      rw [show (k + 2) / 2 = k / 2 + 1 by omega, nibbleOf_parity _ (show (k + 2) % 2 = k % 2 by omega)]
      simpa [pack] using this

@[simp] theorem length_rasterBytes (t : List Nibble) (r w h : Nat) (inv : Bool) :
    (rasterBytes t r w h inv).length = h * rowBytes w := by
  simp [rasterBytes]

/-- Byte j of row y of the raster (R61, R190). -/
theorem getD_rasterBytes (t : List Nibble) (r : Nat) {w h y j : Nat} (inv : Bool) (hy : y < h) (hj : j < rowBytes w) :
    (rasterBytes t r w h inv).getD (y * rowBytes w + j) 0#8 = rasterByte t r w inv y j := by
  induction h with
  | zero => omega
  | succ h ih =>
    have hlen := length_rasterBytes t r w h inv
    unfold rasterBytes at hlen ih ⊢
    rw [List.range_succ, List.flatMap_append]
    by_cases he : y = h
    · subst he
      rw [List.getD_append_right _ _ _ _ (by omega), hlen]
      simp [hj]
    · have hlt : y * rowBytes w + j < h * rowBytes w := by
        have : (y + 1) * rowBytes w ≤ h * rowBytes w := Nat.mul_le_mul_right _ (by omega)
        rw [Nat.add_mul] at this; omega
      rw [List.getD_append _ _ _ _ (by omega)]
      exact ih (by omega)

end Sys2Proof.Machine
end

