-- ==== Sys2Proof/Laws/Commands.lean ====
section
/-!
SUPPORT. What a command can do, said once: the checks at command start, the frame of the tree commands, and the turns
of a step. The proofs cite these and unfold none of the three again.
-/

namespace Sys2Proof.Machine

/-! The checks (R114, R115) -/

theorem State.checkDimensions_cases (s : State) :
    s.checkDimensions = .error .invalidDimensions ∨
    (s.checkDimensions = .ok (depth s.regs.width s.regs.height) ∧ s.regs.width ≠ 0#16 ∧ s.regs.height ≠ 0#16 ∧
      depth s.regs.width s.regs.height ≤ s.rMax) := by
  unfold State.checkDimensions
  by_cases h : s.regs.width = 0#16 ∨ s.regs.height = 0#16
  · exact .inl (if_pos h)
  · rw [if_neg h]
    dsimp only
    by_cases hr : s.rMax < depth s.regs.width s.regs.height
    · exact .inl (if_pos hr)
    · rw [if_neg hr]
      exact .inr ⟨rfl, fun hw => h (.inl hw), fun hh => h (.inr hh), by omega⟩

theorem State.checks_cases (s : State) (i : Instr) :
    s.checks i = .error .invalidDimensions ∨ s.checks i = .error .badAddr ∨
    (s.checks i = .ok (depth s.regs.width s.regs.height) ∧ s.regs.width ≠ 0#16 ∧ s.regs.height ≠ 0#16 ∧
      depth s.regs.width s.regs.height ≤ s.rMax ∧
      regionsValid (regions s.regs (depth s.regs.width s.regs.height) i) = true) := by
  unfold State.checks
  rcases s.checkDimensions_cases with h | ⟨h, hw, hh, hr⟩
  · rw [h]; exact .inl rfl
  · rw [h]
    dsimp only
    split
    · next hv => exact .inr (.inr ⟨rfl, hw, hh, hr, hv⟩)
    · exact .inr (.inl rfl)

/-- What a passed check says. -/
theorem State.checks_ok {s : State} {i : Instr} {r : Nat} (h : s.checks i = .ok r) :
    r = depth s.regs.width s.regs.height ∧ s.regs.width ≠ 0#16 ∧ s.regs.height ≠ 0#16 ∧ r ≤ s.rMax ∧
      regionsValid (regions s.regs r i) = true := by
  rcases s.checks_cases i with h' | h' | ⟨h', hw, hh, hr, hv⟩
  · rw [h] at h'; cases h'
  · rw [h] at h'; cases h'
  · rw [h] at h'; cases h'
    exact ⟨rfl, hw, hh, hr, hv⟩

/-- At a passed check the depth is DEPTH (R114: "equals DEPTH"). -/
theorem State.depthReg_of_checks_ok {s : State} {i : Instr} {r : Nat} (h : s.checks i = .ok r) : s.depthReg = r := by
  obtain ⟨rfl, hw, hh, hr, -⟩ := State.checks_ok h
  simp [State.depthReg, hw, hh, hr]

/-- After the checks every region lies inside MEM (R71 (a), R115). -/
theorem State.region_inMem {s : State} {i : Instr} {r : Nat} (h : s.checks i = .ok r) {g : Region}
    (hg : g ∈ regions s.regs r i) : g.base + g.len ≤ Config.memSize := by
  have hv := (State.checks_ok h).2.2.2.2
  simp only [regionsValid, Bool.and_eq_true, List.all_eq_true] at hv
  simpa [Region.inMem] using hv.1 g hg

/-! The frame of the tree commands (R111) -/

/-- Every case of a tree command. -/
theorem runTree_cases (i : Instr) (s : State) (perform : Nat → Except CmdError Effect) :
    (s.interfered = true ∧ runTree i s perform = .next (s.completeUnspecified i)) ∨
    (∃ e, s.interfered = false ∧ s.checks i = .error e ∧ runTree i s perform = .next (s.raiseError e)) ∨
    (∃ r e, s.checks i = .ok r ∧ s.interfered = false ∧ perform r = .error e ∧
      runTree i s perform = .next (s.raiseError e)) ∨
    (∃ r eff, s.checks i = .ok r ∧ s.interfered = false ∧ perform r = .ok eff ∧
      runTree i s perform = .next (s.commit eff)) := by
  unfold runTree
  cases hi : s.interfered with
  | true => exact .inl ⟨rfl, rfl⟩
  | false =>
    cases hc : s.checks i with
    | error e => exact .inr (.inl ⟨e, rfl, rfl, by simp⟩)
    | ok r =>
      cases hp : perform r with
      | error e => exact .inr (.inr (.inl ⟨r, e, rfl, rfl, hp, by simp [hp]⟩))
      | ok eff => exact .inr (.inr (.inr ⟨r, eff, rfl, rfl, hp, by simp [hp]⟩))

/-- A command whose regions another agent has touched. -/
theorem runTree_interfered {i : Instr} {s : State} {perform : Nat → Except CmdError Effect}
    (hi : s.interfered = true) : runTree i s perform = .next (s.completeUnspecified i) := by
  simp [runTree, hi]

/-- A command that fails its checks. -/
theorem runTree_checks_error {i : Instr} {s : State} {perform : Nat → Except CmdError Effect} {e : CmdError}
    (hi : s.interfered = false) (hc : s.checks i = .error e) : runTree i s perform = .next (s.raiseError e) := by
  simp [runTree, hi, hc]

/-- A tree command that is ready and whose operation succeeds commits its writes. -/
theorem runTree_ok {i : Instr} {s : State} {perform : Nat → Except CmdError Effect} {r : Nat} {eff : Effect}
    (hc : s.checks i = .ok r) (hi : s.interfered = false) (hp : perform r = .ok eff) :
    runTree i s perform = .next (s.commit eff) := by
  simp [runTree, hc, hi, hp]

/-- A tree command that is ready and whose operation raises an error changes nothing but STATUS. -/
theorem runTree_error {i : Instr} {s : State} {perform : Nat → Except CmdError Effect} {r : Nat} {e : CmdError}
    (hc : s.checks i = .ok r) (hi : s.interfered = false) (hp : perform r = .error e) :
    runTree i s perform = .next (s.raiseError e) := by
  simp [runTree, hc, hi, hp]

/-! The turns of a step -/

/-- With no turn left it is the core's. -/
theorem step_no_inputs {s : State} (h : s.inputs = []) : step s = coreStep s := by simp [step, h]

/-- The core's turn. -/
theorem step_core {s : State} {rest : List Turn} (h : s.inputs = .core :: rest) :
    step s = coreStep { s with inputs := rest } := by simp [step, h]

/-- The turn of another agent. -/
theorem step_host {s : State} {e : HostEvent} {rest : List Turn} (h : s.inputs = .host e :: rest) :
    step s = hostStep e { s with inputs := rest } := by simp [step, h]

/-- An IDLE core does nothing. -/
theorem coreStep_idle {s : State} (h : s.phase = .idle) : coreStep s = .next s := by
  simp [coreStep, State.fetch, h]

/-- A BUSY core executes the command it latched. -/
theorem coreStep_busy {s : State} {i : Instr} (h : s.phase = .busy) (hd : decode s.latched = .ok i) :
    coreStep s = exec i s := by
  simp [coreStep, State.fetch, h, hd]

/-- A BUSY core rejects an illegal word. -/
theorem coreStep_illegal {s : State} {e : IllegalWord} (h : s.phase = .busy) (hd : decode s.latched = .error e) :
    coreStep s = .next (s.raiseError .badCmd) := by
  simp [coreStep, State.fetch, h, hd, execIllegal]

/-- Only a BUSY core has regions. -/
theorem State.runningRegions_idle {s : State} (h : s.phase = .idle) : s.runningRegions = [] := by
  simp [State.runningRegions, State.fetch, h]

/-- An illegal word has no regions. -/
theorem State.runningRegions_illegal {s : State} {e : IllegalWord} (hd : decode s.latched = .error e) :
    s.runningRegions = [] := by
  unfold State.runningRegions State.fetch
  cases s.phase <;> simp [hd]

/-- The regions of a running command (R70). -/
theorem State.runningRegions_busy {s : State} {i : Instr} (h : s.phase = .busy) (hd : decode s.latched = .ok i) :
    s.runningRegions = regions s.regs s.depthReg i := by
  simp [State.runningRegions, State.fetch, h, hd]

/-- The next step after `withFetchWord` executes the word. -/
theorem step_withFetchWord (s : State) (nbits w : Nat) {i : Instr} (hd : decode (tableWord nbits w) = .ok i) :
    step (s.withFetchWord nbits w) = exec i (s.withFetchWord nbits w) := by
  rw [step_no_inputs rfl, coreStep_busy rfl hd]

end Sys2Proof.Machine
end

