-- ==== Sys2Proof/Laws/PerInstr.lean ====
section
/-!
SUPPORT. Facts about every command as syntax, one lemma per constructor: its word is legal by the prose of
spec/30_encoding.md R82 and R83.
-/

namespace Sys2Proof.Laws.EncodeLegal

/-- The word of the command is legal (R83). -/
def Statement (i : Instr) : Prop := WellFormed.legalWord (encode i) = true

theorem nop : Statement .nop := by unfold Statement; decide

theorem build : ∀ inv, Statement (.build inv) := by unfold Statement; decide

theorem compress : Statement .compress := by unfold Statement; decide

theorem linearize : ∀ inv count, Statement (.linearize inv count) := by unfold Statement; decide

theorem delinearize : Statement .delinearize := by unfold Statement; decide

theorem reconstruct : ∀ inv, Statement (.reconstruct inv) := by unfold Statement; decide

theorem encode : Statement .encode := by unfold Statement; decide

theorem decode : Statement .decode := by unfold Statement; decide

theorem mortonEnc : Statement .mortonEnc := by unfold Statement; decide

theorem mortonDec : Statement .mortonDec := by unfold Statement; decide

theorem mortonIncx : Statement .mortonIncx := by unfold Statement; decide

theorem mortonIncy : Statement .mortonIncy := by unfold Statement; decide

theorem mortonRstx : Statement .mortonRstx := by unfold Statement; decide

theorem mortonRsty : Statement .mortonRsty := by unfold Statement; decide

end Sys2Proof.Laws.EncodeLegal
end

