-- ==== Sys2Proof/Tests/Slice0.lean ====
section
/-!
SUPPORT. Tests: decoding of words written bit by bit from R80 and R81, the smoke tests of well-formedness, at most two
tests for each command with the values of spec/95_test_vectors.md, the host port, and for each statement with
hypotheses a witness that meets them.
-/

namespace Sys2Proof.Tests

/-! The theorems are elaborated one after another: each of them asks the kernel to evaluate, and many at once take more
threads than the memory limit of check.sh leaves room for. -/

set_option Elab.async false

open Sys2Proof.Machine Sys2Proof.Safety

/-! Decoding: words written out from R80 (OP 7:0, INV 8, COUNT 9) and R81 -/

theorem test_decode_control : decode 0b0000000000000000000000_0_0_00000000#32 = .ok .nop := by decide

theorem test_decode_encoder :
    decode 0b0000000000000000000000_0_0_00000001#32 = .ok (.build false) ∧
    decode 0b0000000000000000000000_0_1_00000001#32 = .ok (.build true) := by decide

theorem test_decode_compressor : decode 0b0000000000000000000000_0_0_00000010#32 = .ok .compress := by decide

theorem test_decode_linearizer :
    decode 0b0000000000000000000000_0_1_00000011#32 = .ok (.linearize true false) ∧
    decode 0b0000000000000000000000_1_0_00000011#32 = .ok (.linearize false true) ∧
    decode 0b0000000000000000000000_0_0_00000100#32 = .ok .delinearize := by decide

theorem test_decode_decoder :
    decode 0b0000000000000000000000_0_0_00000101#32 = .ok (.reconstruct false) ∧
    decode 0b0000000000000000000000_0_1_00000101#32 = .ok (.reconstruct true) := by decide

theorem test_decode_pipeline :
    decode 0b0000000000000000000000_0_0_00000110#32 = .ok .encode ∧
    decode 0b0000000000000000000000_0_0_00000111#32 = .ok .decode := by decide

theorem test_decode_morton :
    decode 0b0000000000000000000000_0_0_00010000#32 = .ok .mortonEnc ∧
    decode 0b0000000000000000000000_0_0_00010001#32 = .ok .mortonDec ∧
    decode 0b0000000000000000000000_0_0_00010010#32 = .ok .mortonIncx ∧
    decode 0b0000000000000000000000_0_0_00010011#32 = .ok .mortonIncy ∧
    decode 0b0000000000000000000000_0_0_00010100#32 = .ok .mortonRstx ∧
    decode 0b0000000000000000000000_0_0_00010101#32 = .ok .mortonRsty := by decide

theorem test_decodeTableWord : decodeTableWord 32 0x303 = some (.linearize true true) ∧
    decodeTableWord 32 0x16 = none := by decide

/-! Well-formedness: an ill-formed word for each condition of R83 is refused -/

theorem test_wellFormed_refuses_reserved_op :
    WellFormed.legalWord 0x08#32 = false ∧ decode 0x08#32 = .error .reservedOp ∧
    WellFormed.legalWord 0x0F#32 = false ∧ decode 0x0F#32 = .error .reservedOp ∧
    WellFormed.legalWord 0x16#32 = false ∧ decode 0x16#32 = .error .reservedOp ∧
    WellFormed.legalWord 0xFF#32 = false ∧ decode 0xFF#32 = .error .reservedOp := by decide

theorem test_wellFormed_refuses_reserved_bits :
    WellFormed.legalWord 0x400#32 = false ∧ decode 0x400#32 = .error .reservedBits ∧
    WellFormed.legalWord 0x80000001#32 = false ∧ decode 0x80000001#32 = .error .reservedBits := by decide

theorem test_wellFormed_refuses_inv :
    WellFormed.legalWord 0x106#32 = false ∧ decode 0x106#32 = .error .invNotTaken ∧
    WellFormed.legalWord 0x110#32 = false ∧ decode 0x110#32 = .error .invNotTaken := by decide

theorem test_wellFormed_refuses_count :
    WellFormed.legalWord 0x201#32 = false ∧ decode 0x201#32 = .error .countNotTaken ∧
    WellFormed.legalWord 0x205#32 = false ∧ decode 0x205#32 = .error .countNotTaken := by decide

/-! A small machine -/

/-- The state after reset with a raster size, one buffer of each kind, and given bytes in MEM. -/
def small (w h : Half) (mem : Memory) : State :=
  { State.reset with
    regs := { width := w, height := h, rasterInBase := 0x1000#32, rasterOutBase := 0x6000#32, treeBase := 0x2000#32,
              rdBase := 0x3000#32, streamOutBase := 0x4000#32, streamOutCap := 0x10#32, streamInBase := 0x5000#32,
              streamInLen := 3#32 }
    mem := mem }

/-- One step, with the command word `w` accepted, ends in a next state of which `f` holds. -/
def ran (s : State) (w : Nat) (f : State → Bool) : Bool :=
  match step (s.withFetchWord 32 w) with
  | .next t => f t
  | _ => false

/-- One step of a turn of another agent ends in a next state of which `f` holds. -/
def turned (s : State) (e : HostEvent) (f : State → Bool) : Bool :=
  match step { s with inputs := [.host e] } with
  | .next t => f t
  | _ => false

/-- The outcome is the next state `t`. -/
def nextIs (o : Outcome) (t : State) : Bool :=
  match o with
  | .next u => decide (u = t)
  | _ => false

theorem eq_next_of_nextIs (o : Outcome) (t : State) (h : nextIs o t = true) : o = .next t := by
  unfold nextIs at h
  split at h
  · rw [of_decide_eq_true h]
  · cases h

/-- The state with Morton registers. -/
def withMorton (x y : Half) (code : Word) : State :=
  { small 0#16 0#16 [] with morton := { x := x, y := y, code := code } }

/-- T = 77770 in TREE and its descriptors in RDB (spec/95 2.3, 2.4). -/
def tree77770 : Memory :=
  [(0x2000, 0x77#8), (0x2001, 0x77#8), (0x3000, 0xF2#8), (0x3001, 1#8), (0x3002, 1#8), (0x3003, 1#8)]

/-- The raster 0F 05 03 01 in RIN (spec/95 2.3). -/
def raster4 : Memory := [(0x1000, 0x0F#8), (0x1001, 5#8), (0x1002, 3#8), (0x1003, 1#8)]

/-! The commands. Expected values: spec/95_test_vectors.md part 2. -/

/-- R116. -/
theorem test_nop : ran (small 4#16 4#16 raster4) 0x000 (fun t => t.statusWord == 2#32 && t.mem == raster4) = true := by
  decide

/-- 2.3, 4×4, INV = 1: Tbytes 8F 88 0F. -/
theorem test_build_inverted : ran (small 4#16 4#16 raster4) 0x101
    (fun t => t.statusWord == 2#32 && t.mem.readBytes 0x2000 3 == [0x8F#8, 0x88#8, 0x0F#8]) = true := by
  decide +kernel

/-- 2.3, 3×3 FF FF FF: pad bits ignored, Tbytes FF 35 01. -/
theorem test_build_ignores_padding : ran
    (small 3#16 3#16 [(0x1000, 0xFF#8), (0x1001, 0xFF#8), (0x1002, 0xFF#8)]) 0x001
    (fun t => t.mem.readBytes 0x2000 3 == [0xFF#8, 0x35#8, 0x01#8]) = true := by decide +kernel

/-- 2.4: T = 77770 gives F2 01 01 01 00. -/
theorem test_compress_marks_a_run : ran (small 4#16 4#16 [(0x2000, 0x77#8), (0x2001, 0x77#8)]) 0x002
    (fun t => t.mem.readBytes 0x3000 5 == [0xF2#8, 1#8, 1#8, 1#8, 0#8]) = true := by decide +kernel

/-- 2.4: T = 33300 gives 02 01 01 00 00: p = 2, s = 2 is no run. -/
theorem test_compress_needs_a_longer_span : ran (small 4#16 4#16 [(0x2000, 0x33#8), (0x2001, 0x03#8)]) 0x002
    (fun t => t.mem.readBytes 0x3000 5 == [2#8, 1#8, 1#8, 0#8, 0#8]) = true := by decide +kernel

/-- 2.5: T = 77770 gives S = 00 F0 07. -/
theorem test_linearize : ran (small 4#16 4#16 tree77770) 0x003
    (fun t => t.results.resultSize == 3#32 && t.mem.readBytes 0x4000 3 == [0#8, 0xF0#8, 7#8]) = true := by
  decide +kernel

/-- 2.5: T = 10000 without descriptors is BADTREE, STATUS 0x66. -/
theorem test_linearize_badtree : ran (small 4#16 4#16 [(0x2000, 1#8)]) 0x003
    (fun t => t.statusWord == 0x66#32 && t.mem == [(0x2000, 1#8)]) = true := by decide +kernel

/-- 2.6: 00 90 03 gives T = 33300, Tbytes 33 03 00, RESULT_SIZE 3. -/
theorem test_delinearize : ran (small 4#16 4#16 [(0x5001, 0x90#8), (0x5002, 3#8)]) 0x004
    (fun t => t.results.resultSize == 3#32 && t.mem.readBytes 0x2000 3 == [0x33#8, 3#8, 0#8]) = true := by
  decide +kernel

/-- 2.6: 00 80 00 is CorruptStream, STATUS 0x36 (V = 0). -/
theorem test_delinearize_zero_fill : ran (small 4#16 4#16 [(0x5001, 0x80#8)]) 0x004
    (fun t => t.statusWord == 0x36#32) = true := by decide +kernel

/-- 2.8: T = 18000 at 4×4 gives 00 02 00 00. -/
theorem test_reconstruct : ran (small 4#16 4#16 [(0x2000, 0x81#8)]) 0x005
    (fun t => t.mem.readBytes 0x6000 4 == [0#8, 2#8, 0#8, 0#8]) = true := by decide +kernel

/-- 2.8: T = 77770 at 4×4, INV = 1, gives 00 0A 0C 0E: pad bits stay 0. -/
theorem test_reconstruct_inverted : ran (small 4#16 4#16 tree77770) 0x105
    (fun t => t.mem.readBytes 0x6000 4 == [0#8, 0x0A#8, 0x0C#8, 0x0E#8]) = true := by decide +kernel

/-- 2.7: 0F 05 03 01 encodes to 00 F0 07, INFO 0. -/
theorem test_encode : ran (small 4#16 4#16 raster4) 0x006
    (fun t => t.results == { resultSize := 3#32, info := 0#2 } &&
      t.mem.readBytes 0x4000 3 == [0#8, 0xF0#8, 7#8]) = true := by decide +kernel

/-- 2.7: 2×2 03 03 encodes to 03, INFO 3; TREE 00. -/
theorem test_encode_inverts : ran (small 2#16 2#16 [(0x1000, 3#8), (0x1001, 3#8)]) 0x006
    (fun t => t.results == { resultSize := 1#32, info := 3#2 } && t.mem.read 0x4000 == 3#8 &&
      t.mem.read 0x2000 == 0#8) = true := by decide +kernel

/-- 2.9: 00 F0 07 at 3×3 gives 07 05 03, TREE 77 77 00. -/
theorem test_decode : ran (small 3#16 3#16 [(0x5001, 0xF0#8), (0x5002, 7#8)]) 0x007
    (fun t => t.mem.readBytes 0x6000 3 == [7#8, 5#8, 3#8] && t.mem.readBytes 0x2000 3 == [0x77#8, 0x77#8, 0#8])
      = true := by decide +kernel

/-- 2.9: 03 at 2×2 gives 03 03, INFO 3. -/
theorem test_decode_inverted : ran (small 2#16 2#16 [(0x5000, 3#8)]) 0x007
    (fun t => t.mem.readBytes 0x6000 2 == [3#8, 3#8] && t.results == { resultSize := 1#32, info := 3#2 }) = true := by
  decide +kernel

/-- 2.2: MORTON_ENC of X 0x1234, Y 0xABCD. -/
theorem test_mortonEnc : ran (withMorton 0x1234#16 0xABCD#16 0#32) 0x010
    (fun t => t.morton.code == 0x898EA5B2#32) = true := by decide +kernel

/-- 2.2: MORTON_DEC of 0x898EA5B2. -/
theorem test_mortonDec : ran (withMorton 0#16 0#16 0x898EA5B2#32) 0x011
    (fun t => t.morton.x == 0x1234#16 && t.morton.y == 0xABCD#16) = true := by decide +kernel

/-- 2.2: MORTON_INCX wraps x and keeps y. -/
theorem test_mortonIncx : ran (withMorton 0#16 0#16 0xFFFFFFFF#32) 0x012
    (fun t => t.morton.code == 0xAAAAAAAA#32) = true := by decide +kernel

/-- 2.2: MORTON_INCY of (3, 5). -/
theorem test_mortonIncy : ran (withMorton 0#16 0#16 0x27#32) 0x013
    (fun t => t.morton.code == 0x2D#32) = true := by decide +kernel

/-- 2.2: MORTON_RSTX of (3, 5). -/
theorem test_mortonRstx : ran (withMorton 0#16 0#16 0x27#32) 0x014
    (fun t => t.morton.code == 0x22#32) = true := by decide +kernel

/-- 2.2: MORTON_RSTY of (3, 5). -/
theorem test_mortonRsty : ran (withMorton 0#16 0#16 0x27#32) 0x015
    (fun t => t.morton.code == 5#32) = true := by decide +kernel

/-! Errors (spec/95 2.1, 2.3, 2.7) -/

/-- BUILD of WIDTH 0, ENCODE of 01 00 00 00 with STREAM_OUT_CAP 1, BUILD with COUNT, and BUILD whose RIN
[0x1000, 0x1004) overlaps TREE [0x1002, 0x1005). -/
theorem test_error_codes :
    ran (small 0#16 4#16 []) 0x001 (fun t => t.statusWord == 0x16#32) = true ∧
    ran { small 4#16 4#16 [(0x1000, 1#8)] with regs := { (small 4#16 4#16 []).regs with streamOutCap := 1#32 } } 0x006
      (fun t => t.statusWord == 0x26#32 && t.mem == [(0x1000, 1#8)]) = true ∧
    ran (small 4#16 4#16 []) 0x201 (fun t => t.statusWord == 0x46#32) = true ∧
    ran { small 4#16 4#16 [] with regs := { (small 4#16 4#16 []).regs with treeBase := 0x1002#32 } } 0x001
      (fun t => t.statusWord == 0x56#32) = true := by decide +kernel

/-- RIN may end exactly at the top of MEM. -/
theorem test_region_at_the_top_of_memory : ran
    { small 4#16 4#16 [] with regs := { (small 4#16 4#16 []).regs with rasterInBase := 0xFFFFFFFC#32 } } 0x001
    (fun t => t.statusWord == 2#32) = true := by decide +kernel

/-! The host port -/

/-- R110: acceptance; the step after it would run the command. -/
theorem test_host_cmd_write : turned (small 4#16 4#16 []) (.wr 0x00 4 6#32)
    (fun t => t.phase == .busy && t.latched == 6#32 && t.statusWord == 1#32) = true := by decide +kernel

/-- R24: bits 31:16 of WIDTH are reserved. -/
theorem test_host_width_write : turned (small 4#16 4#16 []) (.wr 0x08 4 0x12345#32)
    (fun t => t.readReg .width == 0x2345#32) = true := by decide +kernel

/-- R227: a write while BUSY is lost. -/
theorem test_host_write_while_busy : turned ((small 4#16 4#16 []).accept 6#32) (.wr 0x08 4 9#32)
    (fun t => t.readReg .width == 4#32 && t.statusWord == 0x101#32) = true := by decide +kernel

/-- R250, spec/95 part 3: CAPS reads 14. -/
theorem test_host_caps_read : turned State.reset (.rd 0x4C 4) (fun t => t.reply == .register 14#32) = true := by
  decide +kernel

/-- R27, spec/95 2.1: 320×144 has NODE_COUNT 87381. -/
theorem test_host_node_count : turned (small 320#16 144#16 []) (.rd 0x14 4)
    (fun t => t.reply == .register 87381#32) = true := by decide +kernel

/-- R73: a byte the host writes is the byte it reads. -/
theorem test_host_memory : turned (small 4#16 4#16 []) (.memWr 0xFFFFFFFF#32 0x5A#8)
    (fun t => t.mem.read 0xFFFFFFFF == 0x5A#8 && t.mem.read 0 == 0#8) = true := by decide +kernel

/-- R73 (c), U11: a host write into a W region of a running BADADDR command makes its output unspecified. -/
theorem test_host_memory_while_busy :
    turned ((small 4#16 4#16 []).accept 1#32) (.memWr 0x2002#32 1#8) (fun t => t.interfered) = true ∧
    turned ({ small 4#16 4#16 [] with regs := { (small 4#16 4#16 []).regs with treeBase := 0x1002#32 } }.accept 1#32)
      (.memWr 0x1004#32 1#8) (fun t => t.interfered) = true := by decide +kernel

/-! Witnesses: states and operands that meet the hypotheses of the statements -/

/-- The small machine with the command accepted and the turns `inputs` to come. -/
def running (i : Instr) (s : State) (inputs : List Turn) : State := { s.accept (encode i) with inputs := inputs }

/-- A command running whose regions another agent has touched. -/
def touched (i : Instr) (s : State) : State := { running i s [] with interfered := true }

/-- At 4×4, with ROUT on TREE: RECONSTRUCT ends in BADADDR. Its W region is [0x2000, 0x2004). -/
def badBase : State :=
  { small 4#16 4#16 [] with regs := { (small 4#16 4#16 []).regs with rasterOutBase := 0x2000#32 } }

/-- An illegal word latched. -/
def illegal (inputs : List Turn) : State :=
  { small 4#16 4#16 [] with phase := .busy, latched := 0x400#32, inputs := inputs }

/-- The 1×1 machine. -/
def tiny (mem : Memory) : State := small 1#16 1#16 mem

theorem witness_DecodedWordsAreTheEncodedOnes :
    decode 0x303#32 = .ok (.linearize true true) ∧ encode (.linearize true true) = 0x303#32 := by decide

theorem witness_IllegalWordsCompleteWithBadCmd :
    ({ State.reset with phase := .busy, latched := 0x400#32 } : State).phase = .busy ∧
    ({ State.reset with phase := .busy, latched := 0x400#32 } : State).inputs = [] ∧
    decode 0x400#32 = .error .reservedBits := by decide

theorem witness_StepRunsTheDecodedCommand :
    ((running .nop (tiny []) []).inputs = [] ∧ (running .nop (tiny []) []).phase = .busy ∧
      decode (running .nop (tiny []) []).latched = .ok .nop) ∧
    ((running .encode (tiny []) [.core, .core]).inputs = .core :: [.core] ∧
      (running .encode (tiny []) [.core, .core]).phase = .busy ∧
      decode (running .encode (tiny []) [.core, .core]).latched = .ok .encode) ∧
    (State.reset.inputs = [] ∧ State.reset.phase = .idle) ∧
    ({ State.reset with inputs := [.core] } : State).inputs = .core :: [] ∧
    ({ State.reset with inputs := [.host .reset] } : State).inputs = .host .reset :: [] := by decide

theorem witness_StepKeepsTheLegalStates :
    Inv (running .nop (tiny [(7, 1#8)]) []) ∧
    step (running .nop (tiny [(7, 1#8)]) []) = .next ((running .nop (tiny [(7, 1#8)]) []).complete none) :=
  ⟨by decide +kernel, eq_next_of_nextIs _ _ (by decide +kernel)⟩

theorem witness_CapsIsConstant : step State.reset = .next State.reset :=
  eq_next_of_nextIs _ _ (by decide +kernel)

theorem witness_ResetSetsTheRegisters :
    (running .encode (small 4#16 4#16 []) [.host .powerUp]).inputs = .host .powerUp :: [] ∧
    (({ tiny [(7, 1#8)] with inputs := [.host .reset] } : State).inputs = .host .reset :: [] ∧
      ({ tiny [(7, 1#8)] with inputs := [.host .reset] } : State).phase = .idle) := by decide

/-- BUILD running: the bytes next to TREE on both sides; an illegal word; and a command that will fail its checks, with the
byte after its ROUT. -/
theorem witness_ResetWhileBusyKeepsOtherBytes :
    (Inv (running (.build false) (small 4#16 4#16 raster4) [.host .reset]) ∧
      (running (.build false) (small 4#16 4#16 raster4) [.host .reset]).inputs = .host .reset :: [] ∧
      (running (.build false) (small 4#16 4#16 raster4) [.host .reset]).phase = .busy ∧
      decode (running (.build false) (small 4#16 4#16 raster4) [.host .reset]).latched = .ok (.build false) ∧
      (∀ a ∈ [0x1FFF, 0x2003], ∀ g ∈ regions (small 4#16 4#16 raster4).regs (small 4#16 4#16 raster4).depthReg
        (.build false), g.write = true → ¬(g.base ≤ a ∧ a < g.base + g.len))) ∧
    (Inv (illegal [.host .reset]) ∧ (illegal [.host .reset]).phase = .busy ∧
      decode (illegal [.host .reset]).latched = .error .reservedBits) ∧
    (badBase.checks (.reconstruct false) = .error .badAddr ∧
      decode (running (.reconstruct false) badBase [.host .reset]).latched = .ok (.reconstruct false) ∧
      ∀ g ∈ regions badBase.regs badBase.depthReg (.reconstruct false), g.write = true →
        ¬(g.base ≤ 0x2004 ∧ 0x2004 < g.base + g.len)) := by
  exact ⟨by decide +kernel, by decide +kernel, by decide +kernel⟩

theorem witness_EveryAcceptedCommandCompletes :
    (running .decode (small 4#16 4#16 []) []).phase = .busy ∧ (running .decode (small 4#16 4#16 []) []).inputs = [] := by
  decide

theorem witness_CmdWriteAcceptsACommand :
    ({ tiny [] with inputs := [.host (.wr 0 4 6#32)] } : State).inputs =
      .host (.wr (tiny []).params.qtcBase 4 6#32) :: [] ∧ (tiny []).phase = .idle ∧
    (running .nop (tiny []) [.host (.wr 0 4 6#32)]).inputs = .host (.wr (tiny []).params.qtcBase 4 6#32) :: [] ∧
    (running .nop (tiny []) [.host (.wr 0 4 6#32)]).phase = .busy := by decide

theorem witness_WritesWhileBusyAreLost :
    0xFC < 0x100 ∧ 0xFC % 4 = 0 ∧
    (running .nop (tiny []) [.host (.wr 0xFC 4 6#32)]).inputs =
      .host (.wr ((tiny []).params.qtcBase + 0xFC) 4 6#32) :: [] ∧
    (running .nop (tiny []) [.host (.wr 0xFC 4 6#32)]).phase = .busy := by decide

theorem witness_ReadsHaveNoSideEffects :
    0x4C < 0x100 ∧ 0x4C % 4 = 0 ∧
    ({ tiny [] with inputs := [.host (.rd 0x4C 4)] } : State).inputs =
      .host (.rd ((tiny []).params.qtcBase + 0x4C) 4) :: [] ∧
    0x50 < 0x100 ∧ 0x50 % 4 = 0 ∧ (0x50 = 0 ∨ 0x50 ≤ 0x50) := by decide

/-- WIDTH, MORTON_CODE, and the read-only STATUS and the last reserved offset. -/
theorem witness_WritesReachOneRegister :
    (∀ offset ∈ [0x04, 0x08, 0x48, 0xFC], 0 < offset ∧ offset < 0x100 ∧ offset % 4 = 0 ∧
      ({ tiny [] with inputs := [.host (.wr offset 4 6#32)] } : State).inputs =
        .host (.wr ((tiny []).params.qtcBase + offset) 4 6#32) :: [] ∧ (tiny []).phase = .idle) ∧
    0x48 ∈ [0x18, 0x1C, 0x20, 0x24, 0x28, 0x2C, 0x30, 0x34, 0x48] ∧ 0x08 ∈ [0x08, 0x0C, 0x40, 0x44] := by
  decide

/-- The window at 0x100: a byte at its last address, a word that starts before it, and a misaligned word in it. -/
theorem witness_OtherAccessSizesAreRefused :
    ∀ k ∈ [(0x1FF, 1), (0xFE, 4), (0x102, 4), (0x100, 8)],
      let s : State := { State.reset with params := { rMax := 14#4, qtcBase := 0x100 },
                                          inputs := [.host (.wr k.1 k.2 0#32)] }
      s.inputs = .host (.wr k.1 k.2 0#32) :: [] ∧ k.1 < s.params.qtcBase + 0x100 ∧ s.params.qtcBase < k.1 + k.2 ∧
      (k.2 ≠ 4 ∨ k.1 < s.params.qtcBase ∨ (k.1 - s.params.qtcBase) % 4 ≠ 0) := by decide

/-- A zero dimension; 5×3 with r = 3; and 65535×1 with r = 16, above R_MAX. -/
theorem witness_DepthIsTheLeastThatCovers :
    (small 0#16 7#16 []).regs.width = 0#16 ∧
    (5#16 ≠ 0#16 ∧ 3#16 ≠ 0#16 ∧ 1 ≤ 3 ∧ max (5#16).toNat (3#16).toNat ≤ 2 ^ 3 ∧
      (∀ k, k < 3 → 1 ≤ k → 2 ^ k < max (5#16).toNat (3#16).toNat) ∧ 3 ≤ (small 5#16 3#16 []).rMax) ∧
    (0xFFFF#16 ≠ 0#16 ∧ 1#16 ≠ 0#16 ∧ max (0xFFFF#16).toNat (1#16).toNat ≤ 2 ^ 16 ∧
      (∀ k, k < 16 → 1 ≤ k → 2 ^ k < max (0xFFFF#16).toNat (1#16).toNat) ∧
      (small 0xFFFF#16 1#16 []).rMax < 16) := by decide +kernel

/-- BUILD running at 4×4, its TREE at [0x2000, 0x2003), with a byte write to come. -/
def written (a : Word) : State := running (.build false) (small 4#16 4#16 raster4) [.host (.memWr a 1#8)]

/-- At any address; the last byte of TREE is in a region and the byte after it in none. -/
theorem witness_MemWritesOfOtherAgents (a : Word) :
    Inv (written a) ∧ (written a).inputs = .host (.memWr a 1#8) :: [] ∧ (written a).phase = .busy ∧
    decode (written a).latched = .ok (.build false) ∧
    (∃ g ∈ regions (written a).regs (written a).depthReg (.build false), g.base ≤ 0x2002 ∧ 0x2002 < g.base + g.len) ∧
    (∀ g ∈ regions (written a).regs (written a).depthReg (.build false),
      ¬(g.base ≤ 0x2003 ∧ 0x2003 < g.base + g.len)) := by
  have hr : regions (written a).regs (written a).depthReg (.build false) =
    regions (small 4#16 4#16 raster4).regs (small 4#16 4#16 raster4).depthReg (.build false) := rfl
  have hi : Inv (written a) ↔ Inv (running (.build false) (small 4#16 4#16 raster4) []) := Iff.rfl
  have hl : (written a).latched = 0x001#32 := rfl
  rw [hr, hi, hl]
  exact ⟨by decide +kernel, rfl, rfl, by decide, by decide +kernel, by decide +kernel⟩

/-- A command that will fail its checks, and an illegal word. -/
theorem witness_MemWritesOfOtherAgents_others :
    (Inv (running (.reconstruct false) badBase [.host (.memWr 0x2003#32 1#8)]) ∧
      badBase.checks (.reconstruct false) = .error .badAddr ∧
      decode (running (.reconstruct false) badBase [.host (.memWr 0x2003#32 1#8)]).latched = .ok (.reconstruct false) ∧
      ∃ g ∈ regions badBase.regs badBase.depthReg (.reconstruct false), g.base ≤ 0x2003 ∧ 0x2003 < g.base + g.len) ∧
    Inv (illegal [.host (.memWr 0x2003#32 1#8)]) ∧
    decode (illegal [.host (.memWr 0x2003#32 1#8)]).latched = .error .reservedBits := by decide +kernel

theorem witness_MemReadsOfTheHost :
    (let s := running (.build false) (small 4#16 4#16 raster4) [.host (.memRd 0x1000#32)]
     s.inputs = .host (.memRd 0x1000#32) :: [] ∧ s.phase = .busy ∧ decode s.latched = .ok (.build false) ∧
     (∀ g ∈ regions s.regs s.depthReg (.build false), g.write = true →
       ¬(g.base ≤ 0x1000 ∧ 0x1000 < g.base + g.len))) ∧
    (let s := running (.reconstruct false) badBase [.host (.memRd 0x2004#32)]
     decode s.latched = .ok (.reconstruct false) ∧ s.checks (.reconstruct false) = .error .badAddr ∧
     (∀ g ∈ regions s.regs s.depthReg (.reconstruct false), g.write = true →
       ¬(g.base ≤ 0x2004 ∧ 0x2004 < g.base + g.len))) ∧
    decode (illegal [.host (.memRd 0x2000#32)]).latched = .error .reservedBits ∧
    ({ small 4#16 4#16 [] with inputs := [.host (.memRd 0x2000#32)] } : State).phase = .idle := by decide +kernel

/-- A peer that reads what we only read. -/
theorem witness_DisjointPeersDoNotInteract :
    (running (.build false) (tiny []) [.host (.peer 0x1000#32 1#32 false)]).inputs =
      .host (.peer 0x1000#32 1#32 false) :: [] ∧
    (running (.build false) (tiny []) [.host (.peer 0x1000#32 1#32 false)]).phase = .busy ∧
    decode (running (.build false) (tiny []) [.host (.peer 0x1000#32 1#32 false)]).latched = .ok (.build false) ∧
    ∀ g ∈ regions (tiny []).regs (tiny []).depthReg (.build false), g.write = true ∨ false = true →
      ∀ a, ¬((g.base ≤ a ∧ a < g.base + g.len) ∧ (0x1000 ≤ a ∧ a < 0x1000 + 1)) := by
  refine ⟨by decide, by decide, by decide, ?_⟩
  have hr : regions (tiny []).regs (tiny []).depthReg (.build false) =
      [{ base := 0x1000, len := 1, write := false }, { base := 0x2000, len := 1, write := true }] := by decide +kernel
  rw [hr]
  simp
  omega

/-- A peer that writes the byte after the W region of a command that will fail its checks; and an illegal word. -/
theorem witness_DisjointPeersDoNotInteract_others :
    (decode (running (.reconstruct false) badBase [.host (.peer 0x2004#32 1#32 true)]).latched =
        .ok (.reconstruct false) ∧
      ∀ g ∈ regions badBase.regs badBase.depthReg (.reconstruct false), g.write = true ∨ true = true →
        ∀ a, ¬((g.base ≤ a ∧ a < g.base + g.len) ∧ (0x2004 ≤ a ∧ a < 0x2004 + 1))) ∧
    decode (illegal [.host (.peer 0x2000#32 1#32 true)]).latched = .error .reservedBits := by
  refine ⟨⟨by decide, ?_⟩, by decide⟩
  have hr : regions badBase.regs badBase.depthReg (.reconstruct false) =
      [{ base := 0x2000, len := 3, write := false }, { base := 0x2000, len := 4, write := true }] := by decide +kernel
  rw [hr]
  simp only [List.forall_mem_cons]
  exact ⟨by intros; omega, by intros; omega, by simp⟩

/-- A peer that writes the last byte of our RIN, and one that reads the last byte of our TREE; the bytes before them are not
shared. -/
theorem witness_DisjointPeersDoNotInteract_overlap :
    ∀ k ∈ [(0x1003#32, true), (0x2002#32, false)],
      Inv (running (.build false) (small 4#16 4#16 raster4) [.host (.peer k.1 1#32 k.2)]) ∧
      decode (running (.build false) (small 4#16 4#16 raster4) [.host (.peer k.1 1#32 k.2)]).latched =
        .ok (.build false) ∧
      (∃ g ∈ regions (small 4#16 4#16 raster4).regs (small 4#16 4#16 raster4).depthReg (.build false),
        (g.write = true ∨ k.2 = true) ∧ (g.base ≤ k.1.toNat ∧ k.1.toNat < g.base + g.len) ∧
          (k.1.toNat ≤ k.1.toNat ∧ k.1.toNat < k.1.toNat + (1#32).toNat)) ∧
      ∀ g ∈ regions (small 4#16 4#16 raster4).regs (small 4#16 4#16 raster4).depthReg (.build false),
        g.write = true ∨ k.2 = true →
          ¬((g.base ≤ k.1.toNat - 1 ∧ k.1.toNat - 1 < g.base + g.len) ∧ (k.1.toNat ≤ k.1.toNat - 1)) := by
  simp only [List.forall_mem_cons]
  exact ⟨⟨by decide +kernel, by decide +kernel, by decide +kernel, by decide +kernel⟩,
    ⟨by decide +kernel, by decide +kernel, by decide +kernel, by decide +kernel⟩, by simp⟩

/-- The kernel evaluates the event: the command's output is unspecified and a byte not shared is as before. -/
theorem test_host_peer_overlap : turned ((small 4#16 4#16 raster4).accept 1#32) (.peer 0x1003#32 1#32 true)
    (fun t => t.interfered && t.mem.read 0x1002 == 3#8 && t.draws == 1) = true := by decide +kernel

/-- Valid regions. -/
theorem witness_ValidRegionsAreDisjointAndInside_valid :
    (tiny []).interfered = false ∧ isTreeCommand (.build false) = true ∧ (tiny []).regs.width ≠ 0#16 ∧ (tiny []).regs.height ≠ 0#16 ∧
    depth (tiny []).regs.width (tiny []).regs.height ≤ (tiny []).rMax ∧
    (∀ g ∈ regions (tiny []).regs (depth (tiny []).regs.width (tiny []).regs.height) (.build false),
      g.base + g.len ≤ 2 ^ 32) ∧
    (regions (tiny []).regs (depth (tiny []).regs.width (tiny []).regs.height) (.build false)).Pairwise fun g k =>
      g.write = true ∨ k.write = true → ∀ a, ¬((g.base ≤ a ∧ a < g.base + g.len) ∧ (k.base ≤ a ∧ a < k.base + k.len)) := by
  refine ⟨by decide, by decide, by decide, by decide, by decide +kernel, by decide +kernel, ?_⟩
  have hr : regions (tiny []).regs (depth (tiny []).regs.width (tiny []).regs.height) (.build false) =
      [{ base := 0x1000, len := 1, write := false }, { base := 0x2000, len := 1, write := true }] := by decide +kernel
  rw [hr]
  simp
  omega

/-- A region that wraps. -/
theorem witness_ValidRegionsAreDisjointAndInside_invalid :
    let s : State := { small 4#16 4#16 [] with
      regs := { (small 4#16 4#16 []).regs with treeBase := 0xFFFFFFFE#32 } }
    s.interfered = false ∧ isTreeCommand (.build false) = true ∧ s.regs.width ≠ 0#16 ∧ s.regs.height ≠ 0#16 ∧
    depth s.regs.width s.regs.height ≤ s.rMax ∧
    ¬(∀ g ∈ regions s.regs (depth s.regs.width s.regs.height) (.build false), g.base + g.len ≤ 2 ^ 32) := by
  decide +kernel

theorem witness_ChecksReportInPriorityOrder :
    ((small 0#16 1#16 []).interfered = false ∧ isTreeCommand .encode = true ∧ (small 0#16 1#16 []).regs.width = 0#16) ∧
    (small 0xFFFF#16 1#16 []).rMax < depth (small 0xFFFF#16 1#16 []).regs.width (small 0xFFFF#16 1#16 []).regs.height ∧
    (let s : State := { tiny [] with regs := { (tiny []).regs with treeBase := 0x1000#32 } }
     s.interfered = false ∧ isTreeCommand (.build false) = true ∧ s.regs.width ≠ 0#16 ∧ s.regs.height ≠ 0#16 ∧
     depth s.regs.width s.regs.height ≤ s.rMax ∧
     regionsValid (regions s.regs (depth s.regs.width s.regs.height) (.build false)) = false) := by decide +kernel

theorem witness_ErrorsRollBack :
    (small 0#16 1#16 []).interfered = false ∧
    exec .encode (small 0#16 1#16 []) = .next ((small 0#16 1#16 []).raiseError .invalidDimensions) ∧
    ((small 0#16 1#16 []).raiseError .invalidDimensions).status.err = true :=
  ⟨by decide, eq_next_of_nextIs _ _ (by decide +kernel), by decide⟩

theorem witness_EachCommandReportsOnlyItsErrors :
    exec (.build true) (small 0#16 1#16 []) = .next ((small 0#16 1#16 []).raiseError .invalidDimensions) ∧
    ((small 0#16 1#16 []).raiseError .invalidDimensions).status.err = true :=
  ⟨eq_next_of_nextIs _ _ (by decide +kernel), by decide⟩

/-- What BUILD makes of the 1×1 machine with pixel 1 (T = 1, spec/95 2.3). -/
def tinyBuilt (mem : Memory) : State := (tiny mem).commit { mem := mem ++ [(0x2000, 1#8)], results := none }

theorem tiny_build : exec (.build false) (tiny [(0x1000, 1#8)]) = .next (tinyBuilt [(0x1000, 1#8)]) :=
  eq_next_of_nextIs _ _ (by decide +kernel)

theorem witness_OnlyWriteRegionsChange :
    Inv (tiny [(0x1000, 1#8)]) ∧ exec (.build false) (tiny [(0x1000, 1#8)]) = .next (tinyBuilt [(0x1000, 1#8)]) ∧
    ∀ r, (tiny [(0x1000, 1#8)]).checks (.build false) = .ok r ∨
        ((tiny [(0x1000, 1#8)]).interfered = true ∧ r = (tiny [(0x1000, 1#8)]).depthReg) →
      ∀ g ∈ regions (tiny [(0x1000, 1#8)]).regs r (.build false), g.write = true →
        ¬(g.base ≤ 0x2001 ∧ 0x2001 < g.base + g.len) := by
  refine ⟨by decide +kernel, tiny_build, ?_⟩
  intro r h
  have h1 : (tiny [(0x1000, 1#8)]).checks (.build false) = .ok 1 := by decide +kernel
  obtain h | ⟨h, -⟩ := h
  · rw [h1] at h
    cases h
    decide +kernel
  · cases h

/-- Two machines that differ only in a byte outside the regions. -/
theorem witness_CommandsReadOnlyTheirRegions :
    Inv (tiny [(0x1000, 1#8)]) ∧ Memory.wf [(0x1000, 1#8), (0x1001, 9#8)] ∧
    (tiny [(0x1000, 1#8)]).interfered = false ∧
    (∀ r, (tiny [(0x1000, 1#8)]).checks (.build false) = .ok r →
      ∀ g ∈ regions (tiny [(0x1000, 1#8)]).regs r (.build false), ∀ a, g.base ≤ a → a < g.base + g.len →
        Memory.read [(0x1000, 1#8), (0x1001, 9#8)] a = (tiny [(0x1000, 1#8)]).mem.read a) ∧
    exec (.build false) (tiny [(0x1000, 1#8)]) = .next (tinyBuilt [(0x1000, 1#8)]) ∧
    exec (.build false) { tiny [(0x1000, 1#8)] with mem := [(0x1000, 1#8), (0x1001, 9#8)] } =
      .next (tinyBuilt [(0x1000, 1#8), (0x1001, 9#8)]) := by
  refine ⟨by decide +kernel, by decide +kernel, by decide, ?_, tiny_build,
    eq_next_of_nextIs _ _ (by decide +kernel)⟩
  intro r h
  have h1 : (tiny [(0x1000, 1#8)]).checks (.build false) = .ok 1 := by decide +kernel
  rw [h1] at h
  cases h
  have hr : regions (tiny [(0x1000, 1#8)]).regs 1 (.build false) =
      [{ base := 0x1000, len := 1, write := false }, { base := 0x2000, len := 1, write := true }] := by decide +kernel
  rw [hr]
  intro g hg a h1 h2
  simp only [List.mem_cons, List.not_mem_nil, or_false] at hg
  obtain rfl | rfl := hg
  · obtain rfl : a = 0x1000 := by dsimp only at h1 h2; omega
    decide
  · obtain rfl : a = 0x2000 := by dsimp only at h1 h2; omega
    decide

theorem witness_CommandsChangeOnlyTheirRegisters :
    exec (.build false) (tiny [(0x1000, 1#8)]) = .next (tinyBuilt [(0x1000, 1#8)]) ∧
    (∀ inv count, Instr.build false ≠ .linearize inv count) ∧ Instr.build false ≠ .mortonDec := by
  exact ⟨tiny_build, by decide, by decide⟩

/-- One that would pass its checks and one that would not. -/
theorem witness_InterferedCommandsStillComplete :
    (Inv (touched .encode (small 4#16 4#16 raster4)) ∧ isTreeCommand .encode = true ∧
      (touched .encode (small 4#16 4#16 raster4)).interfered = true) ∧
    (Inv (touched (.reconstruct false) badBase) ∧ isTreeCommand (.reconstruct false) = true ∧
      (touched (.reconstruct false) badBase).interfered = true ∧ ∃ inv, Instr.reconstruct false = .reconstruct inv) := by
  decide +kernel

theorem witness_BuildWritesTheTree :
    Inv (small 4#16 4#16 raster4) ∧ Ready (.build true) (small 4#16 4#16 raster4) 2 ∧
    3 < 4 ^ (2 - 1) ∧ child 0 3 < nodeCount 2 := by decide +kernel

theorem witness_BuiltRootIsZeroIffRasterIsEmpty :
    Inv (tiny [(0x1000, 1#8)]) ∧ Ready (.build false) (tiny [(0x1000, 1#8)]) 1 ∧
    exec (.build false) (tiny [(0x1000, 1#8)]) = .next (tinyBuilt [(0x1000, 1#8)]) :=
  ⟨by decide +kernel, by decide +kernel, tiny_build⟩

/-- The root of 77770 is nonzero and above the leaf level; its fourth child is 0. -/
theorem witness_CompressWritesTheDescriptors :
    Inv (small 4#16 4#16 tree77770) ∧ Ready .compress (small 4#16 4#16 tree77770) 2 ∧
    treeCode (small 4#16 4#16 tree77770) (levelBase 0 + 0) ≠ 0#4 ∧ 0 + 1 < 2 ∧
    treeCode (small 4#16 4#16 tree77770) (levelBase 1 + 3) = 0#4 ∧
    treeCode (small 4#16 4#16 tree77770) (levelBase 1 + 2) ≠ 0#4 ∧ 1 + 1 = 2 := by decide +kernel

theorem witness_RunsAreTakenExactlyWhenShorter : 1#4 ≠ 0#4 ∧ 1 ≤ 1 := by decide

/-- With one byte of room, and with COUNT = 1 and none. -/
theorem witness_LinearizeTakesTheShortcut :
    (let s : State := { small 4#16 4#16 [(0x3000, 0xF2#8)] with
       regs := { (small 4#16 4#16 []).regs with streamOutCap := 1#32 } }
     Inv s ∧ Ready (.linearize true false) s 2 ∧ treeCode s 0 = 0#4 ∧ 1 ≤ s.regs.streamOutCap.toNat) ∧
    (let s : State := { small 4#16 4#16 [(0x3000, 0xF2#8)] with
       regs := { (small 4#16 4#16 []).regs with streamOutCap := 0#32 } }
     Inv s ∧ Ready (.linearize false true) s 2 ∧ treeCode s 0 = 0#4) := by decide +kernel

/-- An exact fit: three bytes in a buffer of three. -/
theorem witness_LinearizeWritesTheStream :
    let s : State := { small 4#16 4#16 tree77770 with
      regs := { (small 4#16 4#16 []).regs with streamOutCap := 3#32 } }
    Inv s ∧ Ready (.linearize false false) s 2 ∧ linearizeBuffers s 2 false = .ok [0#8, 0xF0#8, 7#8] ∧
    [0#8, 0xF0#8, 7#8].length ≤ s.regs.streamOutCap.toNat := by decide +kernel

/-- A root that is a code item, one that is a run of 0xF, and (above) one that is a run of 7. -/
theorem witness_LinearizeWritesTheStream_root :
    (linearizeBuffers (small 4#16 4#16 [(0x2000, 0x11#8), (0x3000, 2#8), (0x3001, 1#8)]) 2 true = .ok [1#8, 0x11#8] ∧
      treeCode (small 4#16 4#16 [(0x2000, 0x11#8)]) 0 ≠ 0#4 ∧ (2#8).getLsbD 4 = false) ∧
    (linearizeBuffers (small 4#16 4#16 [(0x2000, 0xFF#8), (0x2001, 0xFF#8), (0x2002, 0x0F#8), (0x3000, 0xF2#8)]) 2 true =
        .ok [1#8, 0x70#8] ∧ (0xF2#8).getLsbD 4 = true) := by decide +kernel

/-- A tree of no bad node with an exact fit; the same with one byte less of room; and a bad node. -/
theorem witness_LinearizeEmitsOneItemPerEmittedNode :
    (let s : State := { small 4#16 4#16 tree77770 with
       regs := { (small 4#16 4#16 []).regs with streamOutCap := 3#32 } }
     Inv s ∧ Ready (.linearize false false) s 2 ∧ treeCode s 0 ≠ 0#4 ∧
     streamBody (treeCode s) (rdAt s) 2 = [0#4, 0xF#4, 7#4] ∧
     streamLength [0#4, 0xF#4, 7#4].length ≤ s.regs.streamOutCap.toNat) ∧
    (2#32).toNat < streamLength [0#4, 0xF#4, 7#4].length ∧
    (let s := small 4#16 4#16 [(0x2000, 1#8)]
     Inv s ∧ Ready (.linearize false false) s 2 ∧ treeCode s 0 ≠ 0#4 ∧ badNode (treeCode s) (rdAt s) 2 1 0) := by
  decide +kernel

theorem witness_LinearizeEmitsOneItemPerEmittedNode_noBadNode :
    ∀ l m, l < 2 → m < 4 ^ l →
      ¬badNode (treeCode (small 4#16 4#16 tree77770)) (rdAt (small 4#16 4#16 tree77770)) 2 l m := by
  intro l m hl hm
  interval_cases l <;> interval_cases m <;> decide +kernel

theorem witness_LinearizeReportsBadTreeAndCapacity :
    (Ready (.linearize false false) (small 4#16 4#16 [(0x2000, 1#8)]) 2 ∧
      linearizeBuffers (small 4#16 4#16 [(0x2000, 1#8)]) 2 false = .error .badTree) ∧
    (let s : State := { small 4#16 4#16 tree77770 with
       regs := { (small 4#16 4#16 []).regs with streamOutCap := 2#32 } }
     Ready (.linearize false false) s 2 ∧ linearizeBuffers s 2 false = .ok [0#8, 0xF0#8, 7#8] ∧
     s.regs.streamOutCap.toNat < [0#8, 0xF0#8, 7#8].length) ∧
    (let s := small 4#16 4#16 [(0x2000, 0xFF#8), (0x3000, 0x50#8)]
     Ready (.linearize false true) s 2 ∧ treeCode s 0 ≠ 0#4 ∧ (rdAt s 0).getLsbD 4 = true ∧
     (rdAt s 0).extractLsb' 5 3 ≠ 7#3 ∧ 2 < ((rdAt s 0).extractLsb' 5 3).toNat + 1) ∧
    (let s := small 4#16 4#16 [(0x2000, 1#8)]
     Ready (.linearize false true) s 2 ∧ (treeCode s 0).getLsbD 0 = true ∧ (rdAt s 0).getLsbD 4 = false ∧
     treeCode s (child 0 0) = 0#4) := by decide +kernel

theorem witness_DelinearizeWritesTheTree :
    Inv (small 4#16 4#16 [(0x5001, 0x90#8), (0x5002, 3#8)]) ∧
    Ready .delinearize (small 4#16 4#16 [(0x5001, 0x90#8), (0x5002, 3#8)]) 2 ∧
    delinearizeBuffer (small 4#16 4#16 [(0x5001, 0x90#8), (0x5002, 3#8)]) 2 =
      .ok { tree := [3#4, 3#4, 3#4, 0#4, 0#4], hdr := 0#8, consumed := 3 } := by decide +kernel

/-- A shortcut, a root that is a code, a root that is a run of E = 0 and one of E = 1 with V = 0xF, at r = 1. -/
theorem witness_DelinearizeWritesTheTree_root :
    ∀ k ∈ [([2#8, 0#8, 0#8], [0#4], 1), ([0#8, 0xF6#8, 0#8], [6#4], 2), ([0#8, 0x70#8, 0#8], [0xF#4], 2),
        ([0#8, 0xF0#8, 0x0F#8], [0xF#4], 3)],
      delinearize (Memory.writeBytes [] 0x5000 k.1) 0x5000 3 1 =
        .ok { tree := k.2.1, hdr := k.1.getD 0 0#8, consumed := k.2.2 } := by decide +kernel

/-- The body of 77770 in SIN, with bits 7:2 and 0 of the header set (spec/95 2.6: both are without effect on the tree). -/
theorem witness_DelinearizeWritesTheTree_items :
    (let s := small 4#16 4#16 [(0x5000, 0xFD#8), (0x5001, 0xF0#8), (0x5002, 7#8)]
     Inv s ∧ Ready .delinearize s 2 ∧
     streamBody (treeCode (small 4#16 4#16 tree77770)) (rdAt (small 4#16 4#16 tree77770)) 2 = [0#4, 0xF#4, 7#4] ∧
     (s.mem.read s.regs.streamInBase.toNat).getLsbD 1 = false ∧
     (∀ k, k < [0#4, 0xF#4, 7#4].length →
       bodyAt s.mem s.regs.streamInBase.toNat k = [0#4, 0xF#4, 7#4].getD k 0#4) ∧
     streamLength [0#4, 0xF#4, 7#4].length ≤ s.regs.streamInLen.toNat) := by decide +kernel

theorem witness_CorruptStreamsAreReported :
    (Ready .delinearize (small 4#16 4#16 [(0x5001, 0x80#8)]) 2 ∧ Ready .decode (small 4#16 4#16 [(0x5001, 0x80#8)]) 2 ∧
      delinearizeBuffer (small 4#16 4#16 [(0x5001, 0x80#8)]) 2 = .error .corruptStream) ∧
    (let s : State := { tiny [] with regs := { (tiny []).regs with streamInLen := 0#32 } }
     s.regs.streamInLen = 0#32) ∧
    (let s : State := { tiny [(0x5000, 1#8)] with regs := { (tiny []).regs with streamInLen := 1#32 } }
     1 ≤ 1 ∧ s.regs.streamInLen = 1#32 ∧ (s.mem.read s.regs.streamInBase.toNat).getLsbD 1 = false) := by
  decide +kernel

/-- A stream of two bytes that decodes, to be cut to one or none; a root run with V = 0; a root run of span 3 at r = 2. -/
theorem witness_CorruptStreamsAreReported_items :
    delinearize [(1, 0x11#8)] 0 2 2 = .ok { tree := [1#4, 1#4, 0#4, 0#4, 0#4], hdr := 0#8, consumed := 2 } ∧ 1 < 2 ∧
    (let m : Memory := [(1, 0x80#8)]
     1 ≤ 2 ∧ (m.read 0).getLsbD 1 = false ∧ bodyAt m 0 0 = 0#4 ∧ (bodyAt m 0 1).getLsbD 3 = true ∧
     bodyAt m 0 2 = 0#4) ∧
    (let m : Memory := [(1, 0x20#8)]
     (m.read 0).getLsbD 1 = false ∧ bodyAt m 0 0 = 0#4 ∧ (bodyAt m 0 1).extractLsb' 0 3 ≠ 7#3 ∧
     2 < ((bodyAt m 0 1).extractLsb' 0 3).toNat + 1) := by decide +kernel

/-- The third leaf of a tree of depth 2 whose items so far are the codes F, 1, 1 (k = 3): a run with V = 0, and a run of
LCODE 1, whose span 2 would fit at the root and passes the leaf level here. -/
theorem witness_CorruptStreamsAreReported_node :
    (let tree := fun i => [0xF#4, 1#4, 1#4].getD i 0#4
     let rd := fun _ : Nat => 0#8
     1 < 2 ∧ 2 < 4 ^ 1 ∧ bodyBefore tree rd 2 1 2 = [0xF#4, 1#4, 1#4] ∧ (nodeView tree rd 2 1 2).emitted = true ∧
     ¬badNode tree rd 2 0 0 ∧ ¬badNode tree rd 2 1 0 ∧ ¬badNode tree rd 2 1 1) ∧
    (let m : Memory := [(1, 0x1F#8), (2, 0x01#8), (3, 0x08#8)]
     (m.read 0).getLsbD 1 = false ∧ (∀ j, j < 3 → bodyAt m 0 j = [0xF#4, 1#4, 1#4].getD j 0#4) ∧
     bodyAt m 0 3 = 0#4 ∧ (bodyAt m 0 4).getLsbD 3 = true ∧ bodyAt m 0 5 = 0#4) ∧
    (let m : Memory := [(1, 0x1F#8), (2, 0x01#8), (3, 0x01#8)]
     (m.read 0).getLsbD 1 = false ∧ (∀ j, j < 3 → bodyAt m 0 j = [0xF#4, 1#4, 1#4].getD j 0#4) ∧
     bodyAt m 0 3 = 0#4 ∧ (bodyAt m 0 4).extractLsb' 0 3 ≠ 7#3 ∧
     2 < 1 + ((bodyAt m 0 4).extractLsb' 0 3).toNat + 1) := by decide +kernel

theorem witness_DecodedTreesKeepTheCodeInvariant :
    1 ≤ 2 ∧ delinearize [(1, 0x90#8), (2, 3#8)] 0 3 2 =
      .ok { tree := [3#4, 3#4, 3#4, 0#4, 0#4], hdr := 0#8, consumed := 3 } ∧ 3 < 4 ∧ child 0 3 < nodeCount 2 := by
  decide +kernel

/-- The byte after the stream differs. -/
theorem witness_DecodingDependsOnlyOnConsumedBytes :
    delinearize [(1, 0x11#8)] 0 3 2 = .ok { tree := [1#4, 1#4, 0#4, 0#4, 0#4], hdr := 0#8, consumed := 2 } ∧
    2 ≤ 2 ∧ ∀ a, 0 ≤ a → a < 0 + 2 → Memory.read [(1, 0x11#8), (2, 0xAB#8)] a = Memory.read [(1, 0x11#8)] a := by
  refine ⟨by decide +kernel, by decide, ?_⟩
  intro a _ h
  interval_cases a <;> decide

theorem witness_ReconstructWritesThePixels :
    Inv (small 3#16 3#16 tree77770) ∧ Ready (.reconstruct true) (small 3#16 3#16 tree77770) 2 ∧ 2 < 3 ∧ 3 ≤ 7 ∧
    7 < 8 * rowBytes 3 := by decide +kernel

theorem witness_PolarityTrialNeverFails : 1 ≤ 1 := by decide

/-- The candidates of the 1×1 raster 01 (spec/95 2.7): 00 01 and 03. -/
theorem witness_EncodeKeepsTheShorterCandidate :
    Inv (tiny [(0x1000, 1#8)]) ∧ Ready .encode (tiny [(0x1000, 1#8)]) 1 ∧
    candidate (tiny [(0x1000, 1#8)]) false 1 = .ok { tree := [1#4], rd := [1#8], stream := [0#8, 1#8] } ∧
    candidate (tiny [(0x1000, 1#8)]) true 1 = .ok { tree := [0#4], rd := [0#8], stream := [3#8] } ∧
    1 ≤ (tiny [(0x1000, 1#8)]).regs.streamOutCap.toNat := by decide +kernel

/-- The same with no room. -/
theorem witness_EncodeKeepsTheShorterCandidate_capacity :
    let s : State := { tiny [(0x1000, 1#8)] with regs := { (tiny []).regs with streamOutCap := 0#32 } }
    Inv s ∧ Ready .encode s 1 ∧
    candidate s false 1 = .ok { tree := [1#4], rd := [1#8], stream := [0#8, 1#8] } ∧
    candidate s true 1 = .ok { tree := [0#4], rd := [0#8], stream := [3#8] } ∧
    s.regs.streamOutCap.toNat < 1 := by decide +kernel

theorem witness_DecodeWritesTreeAndRaster :
    Inv (small 3#16 3#16 [(0x5001, 0xF0#8), (0x5002, 7#8)]) ∧
    Ready .decode (small 3#16 3#16 [(0x5001, 0xF0#8), (0x5002, 7#8)]) 2 ∧
    delinearizeBuffer (small 3#16 3#16 [(0x5001, 0xF0#8), (0x5002, 7#8)]) 2 =
      .ok { tree := [7#4, 7#4, 7#4, 7#4, 0#4], hdr := 0#8, consumed := 3 } := by decide +kernel

/-- What ENCODE makes of the 1×1 machine with pixel 1: TREE 0, RDB 0, S = 03. -/
def tinyEncoded (mem : Memory) : State :=
  (tiny mem).commit { mem := mem ++ [(0x4000, 3#8)], results := some { resultSize := 1#32, info := 3#2 } }

theorem tiny_encode : exec .encode (tiny [(0x1000, 1#8)]) = .next (tinyEncoded [(0x1000, 1#8)]) :=
  eq_next_of_nextIs _ _ (by decide +kernel)

theorem witness_EncodeIsBuildCompressLinearize :
    Inv (tiny [(0x1000, 1#8)]) ∧ Ready .encode (tiny [(0x1000, 1#8)]) 1 ∧
    exec .encode (tiny [(0x1000, 1#8)]) = .next (tinyEncoded [(0x1000, 1#8)]) ∧
    (tinyEncoded [(0x1000, 1#8)]).status.err = false :=
  ⟨by decide +kernel, by decide +kernel, tiny_encode, by decide⟩

/-- What DECODE of the byte 03 makes of the 1×1 machine: TREE 0 and the raster 01. -/
def tinyDecoded : State :=
  (tiny []).commit { mem := [(0x5000, 3#8), (0x6000, 1#8)], results := some { resultSize := 1#32, info := 3#2 } }

theorem witness_DecodeIsDelinearizeReconstruct :
    Inv (tiny [(0x5000, 3#8)]) ∧ Ready .decode (tiny [(0x5000, 3#8)]) 1 ∧
    exec .decode (tiny [(0x5000, 3#8)]) = .next tinyDecoded ∧ tinyDecoded.status.err = false :=
  ⟨by decide +kernel, by decide +kernel, eq_next_of_nextIs _ _ (by decide +kernel), by decide⟩

/-- The pixels of 01 00 00 00 (spec/95 1.2), whose stream is 00 11. -/
def corner (x y : Nat) : Bool := x == 0 && y == 0

theorem witness_LinearizerRoundTrip :
    1 ≤ 2 ∧ linearize (buildTree corner 2) (descriptors (buildTree corner 2) 2) 2 false = .ok [0#8, 0x11#8] ∧
    (∀ j, j < [0#8, 0x11#8].length → Memory.read [(0x5001, 0x11#8)] (0x5000 + j) = [0#8, 0x11#8].getD j 0#8) ∧
    [0#8, 0x11#8].length ≤ 2 := by decide +kernel

theorem witness_BuiltStreamsFitTheBound :
    1 ≤ 2 ∧ linearize (buildTree corner 2) (descriptors (buildTree corner 2) 2) 2 true = .ok [1#8, 0x11#8] := by
  decide +kernel

/-- ENCODE of the 1×1 raster 01 writes the byte 03; a machine that finds it in SIN is ready to decode it. -/
theorem witness_EncodeDecodeRoundTrip :
    (Inv (tiny [(0x1000, 1#8)]) ∧ Ready .encode (tiny [(0x1000, 1#8)]) 1 ∧
      1 + (nodeCount 1 + 1) / 2 ≤ (tiny [(0x1000, 1#8)]).regs.streamOutCap.toNat) ∧
    ran (tiny [(0x1000, 1#8)]) 6 (fun t => t.results.resultSize == 1#32 && t.mem.read 0x4000 == 3#8) = true ∧
    (Inv (tiny [(0x5000, 3#8)]) ∧ Ready .decode (tiny [(0x5000, 3#8)]) 1 ∧
      (1#32).toNat ≤ (tiny [(0x5000, 3#8)]).regs.streamInLen.toNat ∧
      (tiny [(0x5000, 3#8)]).mem.read 0x5000 = 3#8) := by decide +kernel

/-- Two machines with the same pixel whose pad bits differ. -/
theorem witness_EncodingDependsOnlyOnThePixels :
    (Inv (tiny [(0x1000, 1#8)]) ∧ Inv (tiny [(0x1000, 0xFF#8)]) ∧ Ready .encode (tiny [(0x1000, 1#8)]) 1 ∧
      Ready .encode (tiny [(0x1000, 0xFF#8)]) 1) ∧
    (∀ x y, x < (tiny [(0x1000, 1#8)]).regs.width.toNat → y < (tiny [(0x1000, 1#8)]).regs.height.toNat →
      pixelIn (tiny [(0x1000, 0xFF#8)]) x y = pixelIn (tiny [(0x1000, 1#8)]) x y) ∧
    exec .encode (tiny [(0x1000, 1#8)]) = .next (tinyEncoded [(0x1000, 1#8)]) ∧
    exec .encode (tiny [(0x1000, 0xFF#8)]) = .next (tinyEncoded [(0x1000, 0xFF#8)]) ∧
    (tinyEncoded [(0x1000, 1#8)]).status.err = false ∧ (tinyEncoded [(0x1000, 0xFF#8)]).status.err = false := by
  refine ⟨by decide +kernel, ?_, eq_next_of_nextIs _ _ (by decide +kernel),
    eq_next_of_nextIs _ _ (by decide +kernel), by decide, by decide⟩
  intro x y hx hy
  have hx1 : x < 1 := hx
  have hy1 : y < 1 := hy
  interval_cases x
  interval_cases y
  decide

/-- The 1×1 rasters 01 and 00, their candidates and the streams kept. -/
theorem witness_InversionSymmetry :
    (∀ x y, x < (tiny [(0x1000, 1#8)]).regs.width.toNat → y < (tiny [(0x1000, 1#8)]).regs.height.toNat →
      pixelIn (tiny []) x y = !pixelIn (tiny [(0x1000, 1#8)]) x y) ∧
    candidate (tiny [(0x1000, 1#8)]) false 1 = .ok { tree := [1#4], rd := [1#8], stream := [0#8, 1#8] } ∧
    candidate (tiny [(0x1000, 1#8)]) true 1 = .ok { tree := [0#4], rd := [0#8], stream := [3#8] } ∧
    polarityTrial (tiny [(0x1000, 1#8)]) 1 = .ok { tree := [0#4], rd := [0#8], stream := [3#8] } ∧
    polarityTrial (tiny []) 1 = .ok { tree := [0#4], rd := [0#8], stream := [2#8] } := by
  refine ⟨?_, by decide +kernel, by decide +kernel, by decide +kernel, by decide +kernel⟩
  intro x y hx hy
  have hx1 : x < 1 := hx
  have hy1 : y < 1 := hy
  interval_cases x
  interval_cases y
  decide

/-- A tie: the 2×2 rasters 02 01 and 01 02, T = 6 and T = 9 (spec/95 2.3, 2.8). -/
theorem witness_InversionSymmetry_tie :
    (∀ x y, x < 2 → y < 2 → pixelIn (small 2#16 2#16 [(0x1000, 1#8), (0x1001, 2#8)]) x y =
      !pixelIn (small 2#16 2#16 [(0x1000, 2#8), (0x1001, 1#8)]) x y) ∧
    candidate (small 2#16 2#16 [(0x1000, 2#8), (0x1001, 1#8)]) false 1 =
      .ok { tree := [6#4], rd := [1#8], stream := [0#8, 6#8] } ∧
    candidate (small 2#16 2#16 [(0x1000, 2#8), (0x1001, 1#8)]) true 1 =
      .ok { tree := [9#4], rd := [1#8], stream := [1#8, 9#8] } ∧
    polarityTrial (small 2#16 2#16 [(0x1000, 1#8), (0x1001, 2#8)]) 1 =
      .ok { tree := [9#4], rd := [1#8], stream := [0#8, 9#8] } := by
  refine ⟨?_, by decide +kernel, by decide +kernel, by decide +kernel⟩
  intro x y hx hy
  interval_cases x <;> interval_cases y <;> decide

theorem witness_UniformRastersEncodeToOneByte :
    (Inv (tiny [(0x1000, 1#8)]) ∧ Ready .encode (tiny [(0x1000, 1#8)]) 1 ∧
      1 ≤ (tiny [(0x1000, 1#8)]).regs.streamOutCap.toNat) ∧
    ∀ x y, x < (tiny [(0x1000, 1#8)]).regs.width.toNat → y < (tiny [(0x1000, 1#8)]).regs.height.toNat →
      pixelIn (tiny [(0x1000, 1#8)]) x y = true := by
  refine ⟨by decide +kernel, ?_⟩
  intro x y hx hy
  have hx1 : x < 1 := hx
  have hy1 : y < 1 := hy
  interval_cases x
  interval_cases y
  decide

end Sys2Proof.Tests
end

/-!
PROOFS. What one turn can do, said once as an inversion: the ends of a command, the turns of the other agents, and the
turn of a step.
-/

namespace Sys2Proof.Machine

/-! What a command can do, as every arm of `exec` does it -/

/-- What the collected writes of a tree command can be: MEM stays canonical, and RESULT_SIZE and INFO are set by the
stream commands alone (R36, R37). -/
structure Effect.Allowed (i : Instr) (s : State) (eff : Effect) : Prop where
  mem_wf : s.mem.wf → eff.mem.wf
  results : writesResults i = false → eff.results = none

/-- What NOP and the Morton commands can make of the Morton registers (R38–R40). -/
structure Morton.Allowed (i : Instr) (old new : Morton) : Prop where
  coordinates : i ≠ .mortonDec → new.x = old.x ∧ new.y = old.y
  code : i ≠ .mortonEnc → i ≠ .mortonIncx → i ≠ .mortonIncy → i ≠ .mortonRstx → i ≠ .mortonRsty → new.code = old.code

/-- A tree command is `runTree` of an operation whose effects are allowed. -/
theorem exec_tree {i : Instr} (hi : Safety.isTreeCommand i = true) (s : State) :
    ∃ perform, exec i s = runTree i s perform ∧ ∀ r eff, perform r = .ok eff → eff.Allowed i s := by
  unfold exec
  cases i with
  | build inv =>
    refine ⟨_, rfl, ?_⟩
    rintro r eff ⟨⟩
    exact ⟨fun hw => writeTree_wf hw _ _, fun _ => rfl⟩
  | compress =>
    refine ⟨_, rfl, ?_⟩
    rintro r eff ⟨⟩
    exact ⟨fun hw => Memory.writeBytes_wf hw _ _, fun _ => rfl⟩
  | linearize inv count =>
    refine ⟨_, rfl, ?_⟩
    intro r eff h
    split at h
    · cases h
    split at h
    · cases h
      exact ⟨id, nofun⟩
    split at h
    · cases h
    · cases h
      exact ⟨fun hw => Memory.writeBytes_wf hw _ _, nofun⟩
  | delinearize =>
    refine ⟨_, rfl, ?_⟩
    intro r eff h
    split at h
    · cases h
    · cases h
      exact ⟨fun hw => writeTree_wf hw _ _, nofun⟩
  | reconstruct inv =>
    refine ⟨_, rfl, ?_⟩
    rintro r eff ⟨⟩
    exact ⟨fun hw => Memory.writeBytes_wf hw _ _, fun _ => rfl⟩
  | encode =>
    refine ⟨_, rfl, ?_⟩
    intro r eff h
    split at h
    · cases h
    split at h
    · cases h
    · cases h
      exact ⟨fun hw => Memory.writeBytes_wf (Memory.writeBytes_wf (writeTree_wf hw _ _) _ _) _ _, nofun⟩
  | decode =>
    refine ⟨_, rfl, ?_⟩
    intro r eff h
    split at h
    · cases h
    · cases h
      exact ⟨fun hw => Memory.writeBytes_wf (writeTree_wf hw _ _) _ _, nofun⟩
  | nop | mortonEnc | mortonDec | mortonIncx | mortonIncy | mortonRstx | mortonRsty => cases hi

/-- NOP and the Morton commands succeed and write the Morton registers alone. -/
theorem exec_not_tree {i : Instr} (hi : Safety.isTreeCommand i = false) (s : State) :
    ∃ mo, exec i s = completeMorton s mo ∧ Morton.Allowed i s.morton mo := by
  cases i with
  | nop => exact ⟨s.morton, rfl, fun _ => ⟨rfl, rfl⟩, fun _ _ _ _ _ => rfl⟩
  | mortonDec => exact ⟨_, rfl, fun h => absurd rfl h, fun _ _ _ _ _ => rfl⟩
  | mortonEnc | mortonIncx | mortonIncy | mortonRstx | mortonRsty =>
    exact ⟨_, rfl, fun _ => ⟨rfl, rfl⟩, by simp⟩
  | build | compress | linearize | delinearize | reconstruct | encode | decode => cases hi

/-- The ends a command can come to. -/
inductive CommandEnd (i : Instr) (s : State) : State → Prop where
  /-- NOP and the Morton commands (R116, R122–R127). -/
  | morton (mo : Morton) : Morton.Allowed i s.morton mo → CommandEnd i s ({ s with morton := mo }.complete none)
  /-- Another agent has touched the regions (U11). -/
  | unspecified : CommandEnd i s (s.completeUnspecified i)
  /-- An error discards every write (R224). -/
  | error (e : CmdError) : CommandEnd i s (s.raiseError e)
  /-- Success of a tree command (R112). -/
  | commit (eff : Effect) : eff.Allowed i s → CommandEnd i s (s.commit eff)

theorem commandEnd_of_exec {i : Instr} {s t : State} (h : exec i s = .next t) : CommandEnd i s t := by
  cases hi : Safety.isTreeCommand i with
  | false =>
    obtain ⟨mo, he, hmo⟩ := exec_not_tree hi s
    cases he.symm.trans h
    exact .morton mo hmo
  | true =>
    obtain ⟨perform, he, hp⟩ := exec_tree hi s
    rw [he] at h
    rcases runTree_cases i s perform with ⟨-, hr⟩ | ⟨e, -, -, hr⟩ | ⟨r, e, -, -, -, hr⟩ | ⟨r, eff, -, -, ho, hr⟩ <;>
      cases hr.symm.trans h
    · exact .unspecified
    · exact .error e
    · exact .error e
    · exact .commit eff (hp r eff ho)

/-! What a turn can do -/

/-- The turns of the other agents that are not refused. -/
inductive HostNext (s : State) : State → Prop where
  /-- A host-bus write outside the window (log 12). -/
  | outside : HostNext s s
  | write (offset : Nat) (v : Word) : HostNext s (s.writeOffset offset v)
  /-- A host-bus read, of a register or outside the window. -/
  | read (answer : Reply) : HostNext s { s with reply := answer }
  | memWrite (a : Word) (v : Byte) : HostNext s (s.memWrite a v)
  | memRead (a : Word) : HostNext s (s.memRead a)
  | peer (k : Region) : HostNext s (s.peerCommand k)
  /-- The reset input and power-up, which keep a canonical MEM canonical. -/
  | reset (m : Memory) : (s.mem.wf → m.wf) → HostNext s (s.resetCore m)

theorem hostNext_of_hostStep {e : HostEvent} {s t : State} (h : hostStep e s = .next t) : HostNext s t := by
  cases e with
  | wr addr size v =>
    unfold hostStep at h
    dsimp only at h
    split at h <;> cases h
    · exact .outside
    · exact .write _ _
  | rd addr size =>
    unfold hostStep at h
    dsimp only at h
    split at h <;> cases h
    · exact .read _
    · exact .read _
  | memWr a v => cases h; exact .memWrite a v
  | memRd a => cases h; exact .memRead a
  | peer base len writes => cases h; exact .peer _
  | reset => cases h; exact .reset _ fun hw => Memory.fillWrites_wf hw _ _
  | powerUp => cases h; exact .reset _ fun hw => Memory.fillFree_wf hw _ _ _

/-- What one step makes of the state, once its turn is taken from `inputs`. -/
inductive TurnNext (s : State) : State → Prop where
  /-- An IDLE core (R235). -/
  | idle : TurnNext s s
  /-- An illegal word (R113). -/
  | illegal : TurnNext s (s.raiseError .badCmd)
  | command (i : Instr) (t : State) : CommandEnd i s t → TurnNext s t
  | host (t : State) : HostNext s t → TurnNext s t

theorem turnNext_of_coreStep {s t : State} (h : coreStep s = .next t) : TurnNext s t := by
  cases hp : s.phase with
  | idle =>
    cases (coreStep_idle hp).symm.trans h
    exact .idle
  | busy =>
    cases hd : decode s.latched with
    | error e =>
      cases (coreStep_illegal hp hd).symm.trans h
      exact .illegal
    | ok i => exact .command i t (commandEnd_of_exec ((coreStep_busy hp hd).symm.trans h))

theorem turnNext_of_step {s t : State} (h : step s = .next t) : ∃ rest, TurnNext { s with inputs := rest } t := by
  cases hin : s.inputs with
  | nil => exact ⟨s.inputs, turnNext_of_coreStep ((step_no_inputs hin).symm.trans h)⟩
  | cons turn rest =>
    refine ⟨rest, ?_⟩
    cases turn with
    | core => exact turnNext_of_coreStep ((step_core hin).symm.trans h)
    | host e => exact .host t (hostNext_of_hostStep ((step_host hin).symm.trans h))

end Sys2Proof.Machine

/-!
PROOFS. What every step keeps: the legal states, the parameters, and the registers a command does not write.
-/

namespace Sys2Proof.Machine

open Sys2Proof.Safety

/-! What every command leaves unchanged -/

/-- Every end of a command is the completion of a state in which nothing but MEM, the result registers, the Morton
registers and the count of draws has changed. -/
theorem CommandEnd.exists_complete {i : Instr} {s t : State} (h : CommandEnd i s t) :
    ∃ m res mo d e, t = { s with mem := m, results := res, morton := mo, draws := d }.complete e := by
  cases h with
  | morton mo _ => exact ⟨_, _, _, _, none, rfl⟩
  | unspecified => exact ⟨_, _, _, _, _, rfl⟩
  | error e => exact ⟨_, _, _, _, some e, rfl⟩
  | commit eff _ => exact ⟨_, _, _, _, none, rfl⟩

/-! The legal states are kept -/

/-- STATUS is legal after every completion (R112, R221). -/
theorem State.complete_legalStatus (s : State) (e : Option CmdError) : LegalStatus (s.complete e) := by
  cases e with
  | none => simp [LegalStatus]
  | some e => simp [LegalStatus, CmdError.code_ne_zero, CmdError.code_le_six]

theorem State.complete_inv {s : State} (hw : s.mem.wf) (hr : 1 ≤ s.rMax) (e : Option CmdError) : Inv (s.complete e) :=
  ⟨hw, hr, s.complete_legalStatus e, nofun⟩

theorem CommandEnd.mem_wf {i : Instr} {s t : State} (h : CommandEnd i s t) (hw : s.mem.wf) : t.mem.wf := by
  cases h with
  | morton mo _ => exact hw
  | unspecified => exact Memory.fillWrites_wf hw _ _
  | error e => exact hw
  | commit eff heff => exact heff.mem_wf hw

theorem CommandEnd.inv {i : Instr} {s t : State} (h : CommandEnd i s t) (hs : Inv s) : Inv t := by
  obtain ⟨hw, hr, -, -⟩ := hs
  have hm := h.mem_wf hw
  obtain ⟨m, res, mo, d, e, rfl⟩ := h.exists_complete
  refine State.complete_inv ?_ ?_ e
  · exact hm
  · exact hr

theorem State.accept_inv {s : State} (hs : Inv s) (w : Word) : Inv (s.accept w) := by
  obtain ⟨hw, hr, -, -⟩ := hs
  exact ⟨hw, hr, by simp [LegalStatus], nofun⟩

/-- A register write leaves every part of a legal state alone, but for an acceptance. -/
theorem State.writeReg_inv {s : State} (hs : Inv s) (v : Word) (n : RegName) : Inv (s.writeReg v n) := by
  cases n with
  | cmd => exact s.accept_inv hs v
  | _ => exact hs

theorem State.writeOffset_inv {s : State} (hs : Inv s) (offset : Nat) (v : Word) : Inv (s.writeOffset offset v) := by
  unfold State.writeOffset
  split
  · exact hs
  · split
    · exact s.writeReg_inv hs v _
    · exact hs

/-- Only a BUSY core has regions for another agent to touch. -/
theorem State.busy_of_mem_runningRegions {s : State} {g : Region} (h : g ∈ s.runningRegions) : s.phase = .busy := by
  cases hp : s.phase with
  | idle => simp [State.runningRegions_idle hp] at h
  | busy => rfl

theorem State.memWrite_inv {s : State} (hs : Inv s) (a : Word) (v : Byte) : Inv (s.memWrite a v) := by
  obtain ⟨hw, hr, hst, hi⟩ := hs
  refine ⟨Memory.write_wf hw _ _, hr, hst, fun h => ?_⟩
  rcases Bool.or_eq_true_iff.mp h with h | h
  · exact hi h
  · obtain ⟨g, hg, -⟩ := List.any_eq_true.mp h
    exact State.busy_of_mem_runningRegions hg

theorem State.memRead_inv {s : State} (hs : Inv s) (a : Word) : Inv (s.memRead a) := by
  unfold State.memRead
  split <;> exact hs

theorem Memory.foldl_fillFree_wf {m : Memory} (hw : m.wf) (d : Nat) (base len : Region → Nat) (gs : List Region) :
    (gs.foldl (fun m g => m.fillFree d (base g) (len g)) m).wf := by
  induction gs generalizing m with
  | nil => exact hw
  | cons g gs ih => exact ih (Memory.fillFree_wf hw _ _ _)

theorem State.peerCommand_inv {s : State} (hs : Inv s) (k : Region) : Inv (s.peerCommand k) := by
  unfold State.peerCommand
  dsimp only
  split
  · exact hs
  · next g gs hmet =>
    obtain ⟨hw, hr, hst, -⟩ := hs
    have hg : g ∈ s.runningRegions := List.mem_of_mem_filter (hmet ▸ List.mem_cons_self)
    exact ⟨Memory.foldl_fillFree_wf hw _ _ _ _, hr, hst, fun _ => State.busy_of_mem_runningRegions hg⟩

theorem State.resetCore_inv {s : State} {m : Memory} (hr : 1 ≤ s.rMax) (hw : m.wf) : Inv (s.resetCore m) :=
  ⟨hw, hr, by simp [LegalStatus, State.resetStatus], nofun⟩

theorem HostNext.inv {s t : State} (h : HostNext s t) (hs : Inv s) : Inv t := by
  have ⟨hw, hr, _, _⟩ := hs
  cases h with
  | outside => exact hs
  | write offset v => exact State.writeOffset_inv hs offset v
  | read answer => exact hs
  | memWrite a v => exact State.memWrite_inv hs a v
  | memRead a => exact State.memRead_inv hs a
  | peer k => exact State.peerCommand_inv hs k
  | reset m hm => exact State.resetCore_inv hr (hm hw)

theorem TurnNext.inv {s t : State} (h : TurnNext s t) (hs : Inv s) : Inv t := by
  have ⟨hw, hr, _, _⟩ := hs
  cases h with
  | idle => exact hs
  | illegal => exact State.complete_inv hw hr (some .badCmd)
  | command i _ hc => exact hc.inv hs
  | host _ hh => exact hh.inv hs

/-- Settles O5: every turn keeps a state legal, and legality does not read the turns still to come. -/
theorem stepKeepsTheLegalStates : Obligations.StepKeepsTheLegalStates := by
  intro s t hs h
  obtain ⟨rest, ht⟩ := turnNext_of_step h
  exact ht.inv (s := { s with inputs := rest }) hs

/-! The registers a command writes -/

/-- Only the stream commands write RESULT_SIZE and INFO (R36, R37). -/
theorem writesResults_eq_false {i : Instr} (hl : ∀ inv count, i ≠ .linearize inv count) (hd : i ≠ .delinearize)
    (he : i ≠ .encode) (hc : i ≠ .decode) : writesResults i = false := by
  cases i with
  | linearize inv count => exact absurd rfl (hl inv count)
  | delinearize => exact absurd rfl hd
  | encode => exact absurd rfl he
  | decode => exact absurd rfl hc
  | _ => rfl

theorem CommandEnd.results {i : Instr} {s t : State} (h : CommandEnd i s t) (hi : writesResults i = false) :
    t.results = s.results := by
  cases h with
  | morton mo _ => rfl
  | unspecified => simp [hi]
  | error e => rfl
  | commit eff heff => simp [heff.results hi]

theorem CommandEnd.morton_allowed {i : Instr} {s t : State} (h : CommandEnd i s t) :
    Morton.Allowed i s.morton t.morton := by
  cases h with
  | morton mo hmo => exact hmo
  | unspecified | error | commit => exact ⟨fun _ => ⟨rfl, rfl⟩, fun _ _ _ _ _ => rfl⟩

/-- Settles O28, from the ends a command can come to. -/
theorem commandsChangeOnlyTheirRegisters : Obligations.CommandsChangeOnlyTheirRegisters := by
  intro i s t h
  have hend := commandEnd_of_exec h
  have hmorton := hend.morton_allowed
  have hresults (hl hd he hc) := hend.results (writesResults_eq_false hl hd he hc)
  obtain ⟨m, res, mo, d, e, rfl⟩ := hend.exists_complete
  exact ⟨rfl, rfl, rfl, Status.complete_lost _ _, rfl, rfl, hresults, hmorton.coordinates, hmorton.code⟩

/-! The parameters are constants (R41) -/

theorem CommandEnd.params {i : Instr} {s t : State} (h : CommandEnd i s t) : t.params = s.params := by
  obtain ⟨m, res, mo, d, e, rfl⟩ := h.exists_complete
  rfl

@[simp] theorem State.writeOffset_params (s : State) (offset : Nat) (v : Word) :
    (s.writeOffset offset v).params = s.params := by
  unfold State.writeOffset
  split
  · rfl
  · split
    · next n _ => cases n <;> rfl
    · rfl

@[simp] theorem State.memRead_params (s : State) (a : Word) : (s.memRead a).params = s.params := by
  unfold State.memRead
  split <;> rfl

@[simp] theorem State.peerCommand_params (s : State) (k : Region) : (s.peerCommand k).params = s.params := by
  unfold State.peerCommand
  dsimp only
  split <;> rfl

theorem HostNext.params {s t : State} (h : HostNext s t) : t.params = s.params := by
  cases h <;> simp

theorem TurnNext.params {s t : State} (h : TurnNext s t) : t.params = s.params := by
  cases h with
  | idle => rfl
  | illegal => rfl
  | command i _ hc => exact hc.params
  | host _ hh => exact hh.params

/-- Settles O7: every turn keeps the parameters. -/
theorem capsIsConstant : Obligations.CapsIsConstant := by
  refine ⟨fun s t h => ?_, fun s => rfl⟩
  obtain ⟨rest, ht⟩ := turnNext_of_step h
  exact ht.params

end Sys2Proof.Machine

/-!
PROOFS. The register block: the register map, host-bus accesses, and what STATUS, DEPTH and NODE_COUNT read.
-/

namespace Sys2Proof.Machine

/-! The register map (R21) -/

/-- The offset of each register in the window (the register map of 10_state.md section 2). -/
def RegName.offset : RegName → Nat
  | .cmd => 0x00
  | .status => 0x04
  | .width => 0x08
  | .height => 0x0C
  | .depth => 0x10
  | .nodeCount => 0x14
  | .rasterInBase => 0x18
  | .rasterOutBase => 0x1C
  | .treeBase => 0x20
  | .rdBase => 0x24
  | .streamOutBase => 0x28
  | .streamOutCap => 0x2C
  | .streamInBase => 0x30
  | .streamInLen => 0x34
  | .resultSize => 0x38
  | .info => 0x3C
  | .mortonX => 0x40
  | .mortonY => 0x44
  | .mortonCode => 0x48
  | .caps => 0x4C

theorem regAt_offset (n : RegName) : regAt n.offset = some n := by cases n <;> rfl

theorem offset_of_regAt {offset : Nat} {n : RegName} (h : regAt offset = some n) : offset = n.offset := by
  unfold regAt at h
  split at h <;> cases h <;> rfl

theorem regAt_eq_some_iff {offset : Nat} {n : RegName} : regAt offset = some n ↔ offset = n.offset :=
  ⟨offset_of_regAt, fun h => h ▸ regAt_offset n⟩

theorem RegName.offset_le (n : RegName) : n.offset ≤ 0x4C := by cases n <;> decide

/-- Past CAPS every offset is reserved. -/
theorem regAt_reserved {offset : Nat} (h : 0x50 ≤ offset) : regAt offset = none := by
  cases hr : regAt offset with
  | none => rfl
  | some n =>
    have := offset_of_regAt hr
    have := n.offset_le
    omega

theorem State.readOffset_reg {s : State} {offset : Nat} {n : RegName} (h : regAt offset = some n) :
    s.readOffset offset = s.readReg n := by
  simp [State.readOffset, h]

theorem State.readOffset_reserved {s : State} {offset : Nat} (h : regAt offset = none) :
    s.readOffset offset = 0#32 := by
  simp [State.readOffset, h]

/-! Host-bus accesses (R21) -/

/-- A whole aligned word of the window. -/
theorem State.access_word (s : State) {offset : Nat} (h : offset < 0x100) (h4 : offset % 4 = 0) :
    s.access (s.params.qtcBase + offset) 4 = .word offset := by
  have hin : s.params.qtcBase + offset < s.params.qtcBase + Config.windowSize ∧
      s.params.qtcBase < s.params.qtcBase + offset + 4 := by
    unfold Config.windowSize; omega
  have hoff : s.params.qtcBase + offset - s.params.qtcBase = offset := by omega
  unfold State.access
  rw [if_pos hin, hoff, if_pos ⟨rfl, by omega, h4⟩]

/-- Anything else that touches the window. -/
theorem State.access_unsupported (s : State) {addr size : Nat} (hend : addr < s.params.qtcBase + 0x100)
    (hstart : s.params.qtcBase < addr + size)
    (hbad : size ≠ 4 ∨ addr < s.params.qtcBase ∨ (addr - s.params.qtcBase) % 4 ≠ 0) :
    s.access addr size = .unsupported := by
  unfold State.access
  rw [if_pos ⟨hend, hstart⟩, if_neg (by omega)]

theorem step_wr_word {s : State} {offset : Nat} {v : Word} {rest : List Turn} (h : offset < 0x100)
    (h4 : offset % 4 = 0) (hin : s.inputs = .host (.wr (s.params.qtcBase + offset) 4 v) :: rest) :
    step s = .next ({ s with inputs := rest }.writeOffset offset v) := by
  have hacc : State.access { s with inputs := rest } (s.params.qtcBase + offset) 4 = .word offset :=
    State.access_word { s with inputs := rest } h h4
  rw [step_host hin]
  simp [hostStep, hacc]

theorem step_rd_word {s : State} {offset : Nat} {rest : List Turn} (h : offset < 0x100)
    (h4 : offset % 4 = 0) (hin : s.inputs = .host (.rd (s.params.qtcBase + offset) 4) :: rest) :
    step s = .next { s with inputs := rest, reply := .register (s.readOffset offset) } := by
  have hacc : State.access { s with inputs := rest } (s.params.qtcBase + offset) 4 = .word offset :=
    State.access_word { s with inputs := rest } h h4
  rw [step_host hin]
  simp only [hostStep, hacc]
  rfl

theorem State.writeOffset_busy {s : State} (h : s.phase = .busy) (offset : Nat) (v : Word) :
    s.writeOffset offset v = { s with status := { s.status with lost := true } } := by
  simp [State.writeOffset, h]

/-- Settles O13: while BUSY `writeOffset` does not look at the offset. -/
theorem writesWhileBusyAreLost : Obligations.WritesWhileBusyAreLost := by
  intro s offset v rest h h4 hin hp
  rw [step_wr_word h h4 hin]
  exact congrArg _ (State.writeOffset_busy (s := { s with inputs := rest }) hp offset v)

/-- Settles O14: the register map is read off `regAt`. -/
theorem readsHaveNoSideEffects : Obligations.ReadsHaveNoSideEffects := by
  intro s offset rest h h4 hin
  refine ⟨step_rd_word h h4 hin, ?_, rfl, rfl, rfl, rfl, rfl, rfl, rfl, rfl, rfl, rfl, rfl, rfl, rfl, rfl, rfl, rfl,
    rfl, rfl, ?_⟩
  · rintro (rfl | hr)
    · rfl
    · exact State.readOffset_reserved (regAt_reserved hr)
  · exact BitVec.toNat_setWidth_of_le (by decide)

/-- Settles O16: write and read are refused alike, by where the access lands. -/
theorem otherAccessSizesAreRefused : Obligations.OtherAccessSizesAreRefused := by
  intro s addr size v rest hend hstart hbad
  have hacc : State.access { s with inputs := rest } addr size = .unsupported :=
    State.access_unsupported { s with inputs := rest } hend hstart hbad
  constructor <;> intro hin <;> simp [step_host hin, hostStep, hacc]

/-! Writes while IDLE (R21) -/

/-- A register other than DEPTH and NODE_COUNT reads a field of its own, which a write to another register leaves. -/
theorem State.readReg_writeReg_other (s : State) (v : Word) {n m : RegName} (hn : n ≠ .cmd) (hd : m ≠ .depth)
    (hc : m ≠ .nodeCount) (hm : m ≠ n) : (s.writeReg v n).readReg m = s.readReg m := by
  cases n <;> cases m <;> try contradiction
  all_goals rfl

/-- Only CMD starts a command. -/
theorem State.writeReg_frame (s : State) (v : Word) {n : RegName} (hn : n ≠ .cmd) :
    (s.writeReg v n).mem = s.mem ∧ (s.writeReg v n).phase = s.phase ∧ (s.writeReg v n).latched = s.latched ∧
      (s.writeReg v n).inputs = s.inputs := by
  cases n with
  | cmd => exact absurd rfl hn
  | _ => exact ⟨rfl, rfl, rfl, rfl⟩

/-- CMD, a read-only register, or one of the RW registers of the map. -/
theorem State.writeReg_cases (s : State) (v : Word) (n : RegName) :
    n = .cmd ∨ s.writeReg v n = s ∨
      n.offset ∈ [0x08, 0x0C, 0x18, 0x1C, 0x20, 0x24, 0x28, 0x2C, 0x30, 0x34, 0x40, 0x44, 0x48] := by
  cases n <;> simp [State.writeReg, RegName.offset]

theorem State.writeOffset_reserved {s : State} (hp : s.phase = .idle) {offset : Nat} (h : regAt offset = none)
    (v : Word) : s.writeOffset offset v = s := by
  simp [State.writeOffset, hp, h]

theorem State.writeOffset_reg {s : State} (hp : s.phase = .idle) (v : Word) {offset : Nat} (n : RegName)
    (h : offset = n.offset) : s.writeOffset offset v = s.writeReg v n := by
  simp [State.writeOffset, hp, h, regAt_offset]

/-- Either nothing happens, at a reserved offset, or the register of the offset is written, which is not CMD. -/
theorem State.writeOffset_cases {s : State} (hp : s.phase = .idle) {offset : Nat} (h0 : 0 < offset) (v : Word) :
    s.writeOffset offset v = s ∨
      ∃ n, n ≠ .cmd ∧ offset = n.offset ∧ s.writeOffset offset v = s.writeReg v n := by
  cases hr : regAt offset with
  | none => exact .inl (State.writeOffset_reserved hp hr v)
  | some n =>
    have ho := offset_of_regAt hr
    refine .inr ⟨n, ?_, ho, State.writeOffset_reg hp v n ho⟩
    rintro rfl
    exact absurd ho h0.ne'

theorem State.writeOffset_frame {s : State} (hp : s.phase = .idle) {offset : Nat} (h0 : 0 < offset) (v : Word) :
    (s.writeOffset offset v).mem = s.mem ∧ (s.writeOffset offset v).phase = s.phase ∧
      (s.writeOffset offset v).latched = s.latched ∧ (s.writeOffset offset v).inputs = s.inputs := by
  rcases State.writeOffset_cases hp h0 v with h | ⟨n, hn, -, h⟩ <;> rw [h]
  · exact ⟨rfl, rfl, rfl, rfl⟩
  · exact s.writeReg_frame v hn

/-- A write to a read-only register or to a reserved offset is ignored. -/
theorem State.writeOffset_ignored {s : State} (hp : s.phase = .idle) {offset : Nat} (h0 : 0 < offset) (v : Word)
    (hro : offset ∉ [0x08, 0x0C, 0x18, 0x1C, 0x20, 0x24, 0x28, 0x2C, 0x30, 0x34, 0x40, 0x44, 0x48]) :
    s.writeOffset offset v = s := by
  rcases State.writeOffset_cases hp h0 v with h | ⟨n, hn, rfl, h⟩
  · exact h
  · rcases s.writeReg_cases v n with hc | hs | hrw
    · exact absurd hc hn
    · exact h.trans hs
    · exact absurd hrw hro

theorem State.readOffset_writeOffset_same {s : State} (hp : s.phase = .idle) (v : Word) {offset : Nat} (n : RegName)
    (h : offset = n.offset) : (s.writeOffset offset v).readOffset offset = (s.writeReg v n).readReg n := by
  rw [State.writeOffset_reg hp v n h, State.readOffset_reg (regAt_eq_some_iff.mpr h)]

/-- Only the register written reads differently, with DEPTH (0x10) and NODE_COUNT (0x14), which derive from it. -/
theorem State.readOffset_writeOffset_other {s : State} (hp : s.phase = .idle) {offset : Nat} (h0 : 0 < offset)
    (v : Word) {k : Nat} (hk : k ≠ offset) (hd : k ≠ 0x10) (hc : k ≠ 0x14) :
    (s.writeOffset offset v).readOffset k = s.readOffset k := by
  rcases State.writeOffset_cases hp h0 v with h | ⟨n, hn, ho, h⟩ <;> rw [h]
  cases hm : regAt k with
  | none => rw [State.readOffset_reserved hm, State.readOffset_reserved hm]
  | some m =>
    have hko := offset_of_regAt hm
    rw [State.readOffset_reg hm, State.readOffset_reg hm]
    refine s.readReg_writeReg_other v hn ?_ ?_ ?_ <;> rintro rfl
    · exact hd hko
    · exact hc hko
    · exact hk (hko.trans ho.symm)

/-- The low 16 bits of a word, as a 16-bit register reads (R24, R25, R38, R39). -/
theorem toNat_setWidth_half (v : Word) : ((v.setWidth 16).setWidth 32).toNat = v.toNat % 2 ^ 16 := by
  rw [BitVec.toNat_setWidth_of_le (by decide), BitVec.toNat_setWidth]

/-- Settles O15: an offset other than CMD's is that of one register or reserved. -/
theorem writesReachOneRegister : Obligations.WritesReachOneRegister := by
  intro s offset v rest h0 h h4 hin hp
  have hp0 : State.phase { s with inputs := rest } = .idle := hp
  have reg := State.writeOffset_reg hp0 v (offset := offset)
  have same := State.readOffset_writeOffset_same hp0 v (offset := offset)
  have low (n : RegName) (hn : (State.writeReg { s with inputs := rest } v n).readReg n = (v.setWidth 16).setWidth 32)
      (ho : offset = n.offset) := (congrArg BitVec.toNat ((same n ho).trans hn)).trans (toNat_setWidth_half v)
  obtain ⟨hmem, hphase, hlatched, hinputs⟩ := State.writeOffset_frame hp0 h0 v
  refine ⟨_, step_wr_word h h4 hin, hmem, hphase.trans hp, hlatched, hinputs, ?_, ?_,
    State.writeOffset_ignored hp0 h0 v, reg .width, reg .height, reg .rasterInBase, reg .rasterOutBase, reg .treeBase,
    reg .rdBase, reg .streamOutBase, reg .streamOutCap, reg .streamInBase, reg .streamInLen, reg .mortonX, reg .mortonY,
    reg .mortonCode, fun k => State.readOffset_writeOffset_other hp0 h0 v⟩
  · simp only [List.mem_cons, List.not_mem_nil, or_false]
    rintro (ho | ho | ho | ho | ho | ho | ho | ho | ho)
    exacts [same .rasterInBase ho, same .rasterOutBase ho, same .treeBase ho, same .rdBase ho, same .streamOutBase ho,
      same .streamOutCap ho, same .streamInBase ho, same .streamInLen ho, same .mortonCode ho]
  · simp only [List.mem_cons, List.not_mem_nil, or_false]
    rintro (ho | ho | ho | ho)
    exacts [low .width rfl ho, low .height rfl ho, low .mortonX rfl ho, low .mortonY rfl ho]

/-! STATUS, DEPTH and NODE_COUNT -/

/-- STATUS bit by bit (R23). -/
theorem State.getLsbD_statusWord (s : State) (k : Nat) :
    s.statusWord.getLsbD k =
      if k = 0 then s.phase == .busy else if k = 1 then s.status.done else if k = 2 then s.status.err
      else if k = 3 then false else if k < 8 then s.status.errcode.getLsbD (k - 4) else k == 8 && s.status.lost := by
  have hbits := BitVec.getLsbD_append (i := k) (x := 0#23 ++ BitVec.ofBool s.status.lost ++ s.status.errcode ++ 0#1 ++
    BitVec.ofBool s.status.err ++ BitVec.ofBool s.status.done) (y := BitVec.ofBool (s.phase == .busy))
  refine Eq.trans hbits ?_
  simp only [BitVec.getLsbD_append, BitVec.getLsbD_ofBool, BitVec.getLsbD_zero, Nat.sub_sub]
  match k with
  | 0 => simp
  | 1 => simp
  | 2 => simp
  | 3 => simp
  | j + 4 =>
    by_cases hj : j < 4
    · simp [hj]
    · have h8 : ¬j + 4 < 8 := by omega
      have hlost : j - 4 = 0 ↔ j = 4 := by omega
      simp [hj, h8, hlost, Bool.beq_eq_decide_eq]

/-- Settles O17, from the bits of the STATUS word. -/
theorem statusWordLayout : Obligations.StatusWordLayout := by
  intro s
  have bit (k : Nat) : (s.readReg .status).getLsbD k = _ := s.getLsbD_statusWord k
  refine ⟨?_, bit 1, bit 2, bit 3, ?_, bit 8, ?_⟩
  · simp only [bit, if_pos, beq_iff_eq]
  · apply BitVec.eq_of_getLsbD_eq
    intro k hk
    rw [BitVec.getLsbD_extractLsb', bit, if_neg (by omega), if_neg (by omega), if_neg (by omega), if_neg (by omega),
      if_pos (by omega), Nat.add_sub_cancel_left, decide_eq_true hk, Bool.true_and]
  · intro k hk
    have h8 : (k == 8) = false := by simp; omega
    rw [bit, if_neg (by omega), if_neg (by omega), if_neg (by omega), if_neg (by omega), if_neg (by omega), h8,
      Bool.false_and]

/-- The search for the depth finds the least exponent from `r` on that covers `n`, if it looks far enough. -/
theorem depthFrom_eq {fuel r n d : Nat} (hrd : r ≤ d) (hd : d ≤ r + fuel) (hn : n ≤ 2 ^ d)
    (hleast : ∀ k, r ≤ k → k < d → 2 ^ k < n) : depthFrom fuel r n = d := by
  induction fuel generalizing r with
  | zero => exact le_antisymm hrd hd
  | succ fuel ih =>
    unfold depthFrom
    split
    · next hr =>
      by_contra hne
      exact absurd (hleast r le_rfl (by omega)) (by omega)
    · next hr =>
      have hne : r ≠ d := by rintro rfl; exact hr hn
      exact ih (by omega) (by omega) fun k hk => hleast k (by omega)

/-- depth is the least r ≥ 1 with 2^r ≥ max(w, h) (R10); a dimension of 16 bits keeps it within the search. -/
theorem depth_eq {w h : Half} {r : Nat} (hr : 1 ≤ r) (hcover : max w.toNat h.toNat ≤ 2 ^ r)
    (hleast : ∀ k, 1 ≤ k → k < r → 2 ^ k < max w.toNat h.toNat) : depth w h = r := by
  refine depthFrom_eq hr ?_ hcover hleast
  by_contra hlong
  have h16 := hleast 16 (by omega) (by omega)
  have hw := w.isLt
  have hh := h.isLt
  omega

theorem State.rMax_le (s : State) : s.rMax ≤ 15 := Nat.le_of_lt_succ s.params.rMax.isLt

/-- N(r) fits its register for every depth a core accepts. -/
theorem nodeCount_lt {r : Nat} (hr : r ≤ 15) : nodeCount r < 2 ^ 32 := by
  have := levelBase_mono hr
  have h15 : levelBase 15 < 2 ^ 32 := by decide
  exact lt_of_le_of_lt this h15

theorem State.readReg_depth_zero {s : State} (h : s.depthReg = 0) :
    s.readReg .depth = 0#32 ∧ s.readReg .nodeCount = 0#32 := by
  simp [State.readReg, State.nodeCountReg, h]

theorem State.readReg_depth_pos {s : State} {r : Nat} (h : s.depthReg = r) (hr : 1 ≤ r) (hmax : r ≤ s.rMax) :
    (s.readReg .depth).toNat = r ∧ (s.readReg .nodeCount).toNat = nodeCount r := by
  have hr15 := hmax.trans s.rMax_le
  have hN := nodeCount_lt hr15
  have hne : r ≠ 0 := by omega
  constructor
  · simp only [State.readReg, h, BitVec.toNat_ofNat]; omega
  · simp only [State.readReg, State.nodeCountReg, h, if_neg hne, BitVec.toNat_ofNat, Nat.mod_eq_of_lt hN]

/-- Settles O18: the model's depth is the least that covers, and both registers follow DEPTH. -/
theorem depthIsTheLeastThatCovers : Obligations.DepthIsTheLeastThatCovers := by
  intro s
  refine ⟨fun h0 => State.readReg_depth_zero (if_pos h0), ?_⟩
  intro r hw hh hr hcover hleast
  have hd := depth_eq hr hcover hleast
  constructor
  · intro hmax
    exact State.readReg_depth_pos (by simp [State.depthReg, hw, hh, hd, hmax]) hr hmax
  · intro hmax
    exact State.readReg_depth_zero (by simp [State.depthReg, hw, hh, hd, hmax])

end Sys2Proof.Machine

/-!
PROOFS. What a command reads and writes of MEM: every operation reads the bytes of its regions alone and writes inside
its W regions (spec/20_memory.md R70, R73).
-/

namespace Sys2Proof.Machine

open Sys2Proof.Safety

/-! Two memories that agree on the regions of a command -/

/-- Two memories hold the same bytes in [base, base + len). -/
def Memory.SameBytes (m n : Memory) (base len : Nat) : Prop :=
  ∀ a, base ≤ a → a < base + len → n.read a = m.read a

theorem Memory.SameBytes.read_add {m n : Memory} {base len k : Nat} (h : Memory.SameBytes m n base len) (hk : k < len) :
    n.read (base + k) = m.read (base + k) :=
  h _ (Nat.le_add_right _ _) (Nat.add_lt_add_left hk _)

/-- Two memories in canonical form hold the same bytes in every one of the regions `gs`. -/
structure Memory.AgreeOn (gs : List Region) (m n : Memory) : Prop where
  left_wf : m.wf
  right_wf : n.wf
  sameBytes : ∀ g ∈ gs, Memory.SameBytes m n g.base g.len

/-- A byte read after a write depends on MEM only through that byte. -/
theorem Memory.read_write_congr {m n : Memory} (hm : m.wf) (hn : n.wf) (a : Nat) (v : Byte) {x : Nat}
    (h : n.read x = m.read x) : (n.write a v).read x = (m.write a v).read x := by
  by_cases ha : a < Config.memSize
  · rw [Memory.read_write n hn a v ha, Memory.read_write m hm a v ha, h]
  · simpa only [Memory.write, if_neg ha] using h

theorem Memory.read_writeBytes_congr {m n : Memory} (hm : m.wf) (hn : n.wf) (a : Nat) (bs : List Byte) {x : Nat}
    (h : n.read x = m.read x) : (n.writeBytes a bs).read x = (m.writeBytes a bs).read x := by
  induction bs generalizing m n a with
  | nil => exact h
  | cons b bs ih =>
    exact ih (Memory.write_wf hm a b) (Memory.write_wf hn a b) (a + 1) (Memory.read_write_congr hm hn a b h)

/-- NibWrite keeps the other nibble of its byte (R8), so what it writes depends on the byte there and on no other. -/
theorem Memory.read_nibWrite_congr {m n : Memory} (hm : m.wf) (hn : n.wf) (b i : Nat) (v : Nibble) {x : Nat}
    (h : n.read x = m.read x) : (n.nibWrite b i v).read x = (m.nibWrite b i v).read x := by
  unfold Memory.nibWrite
  by_cases hx : x = b + i / 2
  · subst hx
    rw [h]
    exact Memory.read_write_congr hm hn _ _ h
  · rw [Memory.read_write_ne n hn _ _ x hx, Memory.read_write_ne m hm _ _ x hx, h]

theorem Memory.read_nibWrites_congr {m n : Memory} (hm : m.wf) (hn : n.wf) (b i : Nat) (cs : List Nibble) {x : Nat}
    (h : n.read x = m.read x) : (n.nibWrites b i cs).read x = (m.nibWrites b i cs).read x := by
  induction cs generalizing m n i with
  | nil => exact h
  | cons c cs ih =>
    exact ih (Memory.nibWrite_wf hm b i c) (Memory.nibWrite_wf hn b i c) (i + 1)
      (Memory.read_nibWrite_congr hm hn b i c h)

theorem Memory.AgreeOn.writeBytes {gs : List Region} {m n : Memory} (h : Memory.AgreeOn gs m n) (a : Nat)
    (bs : List Byte) : Memory.AgreeOn gs (m.writeBytes a bs) (n.writeBytes a bs) where
  left_wf := Memory.writeBytes_wf h.left_wf a bs
  right_wf := Memory.writeBytes_wf h.right_wf a bs
  sameBytes g hg x hlo hhi := Memory.read_writeBytes_congr h.left_wf h.right_wf a bs (h.sameBytes g hg x hlo hhi)

theorem Memory.AgreeOn.writeTree {gs : List Region} {m n : Memory} (h : Memory.AgreeOn gs m n) (b : Nat)
    (t : List Nibble) : Memory.AgreeOn gs (writeTree m b t) (writeTree n b t) where
  left_wf := writeTree_wf h.left_wf b t
  right_wf := writeTree_wf h.right_wf b t
  sameBytes g hg x hlo hhi := Memory.read_nibWrites_congr h.left_wf h.right_wf b 0 _ (h.sameBytes g hg x hlo hhi)

section
variable {gs : List Region} {m n : Memory} {rg : Regs} {r : Nat} {write : Bool}

theorem Memory.AgreeOn.tree (h : Memory.AgreeOn gs m n) (hg : treeRegion rg r write ∈ gs) :
    Memory.SameBytes m n rg.treeBase.toNat (treeBytes r) :=
  h.sameBytes _ hg

theorem Memory.AgreeOn.rd (h : Memory.AgreeOn gs m n) (hg : rdRegion rg r write ∈ gs) :
    Memory.SameBytes m n rg.rdBase.toNat (nodeCount r) :=
  h.sameBytes _ hg

theorem Memory.AgreeOn.raster {base : Word} (h : Memory.AgreeOn gs m n) (hg : rasterRegion rg base write ∈ gs) :
    Memory.SameBytes m n base.toNat (rg.height.toNat * rowBytes rg.width.toNat) :=
  h.sameBytes _ hg

theorem Memory.AgreeOn.streamIn (h : Memory.AgreeOn gs m n) (hg : streamInRegion rg ∈ gs) :
    Memory.SameBytes m n rg.streamInBase.toNat rg.streamInLen.toNat :=
  h.sameBytes _ hg

end

/-! What the operations read (R61, R63, R68, R69) -/

section
variable {m n : Memory} {b : Nat}

/-- Two codes a byte: the codes of a tree lie in TB_BYTES(r) bytes. -/
theorem readTree_congr {r : Nat} (h : Memory.SameBytes m n b (treeBytes r)) : readTree n b r = readTree m b r := by
  refine List.map_congr_left fun i hi => ?_
  have hi := List.mem_range.mp hi
  have hbyte : i / 2 < treeBytes r := by unfold treeBytes; omega
  unfold Memory.nibRead
  rw [h.read_add hbyte]

theorem readRd_congr {r : Nat} (h : Memory.SameBytes m n b (nodeCount r)) : readRd n b r = readRd m b r :=
  List.map_congr_left fun _ hi => h.read_add (List.mem_range.mp hi)

/-- The byte of an in-bounds pixel lies in its raster. -/
theorem pixel_offset_lt {w h x y : Nat} (hx : x < w) (hy : y < h) : y * rowBytes w + x / 8 < h * rowBytes w := by
  have hbyte : x / 8 < rowBytes w := by unfold rowBytes; omega
  calc y * rowBytes w + x / 8 < (y + 1) * rowBytes w := by rw [Nat.add_mul]; omega
    _ ≤ h * rowBytes w := Nat.mul_le_mul_right _ hy

/-- Padding is not read (R141). -/
theorem epix_congr {w h : Nat} (hb : Memory.SameBytes m n b (h * rowBytes w)) (inv : Bool) :
    epix n b w h inv = epix m b w h inv := by
  funext x y
  unfold epix
  split
  · rfl
  · next hin =>
    have hlt : y * rowBytes w + x / 8 < h * rowBytes w := pixel_offset_lt (by omega) (by omega)
    simp only [pixel, Nat.add_assoc, hb.read_add hlt]

/-- next() checks the length before it reads (R172), so it stays in SIN. -/
theorem nextNibble_congr {len : Nat} (h : Memory.SameBytes m n b len) : nextNibble n b len = nextNibble m b len := by
  funext k
  unfold nextNibble
  split
  · rfl
  · rw [h.read_add (by omega)]

theorem delinearize_congr {len : Nat} (h : Memory.SameBytes m n b len) (r : Nat) :
    delinearize n b len r = delinearize m b len r := by
  unfold delinearize
  split
  · rfl
  · next hlen => rw [h b le_rfl (by omega), nextNibble_congr h]

end

section
variable {s : State} {m : Memory} {r : Nat}

theorem rasterTree_congr
    (h : Memory.SameBytes s.mem m s.regs.rasterInBase.toNat (s.regs.height.toNat * rowBytes s.regs.width.toNat))
    (inv : Bool) : rasterTree { s with mem := m } inv r = rasterTree s inv r :=
  congrArg (buildTree · r) (epix_congr h inv)

theorem polarityTrial_congr
    (h : Memory.SameBytes s.mem m s.regs.rasterInBase.toNat (s.regs.height.toNat * rowBytes s.regs.width.toNat)) :
    polarityTrial { s with mem := m } r = polarityTrial s r := by
  simp only [polarityTrial, candidate, rasterTree_congr h]

theorem linearizeBuffers_congr (ht : Memory.SameBytes s.mem m s.regs.treeBase.toNat (treeBytes r))
    (hd : Memory.SameBytes s.mem m s.regs.rdBase.toNat (nodeCount r)) (inv : Bool) :
    linearizeBuffers { s with mem := m } r inv = linearizeBuffers s r inv := by
  unfold linearizeBuffers
  rw [readTree_congr ht, readRd_congr hd]

theorem delinearizeBuffer_congr (h : Memory.SameBytes s.mem m s.regs.streamInBase.toNat s.regs.streamInLen.toNat) :
    delinearizeBuffer { s with mem := m } r = delinearizeBuffer s r :=
  delinearize_congr h r

end

/-! What the operations write (R63, R70) -/

/-- The codes of a tree and the pad nibble fill TB_BYTES(r) bytes, N(r) being odd. -/
theorem read_writeTree_outside {m : Memory} (hw : m.wf) {b r a : Nat} {t : List Nibble} (ht : t.length = nodeCount r)
    (hr : 1 ≤ r) (ha : ¬(b ≤ a ∧ a < b + treeBytes r)) : (writeTree m b t).read a = m.read a := by
  have hodd := nodeCount_odd hr
  refine Memory.read_nibWrites_outside hw _ _ _ _ ?_
  simp only [List.length_append, ht, List.length_cons, List.length_nil]
  unfold treeBytes at ha
  omega

theorem read_writeRaster_outside {s : State} {m : Memory} (hw : m.wf) (t : List Nibble) (r : Nat) (inv : Bool) {a : Nat}
    (ha : ¬(s.regs.rasterOutBase.toNat ≤ a ∧
      a < s.regs.rasterOutBase.toNat + s.regs.height.toNat * rowBytes s.regs.width.toNat)) :
    (writeRaster s m t r inv).read a = m.read a :=
  Memory.read_writeBytes_outside hw _ _ _ (by rwa [length_rasterBytes])

/-- The candidate ENCODE keeps is one of the two of R201. -/
theorem candidate_of_polarityTrial {s : State} {r : Nat} {c : Candidate} (h : polarityTrial s r = .ok c) :
    ∃ p, candidate s p r = .ok c := by
  unfold polarityTrial at h
  split at h
  · cases h
  · cases h
  · next c0 c1 h0 h1 =>
    cases h
    split
    · exact ⟨true, h1⟩
    · exact ⟨false, h0⟩

theorem length_of_candidate {s : State} {p : Bool} {r : Nat} {c : Candidate} (h : candidate s p r = .ok c) :
    c.tree.length = nodeCount r ∧ c.rd.length = nodeCount r := by
  unfold candidate at h
  dsimp only at h
  split at h <;> cases h
  exact ⟨length_buildTree _ r, length_descriptors _ r⟩

/-! The operation of a tree command -/

/-- The result of an operation on two memories: the same error, or the same result registers and the same bytes in the
regions `gs`. -/
inductive SameOutput (gs : List Region) : Except CmdError Effect → Except CmdError Effect → Prop where
  | error (e : CmdError) : SameOutput gs (.error e) (.error e)
  | ok {m n : Memory} (results : Option Results) (mem : Memory.AgreeOn gs m n) :
      SameOutput gs (.ok { mem := m, results := results }) (.ok { mem := n, results := results })

/-- `op` is the operation of the tree command `i`, and it keeps to the regions of R70: it changes no byte outside its W
regions, and its results and the bytes it leaves in its regions depend on the bytes of those alone. -/
structure KeepsToRegions (i : Instr) (op : State → Nat → Except CmdError Effect) : Prop where
  exec_eq : ∀ s, exec i s = runTree i s (op s)
  frame : ∀ {s : State} {r : Nat} {eff : Effect} {a : Nat}, s.mem.wf → 1 ≤ r → op s r = .ok eff →
    (∀ g ∈ regions s.regs r i, g.write = true → ¬(g.base ≤ a ∧ a < g.base + g.len)) → eff.mem.read a = s.mem.read a
  congr : ∀ {s : State} {m : Memory} {r : Nat}, Memory.AgreeOn (regions s.regs r i) s.mem m →
    SameOutput (regions s.regs r i) (op s r) (op { s with mem := m } r)

theorem build_keepsToRegions (inv : Bool) : ∃ op, KeepsToRegions (.build inv) op := by
  refine ⟨fun s r => .ok { mem := writeTree s.mem s.regs.treeBase.toNat (rasterTree s inv r), results := none },
    { exec_eq := fun s => rfl, frame := ?_, congr := ?_ }⟩
  · rintro s r eff a hw hr ⟨⟩ ha
    exact read_writeTree_outside hw (length_buildTree _ r) hr (ha (treeRegion s.regs r true) (by simp [regions]) rfl)
  · intro s m r h
    rw [rasterTree_congr (h.raster (write := false) (by simp [regions]))]
    exact .ok none (h.writeTree _ _)

theorem compress_keepsToRegions : ∃ op, KeepsToRegions .compress op := by
  refine ⟨fun s r => .ok
      { mem := s.mem.writeBytes s.regs.rdBase.toNat (descriptors (readTree s.mem s.regs.treeBase.toNat r) r),
        results := none },
    { exec_eq := fun s => rfl, frame := ?_, congr := ?_ }⟩
  · rintro s r eff a hw hr ⟨⟩ ha
    refine Memory.read_writeBytes_outside hw _ _ _ ?_
    rw [length_descriptors]
    exact ha (rdRegion s.regs r true) (by simp [regions]) rfl
  · intro s m r h
    dsimp only
    rw [readTree_congr (h.tree (write := false) (by simp [regions]))]
    exact .ok none (h.writeBytes _ _)

theorem linearize_keepsToRegions (inv count : Bool) : ∃ op, KeepsToRegions (.linearize inv count) op := by
  refine ⟨_, { exec_eq := fun s => rfl, frame := ?_, congr := ?_ }⟩
  · intro s r eff a hw hr h ha
    split at h
    · cases h
    split at h
    · cases h; rfl
    split at h
    · cases h
    · next hcount hcap =>
      cases h
      simp only [Bool.not_eq_true] at hcount
      subst hcount
      have hout := ha (streamOutRegion s.regs) (by simp [regions]) rfl
      refine Memory.read_writeBytes_outside hw _ _ _ ?_
      simp only [streamOutRegion] at hout
      omega
  · intro s m r h
    have hread : linearizeBuffers { s with mem := m } r inv = linearizeBuffers s r inv := by
      refine linearizeBuffers_congr (h.tree (write := false) ?_)
        (h.rd (write := false) ?_) inv <;> cases count <;> simp [regions]
    rw [hread]
    cases linearizeBuffers s r inv with
    | error e => exact .error e
    | ok stream =>
      dsimp only
      split
      · exact .ok _ h
      split
      · exact .error _
      · exact .ok _ (h.writeBytes _ _)

theorem delinearize_keepsToRegions : ∃ op, KeepsToRegions .delinearize op := by
  refine ⟨_, { exec_eq := fun s => rfl, frame := ?_, congr := ?_ }⟩
  · intro s r eff a hw hr h ha
    split at h
    · cases h
    · next hd =>
      cases h
      exact read_writeTree_outside hw (length_delinearize hd) hr (ha (treeRegion s.regs r true) (by simp [regions]) rfl)
  · intro s m r h
    rw [delinearizeBuffer_congr (h.streamIn (by simp [regions]))]
    cases delinearizeBuffer s r with
    | error e => exact .error e
    | ok d => exact .ok _ (h.writeTree _ _)

theorem reconstruct_keepsToRegions (inv : Bool) : ∃ op, KeepsToRegions (.reconstruct inv) op := by
  refine ⟨fun s r => .ok { mem := writeRaster s s.mem (readTree s.mem s.regs.treeBase.toNat r) r inv, results := none },
    { exec_eq := fun s => rfl, frame := ?_, congr := ?_ }⟩
  · rintro s r eff a hw hr ⟨⟩ ha
    exact read_writeRaster_outside hw _ r inv
      (ha (rasterRegion s.regs s.regs.rasterOutBase true) (by simp [regions]) rfl)
  · intro s m r h
    dsimp only
    rw [readTree_congr (h.tree (write := false) (by simp [regions]))]
    exact .ok none (h.writeBytes _ _)

theorem encode_keepsToRegions : ∃ op, KeepsToRegions .encode op := by
  refine ⟨_, { exec_eq := fun s => rfl, frame := ?_, congr := ?_ }⟩
  · intro s r eff a hw hr h ha
    split at h
    · cases h
    split at h
    · cases h
    · next c hc hcap =>
      cases h
      obtain ⟨p, hp⟩ := candidate_of_polarityTrial hc
      obtain ⟨htree, hrd⟩ := length_of_candidate hp
      have hwt := writeTree_wf hw s.regs.treeBase.toNat c.tree
      have hwr := Memory.writeBytes_wf hwt s.regs.rdBase.toNat c.rd
      have hout := ha (streamOutRegion s.regs) (by simp [regions]) rfl
      simp only [streamOutRegion] at hout
      calc _ = _ := Memory.read_writeBytes_outside hwr _ _ _ (by omega)
        _ = _ := Memory.read_writeBytes_outside hwt _ _ _
          (by rw [hrd]; exact ha (rdRegion s.regs r true) (by simp [regions]) rfl)
        _ = _ := read_writeTree_outside hw htree hr (ha (treeRegion s.regs r true) (by simp [regions]) rfl)
  · intro s m r h
    rw [polarityTrial_congr (h.raster (write := false) (by simp [regions]))]
    cases polarityTrial s r with
    | error e => exact .error e
    | ok c =>
      dsimp only
      split
      · exact .error _
      · exact .ok _ (((h.writeTree _ _).writeBytes _ _).writeBytes _ _)

theorem decode_keepsToRegions : ∃ op, KeepsToRegions .decode op := by
  refine ⟨_, { exec_eq := fun s => rfl, frame := ?_, congr := ?_ }⟩
  · intro s r eff a hw hr h ha
    split at h
    · cases h
    · next d hd =>
      cases h
      calc _ = _ := read_writeRaster_outside (writeTree_wf hw _ _) d.tree r _
            (ha (rasterRegion s.regs s.regs.rasterOutBase true) (by simp [regions]) rfl)
        _ = _ := read_writeTree_outside hw (length_delinearize hd) hr
          (ha (treeRegion s.regs r true) (by simp [regions]) rfl)
  · intro s m r h
    rw [delinearizeBuffer_congr (h.streamIn (by simp [regions]))]
    cases delinearizeBuffer s r with
    | error e => exact .error e
    | ok d => exact .ok _ ((h.writeTree _ _).writeBytes _ _)

theorem exists_keepsToRegions {i : Instr} (hi : isTreeCommand i = true) : ∃ op, KeepsToRegions i op := by
  cases i with
  | build inv => exact build_keepsToRegions inv
  | compress => exact compress_keepsToRegions
  | linearize inv count => exact linearize_keepsToRegions inv count
  | delinearize => exact delinearize_keepsToRegions
  | reconstruct inv => exact reconstruct_keepsToRegions inv
  | encode => exact encode_keepsToRegions
  | decode => exact decode_keepsToRegions
  | nop | mortonEnc | mortonDec | mortonIncx | mortonIncy | mortonRstx | mortonRsty => cases hi

/-! Every command -/

theorem depthFrom_ge (fuel r n : Nat) : r ≤ depthFrom fuel r n := by
  induction fuel generalizing r with
  | zero => exact le_rfl
  | succ fuel ih =>
    unfold depthFrom
    split
    · exact le_rfl
    · exact (Nat.le_succ r).trans (ih (r + 1))

theorem State.one_le_of_checks_ok {s : State} {i : Instr} {r : Nat} (h : s.checks i = .ok r) : 1 ≤ r := by
  obtain ⟨rfl, -⟩ := State.checks_ok h
  exact depthFrom_ge _ _ _

theorem State.read_completeUnspecified_outside {s : State} (hw : s.mem.wf) (i : Instr) {a : Nat}
    (ha : ∀ g ∈ regions s.regs s.depthReg i, g.write = true → ¬(g.base ≤ a ∧ a < g.base + g.len)) :
    (s.completeUnspecified i).mem.read a = s.mem.read a :=
  Memory.read_fillWrites_outside hw _ _ _ fun g hg hwr => by simpa [Region.has] using ha g hg hwr

/-- Settles O26: an error discards every write, and each of the other ends of a command writes inside the W regions. -/
theorem onlyWriteRegionsChange : Obligations.OnlyWriteRegionsChange := by
  intro i s t a ⟨hw, _, _, _⟩ h ha
  cases hi : isTreeCommand i with
  | false =>
    obtain ⟨mo, he, -⟩ := exec_not_tree hi s
    cases he.symm.trans h
    rfl
  | true =>
    obtain ⟨op, hop⟩ := exists_keepsToRegions hi
    rw [hop.exec_eq] at h
    rcases runTree_cases i s (op s) with ⟨hint, hr⟩ | ⟨e, -, -, hr⟩ | ⟨r, e, -, -, -, hr⟩ | ⟨r, eff, hc, -, ho, hr⟩ <;>
      cases hr.symm.trans h
    · exact State.read_completeUnspecified_outside hw i (ha _ (.inr ⟨hint, rfl⟩))
    · rfl
    · rfl
    · exact hop.frame hw (State.one_le_of_checks_ok hc) ho (ha r (.inl hc))

/-- NOP and the Morton commands do not look at MEM. -/
theorem exec_not_tree_congr {i : Instr} (hi : isTreeCommand i = false) (s : State) (m : Memory) :
    ∃ mo, exec i s = completeMorton s mo ∧ exec i { s with mem := m } = completeMorton { s with mem := m } mo := by
  cases i with
  | nop => exact ⟨s.morton, rfl, rfl⟩
  | mortonDec | mortonEnc | mortonIncx | mortonIncy | mortonRstx | mortonRsty => exact ⟨_, rfl, rfl⟩
  | build | compress | linearize | delinearize | reconstruct | encode | decode => cases hi

/-- What can be told of a command's completion by its STATUS, its result and Morton registers, and the bytes of its
regions. -/
structure SameCompletion (i : Instr) (s t v : State) : Prop where
  status : v.status = t.status
  results : v.results = t.results
  morton : v.morton = t.morton
  mem : ∀ r, s.checks i = .ok r → ∀ g ∈ regions s.regs r i, Memory.SameBytes t.mem v.mem g.base g.len

/-- The checks do not look at MEM, and neither does what surrounds the operation of a tree command. -/
theorem runTree_congr {i : Instr} {s t v : State} {m : Memory} {perform perform' : Nat → Except CmdError Effect}
    (hint : s.interfered = false)
    (hm : ∀ r, s.checks i = .ok r → Memory.AgreeOn (regions s.regs r i) s.mem m)
    (hp : ∀ r, s.checks i = .ok r → SameOutput (regions s.regs r i) (perform r) (perform' r))
    (ht : runTree i s perform = .next t) (hv : runTree i { s with mem := m } perform' = .next v) :
    SameCompletion i s t v := by
  have hint' : State.interfered { s with mem := m } = false := hint
  cases hc : s.checks i with
  | error e =>
    have hc' : State.checks { s with mem := m } i = .error e := hc
    cases (runTree_checks_error hint hc).symm.trans ht
    cases (runTree_checks_error hint' hc').symm.trans hv
    exact ⟨rfl, rfl, rfl, fun r hr => (hm r hr).sameBytes⟩
  | ok r =>
    have hc' : State.checks { s with mem := m } i = .ok r := hc
    have hsame := hp r hc
    generalize ho : perform r = out, ho' : perform' r = out' at hsame
    cases hsame with
    | error e =>
      cases (runTree_error hc hint ho).symm.trans ht
      cases (runTree_error hc' hint' ho').symm.trans hv
      exact ⟨rfl, rfl, rfl, fun r hr => (hm r hr).sameBytes⟩
    | ok results mem =>
      cases (runTree_ok hc hint ho).symm.trans ht
      cases (runTree_ok hc' hint' ho').symm.trans hv
      refine ⟨rfl, rfl, rfl, fun k hk => ?_⟩
      cases hc.symm.trans hk
      exact mem.sameBytes

/-- Settles O27: NOP and the Morton commands do not look at MEM, and a tree command's operation keeps to its regions. -/
theorem commandsReadOnlyTheirRegions : Obligations.CommandsReadOnlyTheirRegions := by
  intro i s t v m ⟨hw, _, _, _⟩ hm hint hagree ht hv
  have hregions (r : Nat) (hc : s.checks i = .ok r) : Memory.AgreeOn (regions s.regs r i) s.mem m :=
    ⟨hw, hm, hagree r hc⟩
  suffices hsame : SameCompletion i s t v from ⟨hsame.status, hsame.results, hsame.morton, hsame.mem⟩
  cases hi : isTreeCommand i with
  | false =>
    obtain ⟨mo, he, he'⟩ := exec_not_tree_congr hi s m
    cases he.symm.trans ht
    cases he'.symm.trans hv
    exact ⟨rfl, rfl, rfl, hagree⟩
  | true =>
    obtain ⟨op, hop⟩ := exists_keepsToRegions hi
    rw [hop.exec_eq] at ht hv
    exact runTree_congr hint hregions (fun r hc => hop.congr (hregions r hc)) ht hv

end Sys2Proof.Machine

/-!
PROOFS. Regions and the other agents: the validity of regions (spec/20_memory.md R71), the completion of a command whose
regions another agent has touched (U11), and accesses to MEM while a command runs (R73).
-/

namespace Sys2Proof.Machine

open Sys2Proof.Safety

/-! Regions as sets of addresses -/

theorem Region.has_iff (g : Region) (a : Nat) : g.has a = true ↔ g.base ≤ a ∧ a < g.base + g.len := by
  simp [Region.has]

/-- R71 (a). -/
theorem Region.inMem_iff (g : Region) : g.inMem = true ↔ g.base + g.len ≤ 2 ^ 32 := decide_eq_true_iff

/-- Two regions overlap iff they have a byte in common; the later of the two bases is one (R71 (d)). -/
theorem Region.overlaps_iff (g k : Region) :
    g.overlaps k = true ↔ ∃ a, (g.base ≤ a ∧ a < g.base + g.len) ∧ (k.base ≤ a ∧ a < k.base + k.len) := by
  simp only [Region.overlaps, Bool.and_eq_true, decide_eq_true_eq]
  constructor
  · intro h
    exact ⟨max g.base k.base, by omega⟩
  · rintro ⟨a, hg, hk⟩
    omega

/-- R71 (b), (c): a W region has no byte in common with the other. -/
theorem compatible_iff (g k : Region) :
    compatible g k = true ↔ (g.write = true ∨ k.write = true →
      ∀ a, ¬((g.base ≤ a ∧ a < g.base + g.len) ∧ (k.base ≤ a ∧ a < k.base + k.len))) := by
  rw [← not_exists, ← Region.overlaps_iff]
  simp [compatible, imp_iff_not_or]

theorem disjointWrites_iff (gs : List Region) :
    disjointWrites gs = true ↔ gs.Pairwise fun g k => compatible g k = true := by
  induction gs with
  | nil => simp [disjointWrites]
  | cons g gs ih => simp [disjointWrites, ih]

/-- R71 in the terms of addresses. -/
theorem regionsValid_iff (gs : List Region) :
    regionsValid gs = true ↔ (∀ g ∈ gs, g.base + g.len ≤ 2 ^ 32) ∧
      gs.Pairwise fun g k => g.write = true ∨ k.write = true →
        ∀ a, ¬((g.base ≤ a ∧ a < g.base + g.len) ∧ (k.base ≤ a ∧ a < k.base + k.len)) := by
  simp only [regionsValid, Bool.and_eq_true, List.all_eq_true, Region.inMem_iff, disjointWrites_iff, compatible_iff]

/-! The checks of valid dimensions -/

/-- With valid dimensions only the regions are left to check (R114, R115). -/
theorem State.checks_of_dimensions {s : State} (hw : s.regs.width ≠ 0#16) (hh : s.regs.height ≠ 0#16)
    (hr : depth s.regs.width s.regs.height ≤ s.rMax) (i : Instr) :
    s.checks i = if regionsValid (regions s.regs (depth s.regs.width s.regs.height) i)
      then .ok (depth s.regs.width s.regs.height) else .error .badAddr := by
  simp [State.checks, State.checkDimensions, hw, hh, hr.not_gt]

theorem State.raiseError_fails (s : State) (e : CmdError) : Fails s (s.raiseError e) e.code := by
  simp [Fails, Frame]

/-- A tree command that fails its checks takes their error (R111). -/
theorem exec_checks_error {i : Instr} {s : State} {e : CmdError} (hi : isTreeCommand i = true)
    (hint : s.interfered = false) (hc : s.checks i = .error e) : exec i s = .next (s.raiseError e) := by
  obtain ⟨op, he, -⟩ := exec_tree hi s
  exact he.trans (runTree_checks_error hint hc)

/-- Settles O22: the validity check of the model is R71 on addresses, and it is the last of the checks. -/
theorem validRegionsAreDisjointAndInside : Obligations.ValidRegionsAreDisjointAndInside := by
  intro i s hint hi hw hh hr
  have hchecks := State.checks_of_dimensions hw hh hr i
  rw [← regionsValid_iff]
  constructor
  · intro hv
    rw [hchecks, if_pos hv]
  · intro hv
    rw [if_neg hv] at hchecks
    exact ⟨_, exec_checks_error hi hint hchecks, s.raiseError_fails .badAddr⟩

/-! A command whose regions were touched (U11) -/

theorem exec_interfered {i : Instr} {s : State} (hi : isTreeCommand i = true) (hint : s.interfered = true) :
    exec i s = .next (s.completeUnspecified i) := by
  obtain ⟨op, he, -⟩ := exec_tree hi s
  exact he.trans (runTree_interfered hint)

/-- Settles O29: such a command ends in `completeUnspecified`, which fills the W regions alone. -/
theorem interferedCommandsStillComplete : Obligations.InterferedCommandsStillComplete := by
  intro i s ⟨hw, _, _, _⟩ hi hint
  refine ⟨_, exec_interfered hi hint, rfl, Status.complete_done _ _, rfl, rfl, rfl, rfl, rfl, Status.complete_lost _ _,
    rfl, rfl, ?_, fun a ha => State.read_completeUnspecified_outside hw i ha⟩
  rintro (⟨inv, rfl⟩ | rfl | ⟨inv, rfl⟩) <;> rfl

/-! MEM accesses of the other agents (R73) -/

/-- A write outside the regions of the running command does not interfere with it. -/
theorem State.memWrite_interfered_outside {s : State} {a : Word}
    (h : ∀ g ∈ s.runningRegions, ¬(g.base ≤ a.toNat ∧ a.toNat < g.base + g.len)) (v : Byte) :
    (s.memWrite a v).interfered = s.interfered := by
  have hany : (s.runningRegions.any fun g => g.has a.toNat) = false :=
    List.any_eq_false.mpr fun g hg => mt (g.has_iff _).mp (h g hg)
  rw [State.memWrite_interfered, hany, Bool.or_false]

/-- A write inside one of them does. -/
theorem State.memWrite_interfered_inside {s : State} {a : Word} {g : Region} (hg : g ∈ s.runningRegions)
    (ha : g.base ≤ a.toNat ∧ a.toNat < g.base + g.len) (v : Byte) : (s.memWrite a v).interfered = true := by
  have hany : (s.runningRegions.any fun g => g.has a.toNat) = true :=
    List.any_eq_true.mpr ⟨g, hg, (g.has_iff _).mpr ha⟩
  rw [State.memWrite_interfered, hany, Bool.or_true]

/-- Settles O19: the write reaches its one byte, and interferes iff the byte lies in a region of the running command. -/
theorem memWritesOfOtherAgents : Obligations.MemWritesOfOtherAgents := by
  intro s a v rest ⟨hw, _, _, _⟩ hin
  have hregions : State.runningRegions { s with inputs := rest } = s.runningRegions := rfl
  have outside (h : ∀ g ∈ s.runningRegions, ¬(g.base ≤ a.toNat ∧ a.toNat < g.base + g.len)) :=
    State.memWrite_interfered_outside (s := { s with inputs := rest }) h v
  refine ⟨_, step_host hin, ?_, fun b hb => Memory.read_write_ne _ hw _ v b hb, rfl, ?_, ?_, ?_⟩
  · exact (Memory.read_write _ hw _ v a.isLt _).trans (if_pos rfl)
  · intro hp
    exact outside (by simp [State.runningRegions_idle hp])
  · intro e hd
    exact outside (by simp [State.runningRegions_illegal hd])
  · intro i hp hd
    rw [State.runningRegions_busy hp hd] at hregions outside
    exact ⟨fun ⟨g, hg, ha⟩ => State.memWrite_interfered_inside (hregions ▸ hg) ha v, outside⟩

/-- A read of a byte outside the W regions of the running command answers the byte there, and draws nothing. -/
theorem State.memRead_outside {s : State} {a : Word}
    (h : ∀ g ∈ s.runningRegions, g.write = true → ¬(g.base ≤ a.toNat ∧ a.toNat < g.base + g.len)) :
    s.memRead a = { s with reply := .memory (s.mem.read a.toNat) } := by
  refine if_neg ?_
  simpa [Region.has] using h

theorem State.memRead_frame (s : State) (a : Word) :
    s.memRead a = { s with reply := (s.memRead a).reply, draws := (s.memRead a).draws } := by
  unfold State.memRead
  split <;> rfl

/-- Settles O20: the read answers the byte there unless it lies in a W region of the running command. -/
theorem memReadsOfTheHost : Obligations.MemReadsOfTheHost := by
  intro s a rest hin
  have outside (h : ∀ g ∈ s.runningRegions, g.write = true → ¬(g.base ≤ a.toNat ∧ a.toNat < g.base + g.len)) :=
    congrArg State.reply (State.memRead_outside (s := { s with inputs := rest }) h)
  refine ⟨_, step_host hin, State.memRead_frame { s with inputs := rest } a, ?_, ?_, ?_⟩
  · intro hp
    exact outside (by simp [State.runningRegions_idle hp])
  · intro e hd
    exact outside (by simp [State.runningRegions_illegal hd])
  · intro i hp hd h
    exact outside (by rwa [State.runningRegions_busy hp hd])

end Sys2Proof.Machine

/-!
PROOFS. The command words: the decoder against the encoder (spec/30_encoding.md R80–R82), and the illegal words (R83).
-/

namespace Sys2Proof

open Sys2Proof.Machine

/-! The fields of a word (R80) -/

/-- A word without a reserved bit is its OP and its two flags. -/
theorem commandWord_fields {w : Word} (h : w.extractLsb' 10 22 = 0#22) :
    commandWord (w.extractLsb' 0 8) (w.getLsbD 8) (w.getLsbD 9) = w := by
  rw [commandWord, ← h]
  refine BitVec.eq_of_getLsbD_eq fun k hk => ?_
  simp only [BitVec.getLsbD_append, BitVec.getLsbD_ofBool, BitVec.getLsbD_extractLsb']
  obtain hop | rfl | rfl | hhigh : k < 8 ∨ k = 8 ∨ k = 9 ∨ 10 ≤ k := by omega
  · simp [hop]
  · simp
  · simp
  · have h8 : ¬k < 8 := by omega
    have h1 : ¬k - 8 < 1 := by omega
    have h2 : ¬k - 8 - 1 < 1 := by omega
    have hlast : k - 8 - 1 - 1 < 22 := by omega
    have hsum : 10 + (k - 8 - 1 - 1) = k := by omega
    simp [h8, h1, h2, hlast, hsum]

theorem toNat_op (w : Word) : (w.extractLsb' 0 8).toNat = w.toNat % 256 := by
  simp

theorem reservedBits_eq_zero_iff (w : Word) : w.extractLsb' 10 22 = 0#22 ↔ w.toNat / 1024 = 0 := by
  have hw := w.isLt
  rw [← BitVec.toNat_inj, BitVec.extractLsb'_toNat, Nat.shiftRight_eq_div_pow]
  simp only [BitVec.toNat_ofNat]
  omega

/-! The opcode table (R81, R82) -/

theorem opcodeRow_eq_none_iff (op : Nat) : opcodeRow op = none ↔ (0x08 ≤ op ∧ op ≤ 0x0F) ∨ 0x16 ≤ op := by
  unfold opcodeRow
  split
  case h_15 =>
    simp only [imp_false, true_iff] at *
    omega
  all_goals simp

/-- R82: the flags that the command of an OP takes. -/
theorem opcodeRow_flags {op : Nat} {takesInv takesCount : Bool} {instr : Bool → Bool → Instr}
    (h : opcodeRow op = some (takesInv, takesCount, instr)) :
    (takesInv = true ↔ op = 1 ∨ op = 3 ∨ op = 5) ∧ (takesCount = true ↔ op = 3) := by
  unfold opcodeRow at h
  split at h <;> cases h <;> decide

/-- R81: the encoder gives the command of a row the OP of the row, and each flag that it takes. -/
theorem encode_of_opcodeRow {op : Nat} {takesInv takesCount : Bool} {instr : Bool → Bool → Instr}
    (h : opcodeRow op = some (takesInv, takesCount, instr)) (inv count : Bool) :
    encode (instr inv count) = commandWord (BitVec.ofNat 8 op) (inv && takesInv) (count && takesCount) := by
  unfold opcodeRow at h
  split at h <;> cases h <;> simp [encode]

/-! The decoder -/

/-- Every case of the decoder: a reserved OP, or a row of the table with the checks of R82 and R83. -/
theorem decode_cases (w : Word) :
    (opcodeRow (w.toNat % 256) = none ∧ decode w = .error .reservedOp) ∨
    ∃ takesInv takesCount instr, opcodeRow (w.toNat % 256) = some (takesInv, takesCount, instr) ∧
      decode w = if w.extractLsb' 10 22 ≠ 0#22 then .error .reservedBits
        else if w.getLsbD 8 && !takesInv then .error .invNotTaken
        else if w.getLsbD 9 && !takesCount then .error .countNotTaken
        else .ok (instr (w.getLsbD 8) (w.getLsbD 9)) := by
  unfold decode
  rw [toNat_op]
  rcases opcodeRow (w.toNat % 256) with _ | ⟨takesInv, takesCount, instr⟩
  · exact .inl ⟨rfl, rfl⟩
  · exact .inr ⟨takesInv, takesCount, instr, rfl, rfl⟩

/-- What an accepted word says. -/
theorem decode_ok {w : Word} {i : Instr} (h : decode w = .ok i) :
    ∃ takesInv takesCount instr, opcodeRow (w.toNat % 256) = some (takesInv, takesCount, instr) ∧
      w.extractLsb' 10 22 = 0#22 ∧ (w.getLsbD 8 && takesInv) = w.getLsbD 8 ∧
      (w.getLsbD 9 && takesCount) = w.getLsbD 9 ∧ i = instr (w.getLsbD 8) (w.getLsbD 9) := by
  rcases decode_cases w with ⟨-, hd⟩ | ⟨takesInv, takesCount, instr, hrow, hd⟩
  · cases hd.symm.trans h
  · rw [hd] at h
    split_ifs at h with hbits hinv hcount
    cases h
    exact ⟨takesInv, takesCount, instr, hrow, not_not.mp hbits, by simpa using hinv, by simpa using hcount, rfl⟩

theorem encode_of_decode {w : Word} {i : Instr} (h : decode w = .ok i) : encode i = w := by
  obtain ⟨takesInv, takesCount, instr, hrow, hbits, hinv, hcount, rfl⟩ := decode_ok h
  have hop : BitVec.ofNat 8 (w.toNat % 256) = w.extractLsb' 0 8 := by
    rw [← toNat_op, BitVec.ofNat_toNat, BitVec.setWidth_eq]
  rw [encode_of_opcodeRow hrow, hop, hinv, hcount, commandWord_fields hbits]

theorem decode_encode (i : Instr) : decode (encode i) = .ok i := by
  cases i with
  | build inv | reconstruct inv => cases inv <;> decide
  | linearize inv count => cases inv <;> cases count <;> decide
  | _ => decide

/-- Settles O1: an accepted word is rebuilt from the fields it was read from, and the word of every command is
accepted. -/
theorem decodedWordsAreTheEncodedOnes : Obligations.DecodedWordsAreTheEncodedOnes := by
  intro w i
  constructor
  · exact encode_of_decode
  · rintro rfl
    exact decode_encode i

/-! The illegal words (R83) -/

/-- A word that selects a row of the table is rejected for a reserved bit or a flag its command does not take. -/
theorem decode_rejects_row_iff {w : Word} {takesInv takesCount : Bool} {instr : Bool → Bool → Instr}
    (hrow : opcodeRow (w.toNat % 256) = some (takesInv, takesCount, instr)) :
    (∃ e, decode w = .error e) ↔ w.toNat / 1024 ≠ 0 ∨
      (w.getLsbD 8 = true ∧ ¬takesInv = true) ∨ (w.getLsbD 9 = true ∧ ¬takesCount = true) := by
  rw [ne_eq, ← reservedBits_eq_zero_iff]
  rcases decode_cases w with ⟨hnone, -⟩ | ⟨takesInv', takesCount', instr', hrow', hd⟩
  · cases hnone.symm.trans hrow
  · cases hrow'.symm.trans hrow
    rw [hd]
    split_ifs with hbits hinv hcount
    · exact iff_of_true ⟨_, rfl⟩ (.inl hbits)
    · exact iff_of_true ⟨_, rfl⟩ (.inr (.inl (by simpa using hinv)))
    · exact iff_of_true ⟨_, rfl⟩ (.inr (.inr (by simpa using hcount)))
    · exact iff_of_false nofun (by simp_all)

theorem decode_rejects_iff (w : Word) : (∃ e, decode w = .error e) ↔
    (0x08 ≤ w.toNat % 256 ∧ w.toNat % 256 ≤ 0x0F) ∨ 0x16 ≤ w.toNat % 256 ∨ w.toNat / 1024 ≠ 0 ∨
    (w.getLsbD 8 = true ∧ w.toNat % 256 ≠ 1 ∧ w.toNat % 256 ≠ 3 ∧ w.toNat % 256 ≠ 5) ∨
    (w.getLsbD 9 = true ∧ w.toNat % 256 ≠ 3) := by
  have hreserved := opcodeRow_eq_none_iff (w.toNat % 256)
  rw [← or_assoc, ← hreserved]
  rcases decode_cases w with ⟨hnone, hd⟩ | ⟨takesInv, takesCount, instr, hrow, -⟩
  · exact iff_of_true ⟨_, hd⟩ (.inl hnone)
  · obtain ⟨hinv, hcount⟩ := opcodeRow_flags hrow
    rw [decode_rejects_row_iff hrow, hinv, hcount, hrow]
    simp

/-- Settles O2: the decoder rejects a word for a reserved OP or by a check of its row; the core then raises BADCMD. -/
theorem illegalWordsCompleteWithBadCmd : Obligations.IllegalWordsCompleteWithBadCmd := by
  refine ⟨decode_rejects_iff, ?_⟩
  intro s e hp hin hd
  exact ⟨_, (step_no_inputs hin).trans (coreStep_illegal hp hd), s.raiseError_fails .badCmd⟩

/-- Settles O3: each word is the one the encoder gives its command. -/
theorem wordsOfEachBlockDecode : Obligations.WordsOfEachBlockDecode := by
  exact ⟨decode_encode .nop, decode_encode (.build true), decode_encode .compress,
    decode_encode (.linearize true true), decode_encode (.linearize false true), decode_encode .delinearize,
    decode_encode (.reconstruct true), decode_encode .encode, decode_encode .decode, decode_encode .mortonDec,
    decode_encode .mortonRstx⟩

end Sys2Proof

/-!
PROOFS. The sequencer (spec/40_control.md): whose turn a step is (R111, R235), acceptance (R110), the order of the checks
(R114, R115, R223), and NOP (R116).
-/

namespace Sys2Proof.Machine

open Sys2Proof.Safety

/-! The turns of a step -/

/-- Settles O4, turn by turn: with no turn left the core's turn runs at the state itself, and a turn of the list runs once
it is taken off the list. -/
theorem stepRunsTheDecodedCommand : Obligations.StepRunsTheDecodedCommand := by
  refine ⟨?_, ?_, ?_, ?_, fun s e rest hin => step_host hin⟩
  · intro s i hin hp hd
    exact (step_no_inputs hin).trans (coreStep_busy hp hd)
  · intro s i rest hin hp hd
    exact (step_core hin).trans (coreStep_busy (s := { s with inputs := rest }) hp hd)
  · intro s hin hp
    exact (step_no_inputs hin).trans (coreStep_idle hp)
  · intro s rest hin hp
    exact (step_core hin).trans (coreStep_idle (s := { s with inputs := rest }) hp)

/-! Acceptance (R110) -/

/-- A write to CMD, the register at offset 0, while IDLE is acceptance. -/
theorem step_wr_cmd_idle {s : State} {w : Word} {rest : List Turn}
    (hin : s.inputs = .host (.wr s.params.qtcBase 4 w) :: rest) (hp : s.phase = .idle) :
    step s = .next ({ s with inputs := rest }.accept w) := by
  have haccept : State.writeOffset { s with inputs := rest } 0 w = { s with inputs := rest }.accept w :=
    State.writeOffset_reg (s := { s with inputs := rest }) hp w .cmd rfl
  rw [step_wr_word (offset := 0) (by decide) (by decide) hin, haccept]

/-- After acceptance STATUS reads BUSY alone (R23). -/
theorem State.accept_statusWord (s : State) (w : Word) : (s.accept w).statusWord = 1#32 := by
  simp [State.statusWord]

/-- Settles O12: while IDLE the write is acceptance; while BUSY it is lost, as a write to any offset is. -/
theorem cmdWriteAcceptsACommand : Obligations.CmdWriteAcceptsACommand := by
  intro s w rest hin
  constructor
  · intro hp
    refine ⟨_, step_wr_cmd_idle hin hp, rfl, rfl, State.accept_statusWord _ w, ?_⟩
    simp
  · exact writesWhileBusyAreLost s 0 w rest (by decide) (by decide) hin

/-! The order of the checks (R223) -/

/-- Invalid dimensions are reported whatever the regions are (R114). -/
theorem State.checks_invalidDimensions {s : State}
    (h : s.regs.width = 0#16 ∨ s.regs.height = 0#16 ∨ s.rMax < depth s.regs.width s.regs.height) (i : Instr) :
    s.checks i = .error .invalidDimensions := by
  have hdim : s.checkDimensions = .error .invalidDimensions := by
    rcases s.checkDimensions_cases with hdim | ⟨-, hw, hh, hr⟩
    · exact hdim
    · rcases h with hzero | hzero | hdeep
      · exact absurd hzero hw
      · exact absurd hzero hh
      · exact absurd hr hdeep.not_ge
  simp [State.checks, hdim]

/-- Settles O23: the regions are looked at only once the dimensions are valid. -/
theorem checksReportInPriorityOrder : Obligations.ChecksReportInPriorityOrder := by
  intro i s hint hi
  constructor
  · intro hdim
    exact ⟨_, exec_checks_error hi hint (State.checks_invalidDimensions hdim i), s.raiseError_fails .invalidDimensions⟩
  · intro hw hh hr hv
    have hchecks := State.checks_of_dimensions hw hh hr i
    rw [if_neg (by simp [hv])] at hchecks
    exact ⟨_, exec_checks_error hi hint hchecks, s.raiseError_fails .badAddr⟩

/-! NOP (R116) -/

/-- NOP is completion with success, and nothing else. -/
theorem exec_nop (s : State) : exec .nop s = .next (s.complete none) := rfl

theorem State.complete_none_succeeds (s : State) : Succeeds s (s.complete none) := by
  simp [Succeeds, Frame]

/-- Settles O30: completion with success writes no result, no Morton register and no byte of MEM. -/
theorem nopOnlyCompletes : Obligations.NopOnlyCompletes := by
  intro s
  exact ⟨_, exec_nop s, s.complete_none_succeeds, rfl, rfl, rfl⟩

end Sys2Proof.Machine

/-!
PROOFS. The morton_coordinate_converter (spec/41_morton.md): `mort` and `demort` are inverse (R121), the masks keep one
coordinate of a code, and a 1 added to a code whose other coordinate is all ones carries into the next bit of its own
coordinate (R128).
-/

namespace Sys2Proof.Machine

open Sys2Proof.Safety

/-! Codes and coordinates (R120, R121) -/

theorem demort_eq_iff {m : Word} {x y : Half} : demort m = (x, y) ↔
    ∀ k, k < 16 → m.getLsbD (2 * k) = x.getLsbD k ∧ m.getLsbD (2 * k + 1) = y.getLsbD k := by
  constructor
  · intro h k hk
    rw [← demort_x m k hk, ← demort_y m k hk, h]
    exact ⟨rfl, rfl⟩
  · intro h
    apply Prod.ext
    · exact BitVec.eq_of_getLsbD_eq fun k hk => (demort_x m k hk).trans (h k hk).1
    · exact BitVec.eq_of_getLsbD_eq fun k hk => (demort_y m k hk).trans (h k hk).2

@[simp] theorem demort_mort (x y : Half) : demort (mort x y) = (x, y) :=
  demort_eq_iff.2 fun k hk => ⟨mort_even x y k hk, mort_odd x y k hk⟩

/-- A bit position of a code is even, and holds a bit of x, or odd, and holds a bit of y. -/
@[simp] theorem mort_demort (m : Word) : mort (demort m).1 (demort m).2 = m := by
  apply BitVec.eq_of_getLsbD_eq
  intro j hj
  obtain ⟨k, rfl | rfl⟩ : ∃ k, j = 2 * k ∨ j = 2 * k + 1 := ⟨j / 2, by omega⟩
  · rw [mort_even _ _ k (by omega), demort_x m k (by omega)]
  · rw [mort_odd _ _ k (by omega), demort_y m k (by omega)]

/-- A word is the code of the pair it de-interleaves to, and of no other. -/
theorem eq_mort_iff {m : Word} {x y : Half} : m = mort x y ↔ demort m = (x, y) := by
  constructor
  · rintro rfl
    exact demort_mort x y
  · intro h
    rw [← mort_demort m, h]

/-- Settles O35: the bits of `demort`, then both inverse laws. -/
theorem mortonCodesRoundTrip : Obligations.MortonCodesRoundTrip :=
  ⟨fun m k hk => ⟨demort_x m k hk, demort_y m k hk⟩, demort_mort, mort_demort⟩

/-! Masks (R126–R128) -/

theorem demort_and (m n : Word) :
    demort (m &&& n) = ((demort m).1 &&& (demort n).1, (demort m).2 &&& (demort n).2) := by
  rw [demort_eq_iff]
  intro k hk
  simp [demort_x _ k hk, demort_y _ k hk]

theorem demort_or (m n : Word) :
    demort (m ||| n) = ((demort m).1 ||| (demort n).1, (demort m).2 ||| (demort n).2) := by
  rw [demort_eq_iff]
  intro k hk
  simp [demort_x _ k hk, demort_y _ k hk]

theorem demort_xMask : demort 0x55555555#32 = (BitVec.allOnes 16, 0#16) := by decide

theorem demort_yMask : demort 0xAAAAAAAA#32 = (0#16, BitVec.allOnes 16) := by decide

theorem and_xMask (m : Word) : m &&& 0x55555555#32 = mort (demort m).1 0#16 := by
  rw [eq_mort_iff, demort_and, demort_xMask]
  simp only [BitVec.and_zero, BitVec.and_allOnes]

theorem and_yMask (m : Word) : m &&& 0xAAAAAAAA#32 = mort 0#16 (demort m).2 := by
  rw [eq_mort_iff, demort_and, demort_yMask]
  simp only [BitVec.and_zero, BitVec.and_allOnes]

theorem or_xMask (m : Word) : m ||| 0x55555555#32 = mort (BitVec.allOnes 16) (demort m).2 := by
  rw [eq_mort_iff, demort_or, demort_xMask]
  simp only [BitVec.or_zero, BitVec.or_allOnes]

theorem or_yMask (m : Word) : m ||| 0xAAAAAAAA#32 = mort (demort m).1 (BitVec.allOnes 16) := by
  rw [eq_mort_iff, demort_or, demort_yMask]
  simp only [BitVec.or_zero, BitVec.or_allOnes]

theorem mort_or_mort (x y : Half) : mort x 0#16 ||| mort 0#16 y = mort x y := by
  rw [eq_mort_iff, demort_or]
  simp

/-! Carries (R128) -/

/-- The bits of `v` below `n` are all 1: a 1 added to `v` carries into bit `n`. -/
abbrev LowOnes {w : Nat} (v : BitVec w) (n : Nat) : Prop := ∀ j, j < n → v.getLsbD j = true

theorem lowOnes_succ {w : Nat} (v : BitVec w) (n : Nat) :
    LowOnes v (n + 1) ↔ LowOnes v n ∧ v.getLsbD n = true := Nat.forall_lt_succ_right

theorem lowOnes_allOnes {w n : Nat} (hn : n ≤ w) : LowOnes (BitVec.allOnes w) n := by
  intro j hj
  simp [Nat.lt_of_lt_of_le hj hn]

/-- The carry of the sum `v + 0 + 1`, whose carry in is the 1. -/
theorem carry_zero_true {w : Nat} (v : BitVec w) (n : Nat) : BitVec.carry n v 0#w true = decide (LowOnes v n) := by
  induction n with
  | zero => simp [LowOnes]
  | succ n ih => simp [BitVec.carry_succ, ih, lowOnes_succ, Bool.atLeastTwo, Bool.and_comm]

theorem getLsbD_add_one {w : Nat} (v : BitVec w) {k : Nat} (hk : k < w) :
    (v + 1#w).getLsbD k = (v.getLsbD k ^^ decide (LowOnes v k)) := by
  have hsum := BitVec.getLsbD_add_add_bool hk v 0#w true
  have hone : BitVec.setWidth w (BitVec.ofBool true) = 1#w := BitVec.setWidth_ofNat_one_eq_ofNat_one_of_lt (by omega)
  simpa only [hone, carry_zero_true, BitVec.add_zero, BitVec.getLsbD_zero, Bool.false_xor] using hsum

/-- Bits `0` to `n - 1` of a code are the first `(n + 1) / 2` bits of x and the first `n / 2` bits of y. -/
theorem mort_lowOnes_iff (x y : Half) {n : Nat} (hn : n ≤ 32) :
    LowOnes (mort x y) n ↔ LowOnes x ((n + 1) / 2) ∧ LowOnes y (n / 2) := by
  constructor
  · intro h
    constructor
    · intro k hk
      rw [← mort_even x y k (by omega)]
      exact h _ (by omega)
    · intro k hk
      rw [← mort_odd x y k (by omega)]
      exact h _ (by omega)
  · rintro ⟨hx, hy⟩ j hj
    obtain ⟨k, rfl | rfl⟩ : ∃ k, j = 2 * k ∨ j = 2 * k + 1 := ⟨j / 2, by omega⟩
    · rw [mort_even x y k (by omega)]
      exact hx k (by omega)
    · rw [mort_odd x y k (by omega)]
      exact hy k (by omega)

/-- With all ones for y, the carry out of bit k of x passes through bit k of y. -/
theorem demort_mort_allOnes_add_one_x (x : Half) : (demort (mort x (BitVec.allOnes 16) + 1#32)).1 = x + 1#16 := by
  apply BitVec.eq_of_getLsbD_eq
  intro k hk
  have hcarry : LowOnes (mort x (BitVec.allOnes 16)) (2 * k) ↔ LowOnes x k := by
    rw [mort_lowOnes_iff _ _ (by omega), show (2 * k + 1) / 2 = k by omega]
    exact and_iff_left (lowOnes_allOnes (by omega))
  rw [demort_x _ k hk, getLsbD_add_one _ (by omega), mort_even _ _ k hk, getLsbD_add_one x hk,
    decide_eq_decide.2 hcarry]

/-- With all ones for x, the carry out of bit k of y passes through bit k + 1 of x, and the added 1 through bit 0. -/
theorem demort_allOnes_mort_add_one_y (y : Half) : (demort (mort (BitVec.allOnes 16) y + 1#32)).2 = y + 1#16 := by
  apply BitVec.eq_of_getLsbD_eq
  intro k hk
  have hcarry : LowOnes (mort (BitVec.allOnes 16) y) (2 * k + 1) ↔ LowOnes y k := by
    rw [mort_lowOnes_iff _ _ (by omega), show (2 * k + 1) / 2 = k by omega]
    exact and_iff_right (lowOnes_allOnes (by omega))
  rw [demort_y _ k hk, getLsbD_add_one _ (by omega), mort_odd _ _ k hk, getLsbD_add_one y hk,
    decide_eq_decide.2 hcarry]

/-- R128 for x: the masks leave the incremented x from the sum and y from the code. -/
theorem mort_incx_eq_maskedAdd (m : Word) :
    mort ((demort m).1 + 1#16) (demort m).2 =
      (((m ||| 0xAAAAAAAA#32) + 1#32) &&& 0x55555555#32) ||| (m &&& 0xAAAAAAAA#32) := by
  rw [or_yMask, and_xMask, and_yMask, demort_mort_allOnes_add_one_x, mort_or_mort]

/-- R128 for y, with the masks exchanged. -/
theorem mort_incy_eq_maskedAdd (m : Word) :
    mort (demort m).1 ((demort m).2 + 1#16) =
      (((m ||| 0x55555555#32) + 1#32) &&& 0xAAAAAAAA#32) ||| (m &&& 0x55555555#32) := by
  rw [or_xMask, and_yMask, and_xMask, demort_allOnes_mort_add_one_y, BitVec.or_comm, mort_or_mort]

/-! The commands (R122–R127) -/

/-- The state in which a command ends that writes `code` to MORTON_CODE and no other register (R122, R124–R127). -/
def State.completeCode (s : State) (code : Word) : State :=
  { s with morton := { s.morton with code } }.complete none

theorem exec_mortonEnc (s : State) :
    exec .mortonEnc s = .next (s.completeCode (mort s.morton.x s.morton.y)) := rfl

theorem exec_mortonDec (s : State) :
    exec .mortonDec s = .next ({ s with morton :=
      { s.morton with x := (demort s.morton.code).1, y := (demort s.morton.code).2 } }.complete none) := rfl

theorem exec_mortonIncx (s : State) :
    exec .mortonIncx s =
      .next (s.completeCode (mort ((demort s.morton.code).1 + 1#16) (demort s.morton.code).2)) := rfl

theorem exec_mortonIncy (s : State) :
    exec .mortonIncy s =
      .next (s.completeCode (mort (demort s.morton.code).1 ((demort s.morton.code).2 + 1#16))) := rfl

theorem exec_mortonRstx (s : State) :
    exec .mortonRstx s = .next (s.completeCode (s.morton.code &&& 0xAAAAAAAA#32)) := rfl

theorem exec_mortonRsty (s : State) :
    exec .mortonRsty s = .next (s.completeCode (s.morton.code &&& 0x55555555#32)) := rfl

theorem State.completeCode_code (s : State) (code : Word) : (s.completeCode code).morton.code = code := rfl

theorem State.completeCode_succeeds (s : State) (code : Word) : Succeeds s (s.completeCode code) :=
  State.complete_none_succeeds { s with morton := { s.morton with code } }

/-- Settles O33: `demort` gives back the pair whose code was written, and the sum of two halves is modulo 2^16. -/
theorem mortonIncrementsOneCoordinate : Obligations.MortonIncrementsOneCoordinate := by
  intro s
  constructor
  · refine ⟨_, exec_mortonIncx s, s.completeCode_succeeds _, rfl, rfl, rfl, rfl, ?_⟩
    rw [State.completeCode_code, demort_mort]
    exact ⟨BitVec.toNat_add _ _, rfl⟩
  · refine ⟨_, exec_mortonIncy s, s.completeCode_succeeds _, rfl, rfl, rfl, rfl, ?_⟩
    rw [State.completeCode_code, demort_mort]
    exact ⟨rfl, BitVec.toNat_add _ _⟩

/-- Settles O34: the mask keeps the bits of one coordinate and clears those of the other. -/
theorem mortonResetsOneCoordinate : Obligations.MortonResetsOneCoordinate := by
  intro s
  constructor
  · exact ⟨_, exec_mortonRstx s, s.completeCode_succeeds _, rfl, rfl, rfl, rfl, rfl, and_yMask s.morton.code⟩
  · exact ⟨_, exec_mortonRsty s, s.completeCode_succeeds _, rfl, rfl, rfl, rfl, rfl, and_xMask s.morton.code⟩

/-- Settles O36, by the masked-add forms of the two incremented codes. -/
theorem mortonIncrementsAreMaskedAdds : Obligations.MortonIncrementsAreMaskedAdds := by
  intro s
  exact ⟨⟨_, exec_mortonIncx s, mort_incx_eq_maskedAdd s.morton.code⟩,
    ⟨_, exec_mortonIncy s, mort_incy_eq_maskedAdd s.morton.code⟩⟩

/-- Settles O31, by the bits of `mort`. -/
theorem mortonEncInterleaves : Obligations.MortonEncInterleaves := by
  intro s
  exact ⟨_, exec_mortonEnc s, s.completeCode_succeeds _, rfl, rfl, rfl, rfl, fun k hk =>
    ⟨mort_even s.morton.x s.morton.y k hk, mort_odd s.morton.x s.morton.y k hk⟩⟩

/-- Settles O32, by the bits of `demort`. -/
theorem mortonDecDeinterleaves : Obligations.MortonDecDeinterleaves := by
  intro s
  exact ⟨_, exec_mortonDec s, State.complete_none_succeeds { s with morton := _ }, rfl, rfl, rfl, fun k hk =>
    ⟨demort_x s.morton.code k hk, demort_y s.morton.code k hk⟩⟩

end Sys2Proof.Machine

/-!
PROOFS. The quadtree_encoder (spec/42_encoder.md): the codes of the tree BUILD makes (R142, R143), where they stand in
the TREE buffer (R63, R144), and that a code is 0 iff every leaf below its node is (R145).
-/

namespace Sys2Proof.Machine

open Sys2Proof.Safety

/-! Depths and levels (R10, R64) -/

/-- The search for the depth ends at an exponent that covers `n`, if it looks far enough. -/
theorem le_two_pow_depthFrom {fuel r n : Nat} (hn : n ≤ 2 ^ (r + fuel)) : n ≤ 2 ^ depthFrom fuel r n := by
  induction fuel generalizing r with
  | zero => exact hn
  | succ fuel ih =>
    unfold depthFrom
    split
    · next hr => exact hr
    · exact ih (by rwa [Nat.add_right_comm r 1 fuel])

/-- depth covers both dimensions (R10). -/
theorem le_two_pow_depth (w h : Half) : max w.toNat h.toNat ≤ 2 ^ depth w h := by
  have hw := w.isLt
  have hh := h.isLt
  exact le_two_pow_depthFrom (by omega)

/-- Every node stands at a position of a level (R64). -/
theorem exists_level {r i : Nat} (hi : i < nodeCount r) : ∃ l m, l < r ∧ m < 4 ^ l ∧ i = levelBase l + m := by
  induction r with
  | zero => exact absurd hi (Nat.not_lt_zero i)
  | succ r ih =>
    rw [nodeCount_eq_levelBase, levelBase_succ] at hi
    by_cases hlast : i < levelBase r
    · obtain ⟨l, m, hl, hm, rfl⟩ := ih hlast
      exact ⟨l, m, by omega, hm, rfl⟩
    · exact ⟨r, i - levelBase r, by omega, by omega, by omega⟩

/-- A node of level `l` with a child in the tree is above the leaf level. -/
theorem level_lt_of_child_lt {r l m q : Nat} (h : child (levelBase l + m) q < nodeCount r) : l + 1 < r := by
  by_contra hge
  have hmono := levelBase_mono (show r ≤ l + 1 by omega)
  rw [child_levelBase, nodeCount_eq_levelBase] at h
  omega

/-! Codes of blocks (R120) -/

/-- Coordinates of k bits have a code of 2k bits. -/
theorem toNat_mort_lt {x y : Half} {k : Nat} (hx : x.toNat < 2 ^ k) (hy : y.toNat < 2 ^ k) :
    (mort x y).toNat < 4 ^ k := by
  have high {v : Half} (hv : v.toNat < 2 ^ k) {j : Nat} (hj : k ≤ j) : v.getLsbD j = false :=
    Nat.testBit_lt_two_pow (hv.trans_le (Nat.pow_le_pow_right (by omega) hj))
  rw [show 4 ^ k = 2 ^ (2 * k) from (Nat.pow_mul 2 2 k).symm]
  refine Nat.lt_pow_two_of_testBit _ fun j hj => ?_
  change (mort x y).getLsbD j = false
  simp [mort, high hx (show k ≤ j / 2 by omega), high hy (show k ≤ j / 2 by omega)]

/-- Every block of the square of side 2^k has its position among the 4^k leaves. -/
theorem exists_demort {blockX blockY k : Nat} (hk : k ≤ 16) (hx : blockX < 2 ^ k) (hy : blockY < 2 ^ k) :
    ∃ m, m < 4 ^ k ∧ (demort (BitVec.ofNat 32 m)).1.toNat = blockX ∧
      (demort (BitVec.ofNat 32 m)).2.toNat = blockY := by
  have toNat_half {v : Nat} (hv : v < 2 ^ k) : (BitVec.ofNat 16 v).toNat = v := by
    rw [BitVec.toNat_ofNat]
    exact Nat.mod_eq_of_lt (hv.trans_le (Nat.pow_le_pow_right (by omega) hk))
  refine ⟨mortNat blockX blockY, toNat_mort_lt ?_ ?_, ?_, ?_⟩
  · rwa [toNat_half hx]
  · rwa [toNat_half hy]
  · rw [mortNat, BitVec.ofNat_toNat, BitVec.setWidth_eq, demort_mort, toNat_half hx]
  · rw [mortNat, BitVec.ofNat_toNat, BitVec.setWidth_eq, demort_mort, toNat_half hy]

/-! The codes of the tree (R141–R143) -/

/-- R141 as a conjunction. -/
theorem epix_eq (m : Memory) (b w h : Nat) (inv : Bool) (x y : Nat) :
    epix m b w h inv x y = (decide (x < w) && decide (y < h) && (pixelAt m b w x y).xor inv) := by
  unfold epix
  split
  · next hout =>
    rcases hout with hx | hy
    · simp [hx.not_gt]
    · simp [hy.not_gt]
  · next hin =>
    have hx : x < w := by omega
    have hy : y < h := by omega
    simp [hx, hy, pixel, rowBytes]

section
variable (pix : Nat → Nat → Bool)

theorem getLsbD_leafCode (m : Nat) {q : Nat} (hq : q < 4) : (leafCode pix m).getLsbD q =
    pix (2 * (demort (BitVec.ofNat 32 m)).1.toNat + q % 2) (2 * (demort (BitVec.ofNat 32 m)).2.toNat + q / 2) := by
  simp [leafCode, hq]

theorem getLsbD_nodeCode_succ (height m : Nat) {q : Nat} (hq : q < 4) :
    (nodeCode pix (height + 1) m).getLsbD q = true ↔ nodeCode pix height (4 * m + q) ≠ 0#4 := by
  simp [nodeCode, hq]

/-- A code is 0 iff every leaf below its node is: leaf `n` is below the node at position n / 4^height. -/
theorem nodeCode_eq_zero_iff (height m : Nat) :
    nodeCode pix height m = 0#4 ↔ ∀ n, n / 4 ^ height = m → leafCode pix n = 0#4 := by
  induction height generalizing m with
  | zero => simp [nodeCode]
  | succ height ih =>
    have hchild : nodeCode pix (height + 1) m = 0#4 ↔ ∀ q, q < 4 → nodeCode pix height (4 * m + q) = 0#4 := by
      rw [nibble_eq_zero_iff]
      refine forall₂_congr fun q hq => ?_
      rw [← Bool.not_eq_true, getLsbD_nodeCode_succ pix height m hq, not_ne_iff]
    have hdiv (n : Nat) : n / 4 ^ (height + 1) = n / 4 ^ height / 4 := by rw [Nat.pow_succ, Nat.div_div_eq_div_mul]
    simp only [hchild, ih, hdiv]
    constructor
    · intro h n hn
      exact h (n / 4 ^ height % 4) (by omega) n (by omega)
    · intro h q hq n hn
      exact h n (by omega)

/-- R143 on node numbers. -/
theorem getLsbD_nodeAt_buildTree {r i q : Nat} (hq : q < 4) (hc : child i q < nodeCount r) :
    (nodeAt (buildTree pix r) i).getLsbD q = true ↔ nodeAt (buildTree pix r) (child i q) ≠ 0#4 := by
  have hi : i < nodeCount r := by unfold child at hc; omega
  obtain ⟨l, m, hl, hm, rfl⟩ := exists_level hi
  have hl' := level_lt_of_child_lt hc
  have hm' : 4 * m + q < 4 ^ (l + 1) := by rw [Nat.pow_succ]; omega
  rw [child_levelBase, nodeAt_buildTree pix hl hm, nodeAt_buildTree pix hl' hm',
    show r - 1 - l = r - 1 - (l + 1) + 1 by omega]
  exact getLsbD_nodeCode_succ pix _ m hq

theorem nodeAt_buildTree_leaf {r m : Nat} (hr : 1 ≤ r) (hm : m < 4 ^ (r - 1)) :
    nodeAt (buildTree pix r) (levelBase (r - 1) + m) = leafCode pix m := by
  rw [nodeAt_buildTree pix (by omega) hm, Nat.sub_self, nodeCode]

/-- With no pixel set outside the square of side 2^r, the root is 0 iff none is set at all: pixel (x, y) is in the block
at (x / 2, y / 2). -/
theorem root_eq_zero_iff {r : Nat} (hr : 1 ≤ r) (hr16 : r ≤ 16)
    (hpad : ∀ x y, pix x y = true → x < 2 ^ r ∧ y < 2 ^ r) :
    nodeAt (buildTree pix r) 0 = 0#4 ↔ ∀ x y, pix x y = false := by
  have hroot : nodeAt (buildTree pix r) 0 = nodeCode pix (r - 1) 0 :=
    nodeAt_buildTree pix (l := 0) (m := 0) hr Nat.one_pos
  rw [hroot, nodeCode_eq_zero_iff]
  constructor
  · intro h x y
    by_contra hset
    obtain ⟨hx, hy⟩ := hpad x y (by simpa using hset)
    have hside := Nat.two_pow_pred_mul_two hr
    obtain ⟨n, hn, hbx, hby⟩ :=
      exists_demort (blockX := x / 2) (blockY := y / 2) (k := r - 1) (by omega) (by omega) (by omega)
    have hq : x % 2 + 2 * (y % 2) < 4 := by omega
    have hbit := getLsbD_leafCode pix n hq
    rw [h n (Nat.div_eq_of_lt hn), hbx, hby, show 2 * (x / 2) + (x % 2 + 2 * (y % 2)) % 2 = x by omega,
      show 2 * (y / 2) + (x % 2 + 2 * (y % 2)) / 2 = y by omega, BitVec.getLsbD_zero] at hbit
    exact hset hbit.symm
  · intro h n _
    rw [nibble_eq_zero_iff]
    intro q hq
    rw [getLsbD_leafCode pix n hq, h]

end

/-! The TREE buffer (R63, R144) -/

/-- The nibbles of a written tree are its codes, and after them the pad nibble, which is what `nodeAt` gives past the
last code. -/
theorem nibRead_writeTree {m : Memory} (hw : m.wf) {b r i : Nat} {t : List Nibble} (ht : t.length = nodeCount r)
    (hr : 1 ≤ r) (hb : b + treeBytes r ≤ Config.memSize) (hi : i ≤ nodeCount r) :
    (writeTree m b t).nibRead b i = nodeAt t i := by
  have hodd := nodeCount_odd hr
  have hlen : (t ++ [0#4]).length = nodeCount r + 1 := by simp [ht]
  unfold writeTree
  rw [Memory.nibRead_nibWrites hw b 0 (t ++ [0#4]) (by unfold treeBytes at hb; omega), if_pos (by omega),
    Nat.sub_zero]
  unfold nodeAt
  by_cases hpad : i = nodeCount r
  · rw [List.getD_append_right _ _ _ _ (by omega), List.getD_eq_default t _ (by omega)]
    simp [hpad, ht]
  · exact List.getD_append _ _ _ _ (by omega)

/-! BUILD (R140) -/

/-- The state in which a ready BUILD ends. -/
def State.built (s : State) (inv : Bool) (r : Nat) : State :=
  s.commit { mem := writeTree s.mem s.regs.treeBase.toNat (rasterTree s inv r), results := none }

section
variable {inv : Bool} {s : State} {r : Nat} (hready : Ready (.build inv) s r)
include hready

theorem exec_build : exec (.build inv) s = .next (s.built inv r) :=
  runTree_ok (perform := fun r => .ok
    { mem := writeTree s.mem s.regs.treeBase.toNat (rasterTree s inv r), results := none }) hready.1 hready.2 rfl

theorem treeCode_built (hw : s.mem.wf) {i : Nat} (hi : i ≤ nodeCount r) :
    treeCode (s.built inv r) i = nodeAt (rasterTree s inv r) i :=
  nibRead_writeTree hw (length_buildTree _ r) (State.one_le_of_checks_ok hready.1)
    (State.region_inMem hready.1 (g := treeRegion s.regs r true) (by simp [regions])) hi

end

theorem State.commit_succeeds (s : State) (eff : Effect) : Succeeds s (s.commit eff) := by
  simp [Succeeds, Frame]

/-- The dimensions of a ready command lie in the square of its tree, whose depth its Morton codes hold (R10, R114). -/
theorem State.dimensions_le_of_checks_ok {s : State} {i : Instr} {r : Nat} (h : s.checks i = .ok r) :
    r ≤ 15 ∧ s.regs.width.toNat ≤ 2 ^ r ∧ s.regs.height.toNat ≤ 2 ^ r := by
  obtain ⟨rfl, -, -, hmax, -⟩ := State.checks_ok h
  have hcover := le_two_pow_depth s.regs.width s.regs.height
  exact ⟨hmax.trans s.rMax_le, by omega, by omega⟩

/-- Settles O37: the codes in TREE are those of the built tree, whose leaves are effective pixels and whose other nodes
look at their children. -/
theorem buildWritesTheTree : Obligations.BuildWritesTheTree := by
  intro inv s r ⟨hw, _, _, _⟩ hready
  have hr := State.one_le_of_checks_ok hready.1
  refine ⟨s.built inv r, exec_build hready, s.commit_succeeds _, rfl, rfl, ?outside, ?leaves, ?internal, ?pad⟩
  case outside =>
    intro a ha
    exact read_writeTree_outside hw (length_buildTree _ r) hr ha
  case leaves =>
    intro m q hm hq
    have hi : levelBase (r - 1) + m < nodeCount r := by
      have := levelBase_succ (r - 1)
      rw [Nat.sub_add_cancel hr] at this
      rw [nodeCount_eq_levelBase]
      omega
    rw [treeCode_built hready hw hi.le, rasterTree, nodeAt_buildTree_leaf _ hr hm, getLsbD_leafCode _ m hq, epix_eq]
  case internal =>
    intro i q hq hc
    have hi : i ≤ nodeCount r := by unfold child at hc; omega
    rw [treeCode_built hready hw hi, treeCode_built hready hw hc.le]
    exact getLsbD_nodeAt_buildTree _ hq hc
  case pad =>
    rw [treeCode_built hready hw le_rfl]
    exact List.getD_eq_default _ _ (length_buildTree _ r).le

/-- Settles O38: no effective pixel outside the raster is set, so the root looks at the in-bounds pixels alone. -/
theorem builtRootIsZeroIffRasterIsEmpty : Obligations.BuiltRootIsZeroIffRasterIsEmpty := by
  intro inv s t r ⟨hw, _, _, _⟩ hready hexec
  cases (exec_build hready).symm.trans hexec
  obtain ⟨hr15, hwidth, hheight⟩ := State.dimensions_le_of_checks_ok hready.1
  rw [treeCode_built hready hw (Nat.zero_le _), rasterTree,
    root_eq_zero_iff _ (State.one_le_of_checks_ok hready.1) (by omega)]
  · refine forall₂_congr fun x y => ?_
    rw [epix_eq]
    simp
  · intro x y hset
    rw [epix_eq] at hset
    simp only [Bool.and_eq_true, decide_eq_true_eq] at hset
    omega

end Sys2Proof.Machine

/-!
PROOFS. The tree_fill_compressor (spec/43_compressor.md): the uniform height as the least over the children (R151), the
run decision and what it saves (R152), and the bytes COMPRESS leaves in RDB (R87, R150).
-/

namespace Sys2Proof.Machine

open Sys2Proof.Safety

/-! The run decision (R152) -/

theorem popcount_pos : ∀ c : Nibble, c ≠ 0#4 → 1 ≤ popcount c := by decide

theorem popcount_le_four : ∀ c : Nibble, popcount c ≤ 4 := by decide

theorem popcount_eq_four_iff : ∀ c : Nibble, popcount c = 4 ↔ c = 0xF#4 := by decide

theorem runPays_iff (c : Nibble) (s : Nat) :
    runPays c s = true ↔ 2 ≤ s ∧ (3 ≤ popcount c ∨ (popcount c = 2 ∧ 3 ≤ s) ∨ (popcount c = 1 ∧ 4 ≤ s)) := by
  simp [runPays, or_assoc]

/-- The plain codes that a run of span `s` replaces: each of its nodes has `p` children. -/
def plainCodes (p s : Nat) : Nat := ((List.range s).map fun k => p ^ k).sum

/-- Every level of a run holds a node. -/
theorem le_plainCodes {p : Nat} (hp : 1 ≤ p) (s : Nat) : s ≤ plainCodes p s := by
  have hlen := List.length_le_sum_of_one_le ((List.range s).map fun k => p ^ k) (by simp [Nat.one_le_pow _ p hp])
  simpa [plainCodes] using hlen

/-- R152's conditions compare nibbles: from four levels on a run is always shorter, and below that `p` decides. -/
theorem run_shorter_iff {p s : Nat} (hp : 1 ≤ p) (hp4 : p ≤ 4) (hs : 1 ≤ s) :
    (if p = 4 then 2 else 3) < plainCodes p s ↔ 2 ≤ s ∧ (3 ≤ p ∨ (p = 2 ∧ 3 ≤ s) ∨ (p = 1 ∧ 4 ≤ s)) := by
  match s, hs with
  | 1, _ =>
    have hsum : plainCodes p 1 = 1 := by simp [plainCodes]
    rw [hsum]
    split <;> omega
  | 2, _ =>
    have hsum : plainCodes p 2 = 1 + p := by simp [plainCodes, List.range_succ]
    rw [hsum]
    split <;> omega
  | 3, _ =>
    have hsum : plainCodes p 3 = 1 + p + p ^ 2 := by simp [plainCodes, List.range_succ, Nat.add_assoc]
    have hsq : p ≤ p ^ 2 := Nat.le_self_pow (by omega) p
    rw [hsum]
    by_cases h1 : p = 1
    · simp [h1]
    · split <;> omega
  | s + 4, _ =>
    have hlong := le_plainCodes hp (s + 4)
    split <;> omega

/-- Settles O40: R152's conditions say which side is shorter for each popcount and span. -/
theorem runsAreTakenExactlyWhenShorter : Obligations.RunsAreTakenExactlyWhenShorter := by
  intro c s hc hs
  rw [runPays_iff, ← run_shorter_iff (popcount_pos c hc) (popcount_le_four c) hs]
  simp only [popcount_eq_four_iff, plainCodes]

theorem runSpan_snd_le (rem h : Nat) : (runSpan rem h).2 ≤ 7 := by
  unfold runSpan
  split
  · exact le_rfl
  · dsimp only; omega

/-- The span and LCODE of R152, as the statements give them. -/
theorem runSpan_eq {rem h span lcode : Nat}
    (hspan : if h = rem then span = rem ∧ lcode = 7 else span = min h 7 ∧ lcode = span - 1) :
    runSpan rem h = (span, lcode) := by
  unfold runSpan
  split at hspan <;> obtain ⟨rfl, rfl⟩ := hspan
  · next heq => rw [if_pos heq]
  · next hne => rw [if_neg hne]

/-! The fields of an RD byte (R87) -/

section
variable (lcode : BitVec 3) (run : Bool) (uh : BitVec 4)

theorem getLsbD_rdByte (k : Nat) : (rdByte lcode run uh).getLsbD k =
    if k < 4 then uh.getLsbD k else if k = 4 then run else lcode.getLsbD (k - 5) := by
  rw [show (rdByte lcode run uh).getLsbD k = (BitVec.getLsbD (w := 3 + 1 + 4) (lcode ++ BitVec.ofBool run ++ uh) k)
    from rfl, BitVec.getLsbD_append, BitVec.getLsbD_append]
  split
  · rfl
  · next hk =>
    split
    · next hk' => simp [show k = 4 by omega]
    · next hk' => rw [if_neg (by omega), Nat.sub_sub]

@[simp] theorem rdByte_height : (rdByte lcode run uh).extractLsb' 0 4 = uh := by
  apply BitVec.eq_of_getLsbD_eq
  intro k hk
  simp [getLsbD_rdByte, hk]

theorem rdByte_run : (rdByte lcode run uh).getLsbD 4 = run := getLsbD_rdByte lcode run uh 4

@[simp] theorem rdByte_lcode : (rdByte lcode run uh).extractLsb' 5 3 = lcode := by
  apply BitVec.eq_of_getLsbD_eq
  intro k hk
  simp [getLsbD_rdByte, hk, show ¬(5 + k < 4) by omega, show 5 + k ≠ 4 by omega]

end

section
variable (c : Nibble) (rem h : Nat)

theorem descriptor_height : (descriptor c rem h).extractLsb' 0 4 = BitVec.ofNat 4 h := by
  unfold descriptor
  split
  · exact rdByte_height ..
  · split <;> exact rdByte_height ..

variable {c} (hc : c ≠ 0#4)
include hc

theorem descriptor_run : (descriptor c rem h).getLsbD 4 = runPays c (runSpan rem h).1 := by
  rw [descriptor, if_neg hc]
  split
  · next hpays => rw [rdByte_run, hpays]
  · next hpays => rw [rdByte_run, Bool.eq_false_of_not_eq_true hpays]

theorem descriptor_lcode : ((descriptor c rem h).extractLsb' 5 3).toNat =
    if (descriptor c rem h).getLsbD 4 then (runSpan rem h).2 else 0 := by
  have hlt := runSpan_snd_le rem h
  rw [descriptor_run rem h hc, descriptor, if_neg hc]
  split
  · rw [rdByte_lcode, BitVec.toNat_ofNat, Nat.mod_eq_of_lt (by omega)]
  · simp

end

/-! The uniform height (R151) -/

section
variable (t : List Nibble) (height i : Nat)

/-- What child `q` of node `i` adds to the uniform height of `i` (R151); the child stands `height` levels above the leaves. -/
def childHeight (q : Nat) : Nat :=
  if nodeAt t (child i q) = nodeAt t i then uniformHeight t height (child i q) else 0

theorem uniformHeight_of_zero (hi : nodeAt t i = 0#4) : uniformHeight t height i = 0 := by
  cases height <;> exact if_pos hi

theorem uniformHeight_leaf (hi : nodeAt t i ≠ 0#4) : uniformHeight t 0 i = 1 := if_neg hi

/-- A nonzero node above the leaf level is 1 higher than the least of its present children. -/
theorem uniformHeight_succ (hi : nodeAt t i ≠ 0#4) : uniformHeight t (height + 1) i =
    1 + (((List.range 4).filter (nodeAt t i).getLsbD).map (childHeight t height i)).min?.getD 0 := if_neg hi

theorem uniformHeight_le_child (hi : nodeAt t i ≠ 0#4) {q : Nat} (hq : q < 4) (hbit : (nodeAt t i).getLsbD q = true) :
    uniformHeight t (height + 1) i ≤ 1 + childHeight t height i q := by
  rw [uniformHeight_succ t height i hi]
  exact Nat.add_le_add_left (List.min?_getD_le_of_mem (List.mem_map_of_mem (by simp [hq, hbit]))) 1

/-- The minimum is taken over a non-empty set (R151), so some present child attains it. -/
theorem exists_uniformHeight_eq_child (hi : nodeAt t i ≠ 0#4) :
    ∃ q, q < 4 ∧ (nodeAt t i).getLsbD q = true ∧ uniformHeight t (height + 1) i = 1 + childHeight t height i q := by
  have hne : ((List.range 4).filter (nodeAt t i).getLsbD).map (childHeight t height i) ≠ [] := by
    simpa [nibble_eq_zero_iff] using hi
  obtain ⟨q, hq, hmin⟩ := List.mem_map.mp (List.min_mem hne)
  obtain ⟨hq4, hbit⟩ := List.mem_filter.mp hq
  exact ⟨q, List.mem_range.mp hq4, hbit, by
    rw [uniformHeight_succ t height i hi, List.min?_eq_some_min hne, Option.getD_some, hmin]⟩

/-- UH reaches the leaves at most (R151). -/
theorem uniformHeight_le : uniformHeight t height i ≤ height + 1 := by
  induction height generalizing i with
  | zero => unfold uniformHeight; split <;> omega
  | succ height ih =>
    by_cases hi : nodeAt t i = 0#4
    · simp [uniformHeight_of_zero t _ i hi]
    · obtain ⟨q, -, -, heq⟩ := exists_uniformHeight_eq_child t height i hi
      have hq := ih (child i q)
      rw [heq, childHeight]
      split <;> omega

end

/-! Nodes of a level (R64) and bytes written -/

theorem levelBase_add_lt {r l m : Nat} (hl : l < r) (hm : m < 4 ^ l) : levelBase l + m < nodeCount r := by
  have hmono := levelBase_mono (show l + 1 ≤ r by omega)
  rw [levelBase_succ] at hmono
  rw [nodeCount_eq_levelBase]
  omega

/-- Byte `k` of the bytes written at `a`. -/
theorem Memory.read_writeBytes_add {m : Memory} (hw : m.wf) {a k : Nat} {bs : List Byte}
    (hb : a + bs.length ≤ Config.memSize) (hk : k < bs.length) : (m.writeBytes a bs).read (a + k) = bs.getD k 0#8 := by
  rw [Memory.read_writeBytes hw a bs hb, if_pos (by omega), Nat.add_sub_cancel_left]

/-! COMPRESS (R150) -/

/-- The codes COMPRESS reads (R150). -/
def State.treeIn (s : State) (r : Nat) : List Nibble := readTree s.mem s.regs.treeBase.toNat r

/-- The state in which a ready COMPRESS ends. -/
def State.compressed (s : State) (r : Nat) : State :=
  s.commit { mem := s.mem.writeBytes s.regs.rdBase.toNat (descriptors (s.treeIn r) r), results := none }

theorem nodeAt_treeIn (s : State) {r l m : Nat} (hl : l < r) (hm : m < 4 ^ l) :
    nodeAt (s.treeIn r) (levelBase l + m) = treeCode s (levelBase l + m) :=
  nodeAt_readTree _ _ (levelBase_add_lt hl hm)

section
variable {s : State} {r : Nat} (hready : Ready .compress s r)
include hready

theorem exec_compress : exec .compress s = .next (s.compressed r) :=
  runTree_ok (perform := fun r => .ok
    { mem := s.mem.writeBytes s.regs.rdBase.toNat (descriptors (s.treeIn r) r), results := none })
    hready.1 hready.2 rfl

variable (hw : s.mem.wf) {l m : Nat} (hl : l < r) (hm : m < 4 ^ l)
include hw hl hm

theorem rdAt_compressed : rdAt (s.compressed r) (levelBase l + m) =
    descriptor (treeCode s (levelBase l + m)) (r - l)
      (uniformHeight (s.treeIn r) (r - 1 - l) (levelBase l + m)) := by
  have hlen := length_descriptors (s.treeIn r) r
  have hin := State.region_inMem hready.1 (g := rdRegion s.regs r true) (by simp [regions])
  rw [← nodeAt_treeIn s hl hm, ← getD_descriptors _ hl hm]
  exact Memory.read_writeBytes_add hw (hlen.symm ▸ hin) (hlen.symm ▸ levelBase_add_lt hl hm)

theorem rdHeight_compressed : rdHeight (s.compressed r) (levelBase l + m) =
    uniformHeight (s.treeIn r) (r - 1 - l) (levelBase l + m) := by
  have hr15 := (State.dimensions_le_of_checks_ok hready.1).1
  have hle := uniformHeight_le (s.treeIn r) (r - 1 - l) (levelBase l + m)
  unfold rdHeight
  rw [rdAt_compressed hready hw hl hm, descriptor_height, BitVec.toNat_ofNat, Nat.mod_eq_of_lt (by omega)]

/-- R151's term for child `q`, read from TREE and from the bytes COMPRESS wrote. -/
theorem childHeight_compressed (hl' : l + 1 < r) {q : Nat} (hq : q < 4) :
    (if treeCode s (child (levelBase l + m) q) = treeCode s (levelBase l + m)
      then rdHeight (s.compressed r) (child (levelBase l + m) q) else 0) =
    childHeight (s.treeIn r) (r - 1 - (l + 1)) (levelBase l + m) q := by
  have hm' : 4 * m + q < 4 ^ (l + 1) := by rw [Nat.pow_succ]; omega
  rw [childHeight, child_levelBase, rdHeight_compressed hready hw hl' hm', nodeAt_treeIn s hl hm,
    nodeAt_treeIn s hl' hm']

end

/-- Settles O39: RD[i] is the descriptor of node i, whose height field holds R151's recursion. -/
theorem compressWritesTheDescriptors : Obligations.CompressWritesTheDescriptors := by
  intro s r ⟨hw, _, _, _⟩ hready
  refine ⟨s.compressed r, exec_compress hready, s.commit_succeeds _, rfl, rfl, ?outside, ?nodes⟩
  case outside =>
    intro a ha
    exact Memory.read_writeBytes_outside hw _ _ a (by simpa using ha)
  case nodes =>
    intro l m hl hm
    have hheight := rdHeight_compressed hready hw hl hm
    have hrd := rdAt_compressed hready hw hl hm
    have hnode := nodeAt_treeIn s hl hm
    refine ⟨?zero, fun hc => ⟨?leaf, ?internal, ?run⟩⟩
    case zero =>
      intro hc
      rw [hrd, uniformHeight_of_zero _ _ _ (hnode.trans hc), hc]
      rfl
    case leaf =>
      intro hleaf
      rw [hheight, show r - 1 - l = 0 by omega]
      exact uniformHeight_leaf _ _ (hnode ▸ hc)
    case internal =>
      intro hl'
      have hi : nodeAt (s.treeIn r) (levelBase l + m) ≠ 0#4 := hnode ▸ hc
      rw [hheight, show r - 1 - l = r - 1 - (l + 1) + 1 by omega, ← hnode]
      constructor
      · intro q hq hbit
        rw [hnode, childHeight_compressed hready hw hl hm hl' hq]
        exact uniformHeight_le_child _ _ _ hi hq hbit
      · obtain ⟨q, hq, hbit, heq⟩ := exists_uniformHeight_eq_child _ (r - 1 - (l + 1)) _ hi
        exact ⟨q, hq, hbit, by rw [heq, hnode, childHeight_compressed hready hw hl hm hl' hq]⟩
    case run =>
      rintro p span lcode rfl hspan
      have hrun := runSpan_eq (hheight ▸ hspan)
      rw [hrd, descriptor_lcode _ _ hc, descriptor_run _ _ hc, hrun]
      exact ⟨runPays_iff .., rfl⟩

end Sys2Proof.Machine

/-!
PROOFS. The traversal of the linearizer (spec/44_linearizer.md R161–R163): the slots both directions hold for a level
are what the paths from the root settle about its nodes (`nodeView`).
-/

namespace Sys2Proof.Machine

open Sys2Proof.Safety

/-! Items (R89, R90, R164) -/

/-- The item of a node of code `c` and RD byte `d` (R164). -/
def itemOf (c : Nibble) (d : Byte) : Item := if d.getLsbD 4 then .run (d.extractLsb' 5 3) c else .code c

theorem itemOf_code (c : Nibble) {d : Byte} (hd : d.getLsbD 4 = false) : itemOf c d = .code c :=
  if_neg (Bool.eq_false_iff.mp hd)

theorem itemOf_run (c : Nibble) {d : Byte} (hd : d.getLsbD 4 = true) : itemOf c d = .run (d.extractLsb' 5 3) c :=
  if_pos hd

/-- Bit 3 of a run nibble is E (R90). -/
theorem runNibble_flag : ∀ (e : Bool) (lcode : BitVec 3), (BitVec.ofBool e ++ lcode : Nibble).getLsbD 3 = e := by
  decide

/-- Bits 2:0 of a run nibble are LCODE (R90). -/
theorem runNibble_lcode : ∀ (e : Bool) (lcode : BitVec 3),
    (BitVec.ofBool e ++ lcode : Nibble).extractLsb' 0 3 = lcode := by
  decide

/-- The nibbles of a run item: the escape, the run nibble and the fill value where E is set (R90). -/
theorem runNibbles_eq (lcode : BitVec 3) (v : Nibble) : (Item.run lcode v).nibbles =
    [0#4, BitVec.ofBool (v != 0xF#4) ++ lcode] ++ (if v = 0xF#4 then [] else [v]) := by
  by_cases hv : v = 0xF#4
  · simp [Item.nibbles, hv]
  · have he : (v != 0xF#4) = true := bne_iff_ne.mpr hv
    simp [Item.nibbles, hv, he]

/-- R152's count of a run's nibbles. -/
theorem length_runNibbles (lcode : BitVec 3) (v : Nibble) :
    (Item.run lcode v).nibbles.length = if popcount v = 4 then 2 else 3 := by
  simp only [popcount_eq_four_iff, Item.nibbles]
  split <;> rfl

theorem length_nibbles_le (item : Item) : item.nibbles.length ≤ 3 := by
  cases item with
  | code c => exact Nat.le_add_left 1 2
  | run lcode v =>
    rw [length_runNibbles]
    split <;> omega

theorem runLevels_eq_span (lcode : BitVec 3) (r l : Nat) : runLevels lcode r l = span lcode r l := rfl

/-- Only a span that LCODE names can pass the leaf level (R91, R165). -/
theorem lt_add_span_iff {r l : Nat} (hl : l < r) (lcode : BitVec 3) :
    r < l + span lcode r l ↔ lcode ≠ 7#3 ∧ r < l + lcode.toNat + 1 := by
  unfold span
  split
  · next h7 => simp [h7]; omega
  · next h7 => simp [h7]; omega

/-! Slots (R161, R162) -/

/-- The slot of the child in quadrant `q`. -/
def childSlot (c : Nibble) (below q : Nat) : Slot :=
  if c.getLsbD q then (if below = 0 then .fresh else .covered c (below - 1)) else .absent

theorem childSlots_eq (c : Nibble) (below : Nat) : childSlots c below = (List.range 4).map (childSlot c below) := by
  cases below <;> rfl

section
variable (t : Nat → Nibble) (rd : Nat → Byte) (r : Nat)

/-- The slot that a traversal of `t` and `rd` holds for the node at position `m` of level `l`. -/
def viewSlot : Nat → Nat → Slot
  | 0, _ => .fresh
  | l + 1, m => childSlot (nodeView t rd r l (m / 4)).code (nodeView t rd r l (m / 4)).below (m % 4)

/-- What the traversal knows of a node with the given slot; `own` is what it knows of a node that takes an item. -/
def slotView (own : NodeView) : Slot → NodeView
  | .absent => { code := 0#4, below := 0, emitted := false }
  | .covered v below => { code := v, below := below, emitted := false }
  | .fresh => own

theorem nodeView_eq_slotView (l m : Nat) :
    nodeView t rd r l m = slotView (ownView t rd r l (levelBase l + m)) (viewSlot t rd r l m) := by
  cases l with
  | zero => simp [nodeView, viewSlot, slotView]
  | succ l =>
    simp only [nodeView, viewSlot, childSlot]
    by_cases hbit : (nodeView t rd r l (m / 4)).code.getLsbD (m % 4) = true
    · by_cases hbelow : (nodeView t rd r l (m / 4)).below = 0
      · simp [hbit, hbelow, slotView]
      · simp [hbit, hbelow, slotView, Nat.pos_of_ne_zero hbelow]
    · simp [hbit, slotView]

theorem emitted_iff_fresh (l m : Nat) : (nodeView t rd r l m).emitted = true ↔ viewSlot t rd r l m = .fresh := by
  rw [nodeView_eq_slotView]
  cases viewSlot t rd r l m <;> simp [slotView, ownView]

theorem itemNibbles_eq (l m : Nat) : itemNibbles t rd r l m =
    if viewSlot t rd r l m = .fresh then (itemOf (t (levelBase l + m)) (rd (levelBase l + m))).nibbles else [] := by
  unfold itemNibbles
  simp only [emitted_iff_fresh]
  split
  · split
    · next hd => rw [itemOf_run _ hd, runNibbles_eq]
    · next hd => rw [itemOf_code _ (by simpa using hd)]; rfl
  · rfl

theorem badNode_iff {l : Nat} (hl : l < r) (m : Nat) : badNode t rd r l m ↔ viewSlot t rd r l m = .fresh ∧
    (t (levelBase l + m) = 0#4 ∨ ((rd (levelBase l + m)).getLsbD 4 = true ∧
      r < l + span ((rd (levelBase l + m)).extractLsb' 5 3) r l)) := by
  simp only [badNode, emitted_iff_fresh, lt_add_span_iff hl]

/-- The slots of the first `m` nodes of level `l`. -/
def viewSlots (l m : Nat) : List Slot := (List.range m).map (viewSlot t rd r l)

@[simp] theorem length_viewSlots (l m : Nat) : (viewSlots t rd r l m).length = m := by simp [viewSlots]

theorem viewSlots_succ (l m : Nat) : viewSlots t rd r l (m + 1) = viewSlots t rd r l m ++ [viewSlot t rd r l m] := by
  simp [viewSlots, List.range_succ]

theorem viewSlots_root : viewSlots t rd r 0 1 = rootSlots := rfl

/-- The children of node m of a level are the nodes 4m to 4m + 3 of the next (R65). -/
theorem viewSlots_children (l m : Nat) : viewSlots t rd r (l + 1) (4 * (m + 1)) =
    viewSlots t rd r (l + 1) (4 * m) ++ childSlots (nodeView t rd r l m).code (nodeView t rd r l m).below := by
  rw [childSlots_eq, viewSlots, viewSlots, Nat.mul_succ, List.range_add, List.map_append, List.map_map]
  congr 1
  refine List.map_congr_left fun q hq => ?_
  have hq := List.mem_range.mp hq
  simp only [Function.comp, viewSlot]
  rw [show (4 * m + q) / 4 = m by omega, show (4 * m + q) % 4 = q by omega]

theorem levelBody_succ (l m : Nat) :
    levelBody t rd r l (m + 1) = levelBody t rd r l m ++ itemNibbles t rd r l m := by
  simp [levelBody, List.range_succ]

theorem bodyBefore_zero : bodyBefore t rd r 0 0 = [] := rfl

theorem bodyBefore_eq (l m : Nat) : bodyBefore t rd r l m = bodyBefore t rd r l 0 ++ levelBody t rd r l m := by
  simp [bodyBefore, levelBody]

theorem bodyBefore_succ (l : Nat) : bodyBefore t rd r (l + 1) 0 = bodyBefore t rd r l (4 ^ l) := by
  simp [bodyBefore, levelBody, List.range_succ]

theorem streamBody_eq : streamBody t rd r = bodyBefore t rd r r 0 := by
  simp [streamBody, bodyBefore, levelBody]

theorem length_levelBody_le (l m : Nat) : (levelBody t rd r l m).length ≤ 3 * m := by
  induction m with
  | zero => simp [levelBody]
  | succ m ih =>
    have hitem : (itemNibbles t rd r l m).length ≤ 3 := by
      rw [itemNibbles_eq]
      split
      · exact length_nibbles_le _
      · simp
    rw [levelBody_succ, List.length_append]
    omega

/-- An item takes three nibbles at most (R90). -/
theorem length_bodyBefore_le (l : Nat) : (bodyBefore t rd r l 0).length ≤ 3 * levelBase l := by
  induction l with
  | zero => simp [bodyBefore_zero]
  | succ l ih =>
    have hlevel := length_levelBody_le t rd r l (4 ^ l)
    rw [bodyBefore_succ, bodyBefore_eq, List.length_append, levelBase_succ]
    omega

end

end Sys2Proof.Machine

/-!
PROOFS. LINEARIZE (spec/44_linearizer.md R160–R167): its stream is the header and the items of `streamBody`, packed, or
BADTREE where some node is a `badNode`.
-/

namespace Sys2Proof.Machine

open Sys2Proof.Safety

/-! The walk over one level (R163) -/

section
variable {r l : Nat} {c : Nibble} {d : Byte}

/-- A node that takes an item is BADTREE in the two cases of R165, and otherwise emits its item. -/
theorem linNode_fresh (r l : Nat) (c : Nibble) (d : Byte) : linNode r l .fresh c d =
    if c = 0#4 ∨ (d.getLsbD 4 = true ∧ r < l + span (d.extractLsb' 5 3) r l) then .error .badTree
    else .ok ((itemOf c d).nibbles,
      childSlots c (if d.getLsbD 4 then span (d.extractLsb' 5 3) r l - 1 else 0)) := by
  unfold linNode itemOf rdRun rdLcode
  by_cases hc : c = 0#4
  · simp [hc]
  by_cases hd : d.getLsbD 4 = true
  · by_cases hs : r < l + span (d.extractLsb' 5 3) r l
    · simp only [hc, hd, hs, if_true, if_false, and_self, or_true]
    · simp only [hc, hd, hs, if_true, if_false, and_false, or_false]
  · simp only [hc, hd, if_false, false_and, or_false, Bool.false_eq_true]

theorem linNode_error {slot : Slot} {e : CmdError} (h : linNode r l slot c d = .error e) : e = .badTree := by
  cases slot with
  | absent => cases h
  | covered v below => cases h
  | fresh =>
    rw [linNode_fresh] at h
    split at h
    · cases h; rfl
    · cases h

end

section
variable (t : List Nibble) (rd : List Byte) (r l : Nat)

theorem linSlots_append (i : Nat) (a b : List Slot) : linSlots t rd r l i (a ++ b) =
    (linSlots t rd r l i a).bind fun x => (linSlots t rd r l (i + a.length) b).map fun y =>
      (x.1 ++ y.1, x.2 ++ y.2) := by
  induction a generalizing i with
  | nil =>
    simp only [List.nil_append, linSlots, List.length_nil, Nat.add_zero, Except.bind]
    cases linSlots t rd r l i b <;> rfl
  | cons slot a ih =>
    simp only [List.cons_append, linSlots, ih]
    cases linNode r l slot (nodeAt t i) (rd.getD i 0#8) with
    | error e => rfl
    | ok x =>
      simp only [List.length_cons, show i + (a.length + 1) = i + 1 + a.length by omega]
      cases linSlots t rd r l (i + 1) a with
      | error e => rfl
      | ok y =>
        simp only [Except.bind]
        cases linSlots t rd r l (i + 1 + a.length) b with
        | error e => rfl
        | ok z => simp [Except.map]

theorem linSlots_singleton (i : Nat) (slot : Slot) :
    linSlots t rd r l i [slot] = linNode r l slot (nodeAt t i) (rd.getD i 0#8) := by
  simp only [linSlots]
  cases linNode r l slot (nodeAt t i) (rd.getD i 0#8) with
  | error e => rfl
  | ok x => simp

variable {t rd r l}

theorem linSlots_error {i : Nat} {slots : List Slot} {e : CmdError} (h : linSlots t rd r l i slots = .error e) :
    e = .badTree := by
  induction slots generalizing i with
  | nil => cases h
  | cons slot slots ih =>
    unfold linSlots at h
    split at h
    · next hnode => cases h; exact linNode_error hnode
    · split at h
      · next hrest => cases h; exact ih hrest
      · cases h

theorem linLevels_error {n : Nat} {slots : List Slot} {e : CmdError} (h : linLevels t rd r n l slots = .error e) :
    e = .badTree := by
  induction n generalizing l slots with
  | zero => cases h
  | succ n ih =>
    unfold linLevels at h
    split at h
    · next hlevel => cases h; exact linSlots_error hlevel
    · split at h
      · next hrest => cases h; exact ih hrest
      · cases h

end

/-! The walk holds the slots of `nodeView`

`tree` and `rd` are T and RD; the lists hold them up to node N(r). -/

section
variable {T : List Nibble} {RD : List Byte} {tree : Nat → Nibble} {rd : Nat → Byte} {r : Nat}

theorem linNode_view {l m : Nat} (hl : l < r) (hok : ¬badNode tree rd r l m) :
    linNode r l (viewSlot tree rd r l m) (tree (levelBase l + m)) (rd (levelBase l + m)) =
      .ok (itemNibbles tree rd r l m, childSlots (nodeView tree rd r l m).code (nodeView tree rd r l m).below) := by
  rw [badNode_iff tree rd r hl] at hok
  rw [nodeView_eq_slotView, itemNibbles_eq]
  cases hs : viewSlot tree rd r l m with
  | absent => simp [linNode, slotView]
  | covered v below => simp [linNode, slotView]
  | fresh =>
    rw [linNode_fresh, if_neg (fun h => hok ⟨hs, h⟩)]
    rfl

theorem not_badNode_of_linNode {l m : Nat} (hl : l < r) {x : List Nibble × List Slot}
    (h : linNode r l (viewSlot tree rd r l m) (tree (levelBase l + m)) (rd (levelBase l + m)) = .ok x) :
    ¬badNode tree rd r l m := by
  rw [badNode_iff tree rd r hl]
  rintro ⟨hs, hbad⟩
  rw [hs, linNode_fresh, if_pos hbad] at h
  cases h

variable (hT : ∀ i, i < nodeCount r → nodeAt T i = tree i) (hRD : ∀ i, i < nodeCount r → RD.getD i 0#8 = rd i)
include hT hRD

/-- One node more of a level. -/
theorem linSlots_viewSlots_succ {l m : Nat} (hl : l < r) (hm : m < 4 ^ l) :
    linSlots T RD r l (levelBase l) (viewSlots tree rd r l (m + 1)) =
      (linSlots T RD r l (levelBase l) (viewSlots tree rd r l m)).bind fun x =>
        (linNode r l (viewSlot tree rd r l m) (tree (levelBase l + m)) (rd (levelBase l + m))).map fun y =>
          (x.1 ++ y.1, x.2 ++ y.2) := by
  have hi := levelBase_add_lt hl hm
  rw [viewSlots_succ, linSlots_append, length_viewSlots, linSlots_singleton, hT _ hi, hRD _ hi]

theorem linSlots_view {l m : Nat} (hl : l < r) (hm : m ≤ 4 ^ l) (hok : ∀ q, q < m → ¬badNode tree rd r l q) :
    linSlots T RD r l (levelBase l) (viewSlots tree rd r l m) =
      .ok (levelBody tree rd r l m, viewSlots tree rd r (l + 1) (4 * m)) := by
  induction m with
  | zero => rfl
  | succ m ih =>
    rw [linSlots_viewSlots_succ hT hRD hl hm, ih (by omega) fun q hq => hok q (by omega),
      linNode_view hl (hok m (by omega)), viewSlots_children, levelBody_succ]
    rfl

theorem not_badNode_of_linSlots {l m : Nat} (hl : l < r) (hm : m ≤ 4 ^ l) {x : List Nibble × List Slot}
    (h : linSlots T RD r l (levelBase l) (viewSlots tree rd r l m) = .ok x) :
    ∀ q, q < m → ¬badNode tree rd r l q := by
  induction m generalizing x with
  | zero => intro q hq; omega
  | succ m ih =>
    rw [linSlots_viewSlots_succ hT hRD hl hm] at h
    cases hbefore : linSlots T RD r l (levelBase l) (viewSlots tree rd r l m) with
    | error e => rw [hbefore] at h; cases h
    | ok y =>
      cases hnode : linNode r l (viewSlot tree rd r l m) (tree (levelBase l + m)) (rd (levelBase l + m)) with
      | error e => rw [hbefore, hnode] at h; cases h
      | ok z =>
        intro q hq
        rcases Nat.lt_succ_iff_lt_or_eq.mp hq with hq | rfl
        · exact ih (by omega) hbefore q hq
        · exact not_badNode_of_linNode hl hnode

/-- After the levels above `l`, their items are emitted and the walk holds the slots of level `l`. -/
theorem linLevels_view {l : Nat} (hl : l ≤ r) (hok : ∀ k q, k < l → q < 4 ^ k → ¬badNode tree rd r k q) :
    linLevels T RD r r 0 rootSlots =
      (linLevels T RD r (r - l) l (viewSlots tree rd r l (4 ^ l))).map (bodyBefore tree rd r l 0 ++ ·) := by
  induction l with
  | zero =>
    rw [bodyBefore_zero, Nat.sub_zero, Nat.pow_zero, viewSlots_root]
    cases linLevels T RD r r 0 rootSlots <;> rfl
  | succ l ih =>
    rw [ih (by omega) fun k q hk hq => hok k q (by omega) hq, show r - l = r - (l + 1) + 1 by omega, linLevels,
      linSlots_view hT hRD hl le_rfl fun q hq => hok l q (by omega) hq, bodyBefore_succ,
      bodyBefore_eq _ _ _ l (4 ^ l), Nat.pow_succ, Nat.mul_comm (4 ^ l)]
    dsimp only
    cases linLevels T RD r (r - (l + 1)) (l + 1) (viewSlots tree rd r (l + 1) (4 * 4 ^ l)) with
    | error e => rfl
    | ok body => simp [Except.map]

theorem linLevels_ok (hok : ∀ l m, l < r → m < 4 ^ l → ¬badNode tree rd r l m) :
    linLevels T RD r r 0 rootSlots = .ok (streamBody tree rd r) := by
  rw [linLevels_view hT hRD le_rfl hok, Nat.sub_self, linLevels, streamBody_eq]
  simp [Except.map]

theorem not_badNode_of_linLevels {body : List Nibble} (h : linLevels T RD r r 0 rootSlots = .ok body) (l : Nat)
    (hl : l < r) : ∀ m, m < 4 ^ l → ¬badNode tree rd r l m := by
  induction l using Nat.strong_induction_on with
  | _ l ih =>
    rw [linLevels_view hT hRD hl.le fun k q hk hq => ih k hk (by omega) q hq,
      show r - l = r - (l + 1) + 1 by omega, linLevels] at h
    cases hlevel : linSlots T RD r l (levelBase l) (viewSlots tree rd r l (4 ^ l)) with
    | error e => rw [hlevel] at h; cases h
    | ok x => exact not_badNode_of_linSlots hT hRD hl le_rfl hlevel

/-! The stream (R160, R165–R167) -/

theorem linearize_ok (hroot : nodeAt T 0 ≠ 0#4) (inv : Bool)
    (hok : ∀ l m, l < r → m < 4 ^ l → ¬badNode tree rd r l m) :
    linearize T RD r inv = .ok (headerByte inv false :: pack (streamBody tree rd r)) := by
  rw [linearize, if_neg hroot, linLevels_ok hT hRD hok]

/-- A traversal that gives a stream meets no node of R165. -/
theorem not_badNode_of_linearize (hroot : nodeAt T 0 ≠ 0#4) {inv : Bool} {stream : List Byte}
    (h : linearize T RD r inv = .ok stream) : ∀ l m, l < r → m < 4 ^ l → ¬badNode tree rd r l m := by
  rw [linearize, if_neg hroot] at h
  split at h
  · cases h
  · next hbody => exact fun l m hl hm => not_badNode_of_linLevels hT hRD hbody l hl m hm

theorem eq_of_linearize (hroot : nodeAt T 0 ≠ 0#4) {inv : Bool} {stream : List Byte}
    (h : linearize T RD r inv = .ok stream) : stream = headerByte inv false :: pack (streamBody tree rd r) := by
  rw [linearize_ok hT hRD hroot inv (not_badNode_of_linearize hT hRD hroot h)] at h
  exact (Except.ok.inj h).symm

end

theorem linearize_shortcut {T : List Nibble} (RD : List Byte) (r : Nat) (hroot : nodeAt T 0 = 0#4) (inv : Bool) :
    linearize T RD r inv = .ok [headerByte inv true] := if_pos hroot

theorem linearize_error {T : List Nibble} {RD : List Byte} {r : Nat} {inv : Bool} {e : CmdError}
    (h : linearize T RD r inv = .error e) : e = .badTree := by
  unfold linearize at h
  split at h
  · cases h
  · split at h
    · next hbody => cases h; exact linLevels_error hbody
    · cases h

theorem length_stream (inv : Bool) (body : List Nibble) :
    (headerByte inv false :: pack body).length = streamLength body.length := by
  rw [List.length_cons, length_pack, streamLength, Nat.add_comm]

end Sys2Proof.Machine

/-!
PROOFS. The command LINEARIZE (spec/44_linearizer.md R160): what it writes, its result registers, BADTREE and CAPACITY.
-/

namespace Sys2Proof.Machine

open Sys2Proof.Safety

/-! The bytes of a stream (R69, R88, R93) -/

theorem headerByte_shortcut (inv : Bool) : headerByte inv true = if inv then 0x03#8 else 0x02#8 := by
  cases inv <;> rfl

theorem headerByte_body (inv : Bool) : headerByte inv false = if inv then 0x01#8 else 0x00#8 := by
  cases inv <;> rfl

theorem infoOf_headerByte_body (inv : Bool) : infoOf (headerByte inv false) = if inv then 1#2 else 0#2 := by
  cases inv <;> rfl

/-- The last byte of a body of odd length has the high nibble 0 (R93). -/
theorem pack_append_pad (ns : List Nibble) (h : ns.length % 2 = 1) : pack (ns ++ [0#4]) = pack ns := by
  induction ns using pack.induct with
  | case1 => simp at h
  | case2 a => rfl
  | case3 a b rest ih =>
    have hrest : rest.length % 2 = 1 := by simp only [List.length_cons] at h; omega
    simp only [List.cons_append, pack, ih hrest]

/-- Body nibble k of a stream is the k-th nibble of its body. -/
theorem bodyNibble_pack (hdr : Byte) {body : List Nibble} {k : Nat} (hk : k < body.length) :
    bodyNibble (hdr :: pack body) k = body.getD k 0#4 := by
  rw [← nibbleOf_pack body k hk, show pack body = (hdr :: pack body).tail from rfl]
  unfold bodyNibble nibbleOf
  rw [show 1 + k / 2 = k / 2 + 1 by omega]
  simp only [List.getD_cons_succ, List.tail_cons]

/-- Body nibble k is in byte 1 + k / 2 of the stream. -/
theorem bodyAt_eq_bodyNibble {m : Memory} {b k : Nat} {stream : List Byte}
    (hbytes : ∀ j, j < stream.length → m.read (b + j) = stream.getD j 0#8) (hk : 1 + k / 2 < stream.length) :
    bodyAt m b k = bodyNibble stream k := by
  unfold bodyNibble
  rw [← hbytes _ hk, ← Nat.add_assoc]

/-- The nibbles in MEM of a stream that stands there. -/
theorem bodyAt_of_stream {m : Memory} {b k : Nat} {hdr : Byte} {body : List Nibble}
    (hbytes : ∀ j, j < (hdr :: pack body).length → m.read (b + j) = (hdr :: pack body).getD j 0#8)
    (hk : k < body.length) : bodyAt m b k = body.getD k 0#4 := by
  rw [bodyAt_eq_bodyNibble hbytes, bodyNibble_pack hdr hk]
  rw [List.length_cons, length_pack]
  omega

/-! What the buffers give -/

section
variable {s : State} {r : Nat} {inv : Bool}

theorem nodeAt_readTree_root (s : State) (hr : 1 ≤ r) :
    nodeAt (readTree s.mem s.regs.treeBase.toNat r) 0 = treeCode s 0 :=
  nodeAt_readTree _ _ (levelBase_add_lt (l := 0) (m := 0) hr Nat.one_pos)

theorem linearizeBuffers_shortcut (hr : 1 ≤ r) (hroot : treeCode s 0 = 0#4) :
    linearizeBuffers s r inv = .ok [headerByte inv true] :=
  linearize_shortcut _ _ ((nodeAt_readTree_root s hr).trans hroot) inv

theorem linearizeBuffers_ok (hr : 1 ≤ r) (hroot : treeCode s 0 ≠ 0#4)
    (hok : ∀ l m, l < r → m < 4 ^ l → ¬badNode (treeCode s) (rdAt s) r l m) :
    linearizeBuffers s r inv = .ok (headerByte inv false :: pack (streamBody (treeCode s) (rdAt s) r)) :=
  linearize_ok (fun _ => nodeAt_readTree _ _) (fun _ => getD_readRd _ _) (nodeAt_readTree_root s hr ▸ hroot) inv hok

theorem linearizeBuffers_eq (hr : 1 ≤ r) (hroot : treeCode s 0 ≠ 0#4) {stream : List Byte}
    (h : linearizeBuffers s r inv = .ok stream) :
    stream = headerByte inv false :: pack (streamBody (treeCode s) (rdAt s) r) :=
  eq_of_linearize (fun _ => nodeAt_readTree _ _) (fun _ => getD_readRd _ _) (nodeAt_readTree_root s hr ▸ hroot) h

/-- A node of R165 makes the traversal BADTREE. -/
theorem linearizeBuffers_bad (hr : 1 ≤ r) (hroot : treeCode s 0 ≠ 0#4) {l m : Nat} (hl : l < r) (hm : m < 4 ^ l)
    (hbad : badNode (treeCode s) (rdAt s) r l m) : linearizeBuffers s r inv = .error .badTree := by
  cases h : linearizeBuffers s r inv with
  | error e => rw [linearize_error h]
  | ok stream =>
    exact absurd hbad (not_badNode_of_linearize (fun _ => nodeAt_readTree _ _) (fun _ => getD_readRd _ _)
      (nodeAt_readTree_root s hr ▸ hroot) h l m hl hm)

/-- RESULT_SIZE holds the length of every stream: at three nibbles a node it is below 2^32 (R5, R36). -/
theorem length_linearizeBuffers_lt (hr : 1 ≤ r) (hr15 : r ≤ 15) {stream : List Byte}
    (h : linearizeBuffers s r inv = .ok stream) : stream.length < 2 ^ 32 := by
  by_cases hroot : treeCode s 0 = 0#4
  · rw [linearizeBuffers_shortcut hr hroot] at h
    cases h
    simp
  · have hbody := length_bodyBefore_le (treeCode s) (rdAt s) r r
    have hnodes := levelBase_mono hr15
    have h15 : levelBase 15 < 2 ^ 29 := by decide
    rw [linearizeBuffers_eq hr hroot h, length_stream, streamBody_eq, streamLength]
    omega

end

/-! The command -/

/-- The state in which a LINEARIZE that gives `stream` ends. -/
def State.linearized (s : State) (count : Bool) (stream : List Byte) : State :=
  s.commit {
    mem := if count then s.mem else s.mem.writeBytes s.regs.streamOutBase.toNat stream
    results := some (streamResults stream) }

section
variable {inv count : Bool} {s : State} {r : Nat} (hready : Ready (.linearize inv count) s r)
include hready

theorem exec_linearize_error {e : CmdError} (h : linearizeBuffers s r inv = .error e) :
    ∃ t, exec (.linearize inv count) s = .next t ∧ Fails s t e.code :=
  ⟨_, runTree_error hready.1 hready.2 (by simp [h]), s.raiseError_fails e⟩

theorem exec_linearize_badTree {e : CmdError} (h : linearizeBuffers s r inv = .error e) :
    ∃ t, exec (.linearize inv count) s = .next t ∧ Fails s t 6#4 := by
  cases linearize_error h
  exact exec_linearize_error hready h

variable {stream : List Byte} (h : linearizeBuffers s r inv = .ok stream)
include h

theorem exec_linearize_capacity (hcount : count = false) (hcap : s.regs.streamOutCap.toNat < stream.length) :
    ∃ t, exec (.linearize inv count) s = .next t ∧ Fails s t 2#4 :=
  ⟨_, runTree_error hready.1 hready.2 (by simp [h, hcount, hcap]), s.raiseError_fails .capacity⟩

theorem exec_linearize (hcap : count = true ∨ stream.length ≤ s.regs.streamOutCap.toNat) :
    exec (.linearize inv count) s = .next (s.linearized count stream) := by
  refine runTree_ok hready.1 hready.2 ?_
  cases count with
  | true => simp [h]
  | false =>
    have hroom : ¬(s.regs.streamOutCap.toNat < stream.length) := by simpa using hcap
    simp [h, hroom]

theorem linearized_size : (s.linearized count stream).results.resultSize.toNat = stream.length := by
  have hr := State.one_le_of_checks_ok hready.1
  have hlt := length_linearizeBuffers_lt hr (State.dimensions_le_of_checks_ok hready.1).1 h
  exact (BitVec.toNat_ofNat _ _).trans (Nat.mod_eq_of_lt hlt)

omit h in
theorem read_linearized (hw : s.mem.wf) (hcount : count = false)
    (hcap : stream.length ≤ s.regs.streamOutCap.toNat) {j : Nat} (hj : j < stream.length) :
    (s.linearized count stream).mem.read (s.regs.streamOutBase.toNat + j) = stream.getD j 0#8 := by
  subst hcount
  have hin := State.region_inMem hready.1 (g := streamOutRegion s.regs) (by simp [regions])
  simp only [streamOutRegion] at hin
  exact Memory.read_writeBytes_add hw (by omega) hj

end

theorem linearized_info (s : State) (count : Bool) (stream : List Byte) :
    (s.linearized count stream).results.info = (stream.getD 0 0#8).extractLsb' 0 2 := by
  cases stream <;> rfl

theorem linearized_outside (s : State) (hw : s.mem.wf) {count : Bool} (hcount : count = false) (stream : List Byte) :
    SameOutside s (s.linearized count stream) s.regs.streamOutBase.toNat stream.length := by
  subst hcount
  exact fun a ha => Memory.read_writeBytes_outside hw _ _ a ha

theorem linearized_count (s : State) {count : Bool} (hcount : count = true) (stream : List Byte) :
    (s.linearized count stream).mem = s.mem := by
  subst hcount
  rfl

/-- Settles O41: the stream of a zero root is its header byte. -/
theorem linearizeTakesTheShortcut : Obligations.LinearizeTakesTheShortcut := by
  intro inv count s r ⟨hw, _, _, _⟩ hready hroot hcap
  have hstream := linearizeBuffers_shortcut (inv := inv) (State.one_le_of_checks_ok hready.1) hroot
  have hinfo := linearized_info s count [headerByte inv true]
  refine ⟨_, exec_linearize hready hstream hcap, s.commit_succeeds _, rfl, rfl, ?inv, ?shortcut,
    fun hcount => linearized_count s hcount _, fun hcount => ⟨?byte, linearized_outside s hw hcount _⟩⟩
  case inv => rw [hinfo]; cases inv <;> rfl
  case shortcut => rw [hinfo]; cases inv <;> rfl
  case byte =>
    rw [← headerByte_shortcut]
    exact read_linearized hready hw hcount (stream := [headerByte inv true]) (hcap.resolve_left (by simp [hcount]))
      Nat.one_pos

/-! The root's item -/

/-- The body starts with the item of the root. -/
theorem streamBody_root (t : Nat → Nibble) (rd : Nat → Byte) {r : Nat} (hr : 1 ≤ r) :
    ∃ rest, streamBody t rd r = (itemOf (t 0) (rd 0)).nibbles ++ rest := by
  obtain ⟨n, rfl⟩ := Nat.exists_eq_add_of_le' hr
  exact ⟨_, by rw [streamBody, List.range_succ_eq_map, List.flatMap_cons, Nat.pow_zero, levelBody_succ,
    itemNibbles_eq]; rfl⟩

/-- Settles O42: the stream is the header and the packed body, which starts with the root's item. -/
theorem linearizeWritesTheStream : Obligations.LinearizeWritesTheStream := by
  intro inv count s r stream ⟨hw, _, _, _⟩ hready h hcap
  have hr := State.one_le_of_checks_ok hready.1
  refine ⟨⟨_, exec_linearize hready h hcap, s.commit_succeeds _, rfl, linearized_size hready h, linearized_info ..,
    fun hcount => linearized_count s hcount _, fun hcount => ⟨?bytes, linearized_outside s hw hcount _⟩⟩, ?root⟩
  case bytes =>
    exact fun j hj => read_linearized hready hw hcount (hcap.resolve_left (by simp [hcount])) hj
  case root =>
    intro hroot
    obtain ⟨rest, hbody⟩ := streamBody_root (treeCode s) (rdAt s) hr
    have hnibble {k : Nat} (hk : k < (itemOf (treeCode s 0) (rdAt s 0)).nibbles.length) :
        bodyNibble stream k = (itemOf (treeCode s 0) (rdAt s 0)).nibbles.getD k 0#4 := by
      rw [linearizeBuffers_eq hr hroot h, hbody, bodyNibble_pack _ (by rw [List.length_append]; omega),
        List.getD_append _ _ _ _ hk]
    refine ⟨?header, fun hcode => ?code, fun hrun => ?run⟩
    case header =>
      rw [linearizeBuffers_eq hr hroot h, ← headerByte_body]
      rfl
    case code =>
      rw [itemOf_code _ hcode] at hnibble
      exact hnibble Nat.one_pos
    case run =>
      rw [itemOf_run _ hrun, runNibbles_eq] at hnibble
      rw [hnibble (k := 0) (by simp), hnibble (k := 1) (by simp)]
      refine ⟨rfl, ?flag, ?span, fun hv => ?value⟩
      case flag =>
        rw [List.cons_append, List.cons_append, List.getD_cons_succ, List.getD_cons_zero, runNibble_flag, bne_iff_ne]
      case span => exact runNibble_lcode _ _
      case value =>
        rw [hnibble (k := 2) (by simp [hv])]
        simp [hv]

/-- Settles O43: BADTREE is the only error of a traversal, and the capacity is checked after it. -/
theorem linearizeReportsBadTreeAndCapacity : Obligations.LinearizeReportsBadTreeAndCapacity := by
  refine ⟨fun inv count s r e hready h => exec_linearize_badTree hready h,
    fun inv s r stream hready h hcap => exec_linearize_capacity hready h rfl hcap, ?rootRun, ?childCode⟩
  case rootRun =>
    intro inv count s r hready hroot hrun h7 hpast
    have hr := State.one_le_of_checks_ok hready.1
    exact exec_linearize_badTree hready (linearizeBuffers_bad hr hroot (l := 0) (m := 0) hr Nat.one_pos
      ⟨rfl, .inr ⟨hrun, h7, by simpa using hpast⟩⟩)
  case childCode =>
    intro inv count s r q hready hr hq hbit hrun hchild
    have hroot : treeCode s 0 ≠ 0#4 := fun h0 => by simp [h0] at hbit
    have hfresh : viewSlot (treeCode s) (rdAt s) r 1 q = .fresh := by
      have hq0 : q / 4 = 0 := by omega
      have hq4 : q % 4 = q := by omega
      simp only [viewSlot, nodeView, ownView, childSlot, hq0, hq4, hbit, hrun, Bool.false_eq_true, if_true, if_false]
    refine exec_linearize_badTree hready (linearizeBuffers_bad (by omega) hroot (l := 1) (m := q) hr hq
      ⟨(emitted_iff_fresh ..).mpr hfresh, .inl ?_⟩)
    rwa [show levelBase 1 + q = child 0 q by unfold child; rfl]

/-- Settles O60: the traversal of the buffers is that of `nodeView`. -/
theorem linearizeEmitsOneItemPerEmittedNode : Obligations.LinearizeEmitsOneItemPerEmittedNode := by
  rintro inv count s r body ⟨hw, _, _, _⟩ hready hroot rfl
  have hr := State.one_le_of_checks_ok hready.1
  refine ⟨?bad, fun hok => ?good⟩
  case bad =>
    rintro ⟨l, m, hl, hm, hbad⟩
    exact exec_linearize_badTree hready (linearizeBuffers_bad hr hroot hl hm hbad)
  case good =>
    have h := linearizeBuffers_ok (inv := inv) hr hroot hok
    have hlen := length_stream inv (streamBody (treeCode s) (rdAt s) r)
    rw [← hlen]
    refine ⟨fun hcount hcap => exec_linearize_capacity hready h hcount hcap, fun hcap => ?_⟩
    refine ⟨_, exec_linearize hready h hcap, s.commit_succeeds _, rfl, linearized_size hready h,
      infoOf_headerByte_body inv, fun hcount => linearized_count s hcount _, fun hcount => ?written⟩
    case written =>
      have hbytes {j : Nat} := read_linearized hready hw hcount (hcap.resolve_left (by simp [hcount])) (j := j)
      refine ⟨?header, fun k hk => bodyAt_of_stream (fun j => hbytes) hk, fun hodd => ?pad,
        linearized_outside s hw hcount _⟩
      case header =>
        rw [← headerByte_body]
        exact hbytes (j := 0) (Nat.succ_pos _)
      case pad =>
        rw [← pack_append_pad _ hodd] at hbytes ⊢
        rw [bodyAt_of_stream (fun j => hbytes) (by simp)]
        simp

end Sys2Proof.Machine

/-!
PROOFS. DELINEARIZE (spec/44_linearizer.md R170–R175): what one item and one node read, that what decoding gives is
settled by the nibbles read and these stand in the bytes consumed, and the code invariant of decoded trees.
-/

namespace Sys2Proof.Machine

open Sys2Proof.Safety

/-! Reading nibbles (R172) -/

/-- The nibbles `ns` stand at body position `k`. -/
def Reads (next : Nat → Except CmdError Nibble) : Nat → List Nibble → Prop
  | _, [] => True
  | k, v :: ns => next k = .ok v ∧ Reads next (k + 1) ns

section
variable {next : Nat → Except CmdError Nibble}

theorem reads_append {k : Nat} {a b : List Nibble} :
    Reads next k (a ++ b) ↔ Reads next k a ∧ Reads next (k + a.length) b := by
  induction a generalizing k with
  | nil => simp [Reads]
  | cons v a ih => simp only [List.cons_append, Reads, ih, and_assoc, List.length_cons, Nat.add_assoc, Nat.add_comm 1]

theorem reads_iff {k : Nat} {ns : List Nibble} :
    Reads next k ns ↔ ∀ j, j < ns.length → next (k + j) = .ok (ns.getD j 0#4) := by
  induction ns generalizing k with
  | nil => simp [Reads]
  | cons v ns ih =>
    rw [Reads, ih]
    constructor
    · rintro ⟨h0, h⟩ j hj
      cases j with
      | zero => exact h0
      | succ j => simpa [Nat.add_assoc, Nat.add_comm 1] using h j (by simpa using hj)
    · intro h
      refine ⟨h 0 (by simp), fun j hj => ?_⟩
      simpa [Nat.add_assoc, Nat.add_comm 1] using h (j + 1) (by simpa using hj)

end

/-- next() on a stream that does not end. -/
def bodyNext (m : Memory) (b k : Nat) : Except CmdError Nibble := .ok (bodyAt m b k)

theorem reads_bodyNext_iff {m : Memory} {b : Nat} {ns : List Nibble} :
    Reads (bodyNext m b) 0 ns ↔ ∀ j, j < ns.length → bodyAt m b j = ns.getD j 0#4 := by
  simp [reads_iff, bodyNext]

theorem nextNibble_eq_ok_iff {m : Memory} {b len k : Nat} {v : Nibble} :
    nextNibble m b len k = .ok v ↔ 1 + k / 2 < len ∧ bodyAt m b k = v := by
  unfold nextNibble
  split
  · next hlen => simp [hlen.not_gt]
  · next hlen =>
    rw [← Nat.add_assoc, Except.ok.injEq]
    exact (and_iff_right (by omega)).symm

theorem nextNibble_error {m : Memory} {b len k : Nat} {e : CmdError} (h : nextNibble m b len k = .error e) :
    e = .corruptStream := by
  unfold nextNibble at h
  split at h <;> cases h
  rfl

/-- The nibbles read from a stream stand in its first `streamLength` bytes (R93, R172). -/
theorem reads_nextNibble_iff {m : Memory} {b len : Nat} {ns : List Nibble} (hlen : 1 ≤ len) :
    Reads (nextNibble m b len) 0 ns ↔
      streamLength ns.length ≤ len ∧ ∀ j, j < ns.length → bodyAt m b j = ns.getD j 0#4 := by
  simp only [reads_iff, Nat.zero_add, nextNibble_eq_ok_iff, streamLength]
  constructor
  · intro h
    refine ⟨?_, fun j hj => (h j hj).2⟩
    by_cases hns : ns.length = 0
    · omega
    · have hlast := (h (ns.length - 1) (by omega)).1
      omega
  · rintro ⟨hle, h⟩ j hj
    exact ⟨by omega, h j hj⟩

/-! One item (R89, R90, R92) -/

/-- The nibbles `ns` are an item. -/
inductive ItemReads : (ns : List Nibble) → Item → Prop
  | code (c : Nibble) : c ≠ 0#4 → ItemReads [c] (.code c)
  | runOnes (run : Nibble) : run.getLsbD 3 = false → ItemReads [0#4, run] (.run (run.extractLsb' 0 3) 0xF#4)
  | runValue (run v : Nibble) : run.getLsbD 3 = true → ItemReads [0#4, run, v] (.run (run.extractLsb' 0 3) v)

theorem ItemReads.code_ne_zero {ns : List Nibble} {c : Nibble} (h : ItemReads ns (.code c)) : c ≠ 0#4 := by
  cases h with
  | code _ hc => exact hc

/-- The nibbles emitted for an item are that item. -/
theorem itemReads_run (lcode : BitVec 3) (v : Nibble) : ItemReads (Item.run lcode v).nibbles (.run lcode v) := by
  rw [runNibbles_eq]
  by_cases hv : v = 0xF#4
  · subst hv
    have hread := ItemReads.runOnes _ (runNibble_flag false lcode)
    rwa [runNibble_lcode] at hread
  · have hread := ItemReads.runValue _ v (runNibble_flag true lcode)
    rw [runNibble_lcode] at hread
    rwa [if_neg hv, bne_iff_ne.mpr hv]

section
variable {next : Nat → Except CmdError Nibble}

theorem readItem_eq_ok_iff {k k' : Nat} {item : Item} : readItem next k = .ok (item, k') ↔
    ∃ ns, ItemReads ns item ∧ Reads next k ns ∧ k' = k + ns.length := by
  constructor
  · intro h
    unfold readItem at h
    split at h
    · cases h
    · next first h0 =>
      split at h
      · next hfirst =>
        cases h
        exact ⟨_, .code first hfirst, ⟨h0, trivial⟩, rfl⟩
      · next hfirst =>
        rw [not_not] at hfirst
        subst hfirst
        split at h
        · cases h
        · next run h1 =>
          split at h
          · next hE =>
            split at h
            · cases h
            · next v h2 =>
              cases h
              exact ⟨_, .runValue run v hE, ⟨h0, h1, h2, trivial⟩, rfl⟩
          · next hE =>
            cases h
            exact ⟨_, .runOnes run (Bool.eq_false_of_not_eq_true hE), ⟨h0, h1, trivial⟩, rfl⟩
  · rintro ⟨ns, hitem, hreads, rfl⟩
    cases hitem with
    | code c hc =>
      obtain ⟨h0, -⟩ := hreads
      simp [readItem, h0, hc]
    | runOnes run hE =>
      obtain ⟨h0, h1, -⟩ := hreads
      simp only [readItem, h0, h1, hE, ne_eq, not_true_eq_false, if_false, Bool.false_eq_true, List.length_cons,
        List.length_nil]
    | runValue run v hE =>
      obtain ⟨h0, h1, h2, -⟩ := hreads
      simp only [readItem, h0, h1, h2, hE, ne_eq, not_true_eq_false, if_false, if_true, List.length_cons,
        List.length_nil]

end

/-! One node (R170, R174) -/

/-- A node of level `l` with the given slot reads the nibbles `ns`: it gets the code `c`, and its run covers `below`
more levels. -/
inductive NodeReads (r l : Nat) : (slot : Slot) → (ns : List Nibble) → (c : Nibble) → (below : Nat) → Prop
  | absent : NodeReads r l .absent [] 0#4 0
  | covered (v : Nibble) (below : Nat) : NodeReads r l (.covered v below) [] v below
  | code {ns : List Nibble} {c : Nibble} : ItemReads ns (.code c) → NodeReads r l .fresh ns c 0
  | run {ns : List Nibble} {lcode : BitVec 3} {v : Nibble} : ItemReads ns (.run lcode v) → v ≠ 0#4 →
      l + span lcode r l ≤ r → NodeReads r l .fresh ns v (span lcode r l - 1)

section
variable {next : Nat → Except CmdError Nibble} {r l k k' below : Nat} {slot : Slot} {c : Nibble}

theorem delNode_eq_ok_iff : delNode next r l slot k = .ok (c, below, k') ↔
    ∃ ns, NodeReads r l slot ns c below ∧ Reads next k ns ∧ k' = k + ns.length := by
  constructor
  · intro h
    cases slot with
    | absent => cases h; exact ⟨[], .absent, trivial, rfl⟩
    | covered v below => cases h; exact ⟨[], .covered _ _, trivial, rfl⟩
    | fresh =>
      unfold delNode at h
      dsimp only at h
      split at h
      · cases h
      · next hread =>
        cases h
        obtain ⟨ns, hitem, hreads, hk⟩ := readItem_eq_ok_iff.mp hread
        exact ⟨ns, .code hitem, hreads, hk⟩
      · next hread =>
        split at h
        · cases h
        · next hv =>
          split at h
          · cases h
          · next hspan =>
            cases h
            obtain ⟨ns, hitem, hreads, hk⟩ := readItem_eq_ok_iff.mp hread
            exact ⟨ns, .run hitem hv (by omega), hreads, hk⟩
  · rintro ⟨ns, hnode, hreads, rfl⟩
    cases hnode with
    | absent => rfl
    | covered v below => rfl
    | code hitem => rw [delNode, readItem_eq_ok_iff.mpr ⟨ns, hitem, hreads, rfl⟩]
    | run hitem hv hspan =>
      rw [delNode, readItem_eq_ok_iff.mpr ⟨ns, hitem, hreads, rfl⟩]
      dsimp only
      rw [if_neg hv, if_neg hspan.not_gt]

theorem readItem_error (hnext : ∀ k e, next k = .error e → e = .corruptStream) {e : CmdError}
    (h : readItem next k = .error e) : e = .corruptStream := by
  unfold readItem at h
  split at h
  · next h0 => cases h; exact hnext _ _ h0
  · split at h
    · cases h
    · split at h
      · next h1 => cases h; exact hnext _ _ h1
      · split at h
        · split at h
          · next h2 => cases h; exact hnext _ _ h2
          · cases h
        · cases h

theorem delNode_error (hnext : ∀ k e, next k = .error e → e = .corruptStream) {e : CmdError}
    (h : delNode next r l slot k = .error e) : e = .corruptStream := by
  cases slot with
  | absent => cases h
  | covered v below => cases h
  | fresh =>
    unfold delNode at h
    dsimp only at h
    split at h
    · next hitem => cases h; exact readItem_error hnext hitem
    · cases h
    · split at h
      · cases h; rfl
      · split at h <;> cases h
        rfl

end

/-! One level -/

section
variable {next : Nat → Except CmdError Nibble} {r l : Nat}

theorem delSlots_append (a b : List Slot) (k : Nat) : delSlots next r l (a ++ b) k =
    (delSlots next r l a k).bind fun x => (delSlots next r l b x.2.2).map fun y =>
      (x.1 ++ y.1, x.2.1 ++ y.2.1, y.2.2) := by
  induction a generalizing k with
  | nil =>
    simp only [List.nil_append, delSlots, Except.bind]
    cases delSlots next r l b k <;> rfl
  | cons slot a ih =>
    simp only [List.cons_append, delSlots, ih]
    cases delNode next r l slot k with
    | error e => rfl
    | ok x =>
      dsimp only
      cases delSlots next r l a x.2.2 with
      | error e => rfl
      | ok y =>
        simp only [Except.bind]
        cases delSlots next r l b y.2.2 with
        | error e => rfl
        | ok z => simp [Except.map]

theorem delSlots_singleton (slot : Slot) (k : Nat) : delSlots next r l [slot] k =
    (delNode next r l slot k).map fun x => ([x.1], childSlots x.1 x.2.1, x.2.2) := by
  simp only [delSlots]
  cases delNode next r l slot k with
  | error e => rfl
  | ok x => simp [Except.map]

variable {slots : List Slot} {k k' : Nat} {cs : List Nibble} {kids : List Slot}

/-- The first node of a level that decodes, and the others. -/
theorem delSlots_cons_ok {slot : Slot} (h : delSlots next r l (slot :: slots) k = .ok (cs, kids, k')) :
    ∃ ns c below cs' kids', NodeReads r l slot ns c below ∧ Reads next k ns ∧
      delSlots next r l slots (k + ns.length) = .ok (cs', kids', k') ∧
      cs = c :: cs' ∧ kids = childSlots c below ++ kids' := by
  unfold delSlots at h
  split at h
  · cases h
  · next c below _ hnode =>
    obtain ⟨ns, hslot, hreads, rfl⟩ := delNode_eq_ok_iff.mp hnode
    split at h
    · cases h
    · next hrest =>
      cases h
      exact ⟨ns, c, below, _, _, hslot, hreads, hrest, rfl, rfl⟩

/-- What a level gives, it gives to any reader of the nibbles it took. -/
theorem delSlots_reads (h : delSlots next r l slots k = .ok (cs, kids, k')) :
    ∃ ns, Reads next k ns ∧ k' = k + ns.length ∧
      ∀ next', Reads next' k ns → delSlots next' r l slots k = .ok (cs, kids, k') := by
  induction slots generalizing k cs kids k' with
  | nil => cases h; exact ⟨[], trivial, rfl, fun _ _ => rfl⟩
  | cons slot slots ih =>
    obtain ⟨ns, c, below, cs', kids', hslot, hreads, hrest, rfl, rfl⟩ := delSlots_cons_ok h
    obtain ⟨ns', hreads', rfl, hall⟩ := ih hrest
    refine ⟨ns ++ ns', reads_append.mpr ⟨hreads, hreads'⟩, by rw [List.length_append, Nat.add_assoc], ?_⟩
    intro next' hnext'
    obtain ⟨hnext, hnext'⟩ := reads_append.mp hnext'
    rw [delSlots, delNode_eq_ok_iff.mpr ⟨ns, hslot, hnext, rfl⟩]
    dsimp only
    rw [hall next' hnext']

theorem delSlots_append_ok {a b : List Slot} (h : delSlots next r l (a ++ b) k = .ok (cs, kids, k')) :
    ∃ x y, delSlots next r l a k = .ok x ∧ delSlots next r l b x.2.2 = .ok y ∧ y.2.2 = k' := by
  rw [delSlots_append] at h
  cases ha : delSlots next r l a k with
  | error e => rw [ha] at h; cases h
  | ok x =>
    rw [ha, Except.bind] at h
    cases hb : delSlots next r l b x.2.2 with
    | error e => rw [hb] at h; cases h
    | ok y =>
      rw [hb] at h
      cases h
      exact ⟨x, y, rfl, hb, rfl⟩

/-- Node i of a level: its code, and the slots of its children. -/
theorem delSlots_node (h : delSlots next r l slots k = .ok (cs, kids, k')) {i : Nat} (hi : i < slots.length) :
    ∃ ns below, NodeReads r l (slots.getD i .absent) ns (cs.getD i 0#4) below ∧
      ∀ q, q < 4 → kids.getD (4 * i + q) .absent = childSlot (cs.getD i 0#4) below q := by
  induction slots generalizing k cs kids k' i with
  | nil => simp at hi
  | cons slot slots ih =>
    obtain ⟨ns, c, below, cs', kids', hslot, -, hrest, rfl, rfl⟩ := delSlots_cons_ok h
    cases i with
    | zero =>
      refine ⟨ns, below, hslot, fun q hq => ?_⟩
      rw [childSlots_eq, List.getD_append _ _ _ _ (by simpa using hq)]
      simp [hq]
    | succ i =>
      obtain ⟨ns', below', hslot', hkids⟩ := ih hrest (by simpa using hi)
      refine ⟨ns', below', hslot', fun q hq => ?_⟩
      rw [List.getD_append_right _ _ _ _ (by rw [length_childSlots]; omega), length_childSlots,
        show 4 * (i + 1) + q - 4 = 4 * i + q by omega, List.getD_cons_succ]
      exact hkids q hq

theorem delSlots_error (hnext : ∀ k e, next k = .error e → e = .corruptStream) {e : CmdError}
    (h : delSlots next r l slots k = .error e) : e = .corruptStream := by
  induction slots generalizing k with
  | nil => cases h
  | cons slot slots ih =>
    unfold delSlots at h
    split at h
    · next hnode => cases h; exact delNode_error hnext hnode
    · split at h
      · next hrest => cases h; exact ih hrest
      · cases h

end

/-! All levels -/

section
variable {next : Nat → Except CmdError Nibble} {r n l : Nat} {slots : List Slot} {k k' : Nat} {cs : List Nibble}

/-- The levels from l on, the first of them apart. -/
theorem delLevels_succ_ok (h : delLevels next r (n + 1) l slots k = .ok (cs, k')) :
    ∃ cs0 kids k0 cs1, delSlots next r l slots k = .ok (cs0, kids, k0) ∧
      delLevels next r n (l + 1) kids k0 = .ok (cs1, k') ∧ cs = cs0 ++ cs1 := by
  unfold delLevels at h
  split at h
  · cases h
  · next hlevel =>
    split at h
    · cases h
    · next hrest => cases h; exact ⟨_, _, _, _, hlevel, hrest, rfl⟩

theorem delLevels_succ_of_delSlots {cs0 : List Nibble} {kids : List Slot} {k0 : Nat}
    (h : delSlots next r l slots k = .ok (cs0, kids, k0)) : delLevels next r (n + 1) l slots k =
      (delLevels next r n (l + 1) kids k0).map fun x => (cs0 ++ x.1, x.2) := by
  rw [delLevels, h]
  dsimp only
  cases delLevels next r n (l + 1) kids k0 <;> rfl

theorem delLevels_reads (h : delLevels next r n l slots k = .ok (cs, k')) :
    ∃ ns, Reads next k ns ∧ k' = k + ns.length ∧
      ∀ next', Reads next' k ns → delLevels next' r n l slots k = .ok (cs, k') := by
  induction n generalizing l slots k cs k' with
  | zero => cases h; exact ⟨[], trivial, rfl, fun _ _ => rfl⟩
  | succ n ih =>
    obtain ⟨cs0, kids, k0, cs1, hlevel, hrest, rfl⟩ := delLevels_succ_ok h
    obtain ⟨ns, hreads, rfl, hall⟩ := delSlots_reads hlevel
    obtain ⟨ns', hreads', rfl, hall'⟩ := ih hrest
    refine ⟨ns ++ ns', reads_append.mpr ⟨hreads, hreads'⟩, by rw [List.length_append, Nat.add_assoc], ?_⟩
    intro next' hnext'
    obtain ⟨hnext, hnext'⟩ := reads_append.mp hnext'
    rw [delLevels_succ_of_delSlots (hall next' hnext), hall' next' hnext']
    rfl

theorem delLevels_error (hnext : ∀ k e, next k = .error e → e = .corruptStream) {e : CmdError}
    (h : delLevels next r n l slots k = .error e) : e = .corruptStream := by
  induction n generalizing l slots k with
  | zero => cases h
  | succ n ih =>
    unfold delLevels at h
    split at h
    · next hlevel => cases h; exact delSlots_error hnext hlevel
    · split at h
      · next hrest => cases h; exact ih hrest
      · cases h

end

/-! The stream (R170–R173) -/

/-- A body that starts with the nibbles `ns` decodes to `tree`, and no other nibble is read. -/
def DecodesTo (r : Nat) (ns tree : List Nibble) : Prop :=
  ∀ next, Reads next 0 ns → delLevels next r r 0 rootSlots 0 = .ok (tree, ns.length)

section
variable {m : Memory} {b len r : Nat} {d : Decoded}

theorem delinearize_shortcut_iff (hsc : (m.read b).getLsbD 1 = true) : delinearize m b len r = .ok d ↔
    1 ≤ len ∧ d = { tree := List.replicate (nodeCount r) 0#4, hdr := m.read b, consumed := 1 } := by
  unfold delinearize
  split
  · next hlen => simp [hlen]
  · next hlen =>
    dsimp only
    rw [if_pos hsc, Except.ok.injEq, eq_comm]
    exact (and_iff_right (by omega)).symm

theorem delinearize_body_iff (hsc : (m.read b).getLsbD 1 = false) : delinearize m b len r = .ok d ↔
    ∃ ns, DecodesTo r ns d.tree ∧ streamLength ns.length ≤ len ∧
      (∀ j, j < ns.length → bodyAt m b j = ns.getD j 0#4) ∧
      d.hdr = m.read b ∧ d.consumed = streamLength ns.length := by
  have hbody : len ≠ 0 → delinearize m b len r =
      (delLevels (nextNibble m b len) r r 0 rootSlots 0).map fun x => ⟨x.1, m.read b, 1 + (x.2 + 1) / 2⟩ := by
    intro hlen
    rw [delinearize, if_neg hlen]
    dsimp only
    rw [if_neg (Bool.eq_false_iff.mp hsc)]
    cases delLevels (nextNibble m b len) r r 0 rootSlots 0 <;> rfl
  constructor
  · intro h
    by_cases hlen : len = 0
    · rw [delinearize, if_pos hlen] at h
      cases h
    rw [hbody hlen] at h
    cases hlevels : delLevels (nextNibble m b len) r r 0 rootSlots 0 with
    | error e => rw [hlevels] at h; cases h
    | ok x =>
      rw [hlevels] at h
      obtain ⟨tree, k⟩ := x
      cases h
      obtain ⟨ns, hreads, hk, hall⟩ := delLevels_reads hlevels
      rw [Nat.zero_add] at hk
      subst hk
      obtain ⟨hle, hat⟩ := (reads_nextNibble_iff (by omega)).mp hreads
      exact ⟨ns, hall, hle, hat, rfl, rfl⟩
  · rintro ⟨ns, hdec, hle, hat, hhdr, hcons⟩
    have hlen : 1 ≤ len := by unfold streamLength at hle; omega
    rw [hbody (by omega), hdec _ ((reads_nextNibble_iff hlen).mpr ⟨hle, hat⟩)]
    obtain ⟨tree, hdr, consumed⟩ := d
    cases hhdr
    cases hcons
    rfl

theorem delinearize_hdr (h : delinearize m b len r = .ok d) : d.hdr = m.read b := by
  cases hsc : (m.read b).getLsbD 1 with
  | true => rw [((delinearize_shortcut_iff hsc).mp h).2]
  | false =>
    obtain ⟨ns, -, -, -, hhdr, -⟩ := (delinearize_body_iff hsc).mp h
    exact hhdr

theorem delinearize_error {e : CmdError} (h : delinearize m b len r = .error e) : e = .corruptStream := by
  unfold delinearize at h
  split at h
  · cases h; rfl
  · dsimp only at h
    split at h
    · cases h
    · split at h
      · next hlevels => cases h; exact delLevels_error (fun _ _ => nextNibble_error) hlevels
      · cases h

/-- A stream that does not decode is CorruptStream. -/
theorem delinearize_corrupt (h : ∀ d, delinearize m b len r ≠ .ok d) :
    delinearize m b len r = .error .corruptStream := by
  cases hd : delinearize m b len r with
  | error e => rw [delinearize_error hd]
  | ok d => exact absurd hd (h d)

end

/-- Settles O47: a body is decided by the nibbles read, which stand in the bytes consumed. -/
theorem decodingDependsOnlyOnConsumedBytes : Obligations.DecodingDependsOnlyOnConsumedBytes := by
  intro m m' b len len' r d h
  cases hsc : (m.read b).getLsbD 1 with
  | true =>
    obtain ⟨hlen, rfl⟩ := (delinearize_shortcut_iff hsc).mp h
    refine ⟨le_rfl, hlen, fun hlen' hbytes => ?_⟩
    have hhdr := hbytes b le_rfl (by simp)
    exact (delinearize_shortcut_iff (hhdr ▸ hsc)).mpr ⟨hlen', by rw [hhdr]⟩
  | false =>
    obtain ⟨ns, hdec, hle, hat, hhdr, hcons⟩ := (delinearize_body_iff hsc).mp h
    rw [hcons]
    refine ⟨Nat.le_add_right _ _, hle, fun hle' hbytes => ?_⟩
    have hhdr' := hbytes b le_rfl (by unfold streamLength; omega)
    refine (delinearize_body_iff (hhdr' ▸ hsc)).mpr ⟨ns, hdec, hle', fun j hj => ?_, hhdr.trans hhdr'.symm, hcons⟩
    have hbyte := hbytes (b + 1 + j / 2) (by omega) (by unfold streamLength; omega)
    rw [← hat j hj, bodyAt, nibbleAt, hbyte]

/-! Decoded trees (R175) -/

theorem childSlot_eq_absent_iff (c : Nibble) (below q : Nat) :
    childSlot c below q = .absent ↔ c.getLsbD q = false := by
  unfold childSlot
  split
  · next hbit => split <;> simp [hbit]
  · next hbit => exact iff_of_true rfl (Bool.eq_false_of_not_eq_true hbit)

/-- A run covers only nodes of a nonzero code: its children have a bit set. -/
theorem ne_zero_of_childSlot_covered {c v : Nibble} {below below' q : Nat}
    (h : childSlot c below q = .covered v below') : v ≠ 0#4 := by
  unfold childSlot at h
  split at h
  · next hbit =>
    split at h <;> cases h
    rintro rfl
    simp at hbit
  · cases h

/-- The runs over the nodes of a level have nonzero fill values. -/
def FillsNonzero (slots : List Slot) : Prop :=
  ∀ i v below, i < slots.length → slots.getD i .absent = .covered v below → v ≠ 0#4

/-- A node is absent iff its code is 0. -/
theorem NodeReads.eq_zero_iff {r l below : Nat} {slot : Slot} {ns : List Nibble} {c : Nibble}
    (h : NodeReads r l slot ns c below) (hfill : ∀ v below, slot = .covered v below → v ≠ 0#4) :
    c = 0#4 ↔ slot = .absent := by
  cases h with
  | absent => simp
  | covered _ _ => simpa using hfill _ _ rfl
  | code hitem => simpa using hitem.code_ne_zero
  | run hitem hv hspan => simpa using hv

section
variable {next : Nat → Except CmdError Nibble} {r n l : Nat} {slots : List Slot} {k k' : Nat} {cs : List Nibble}

/-- The slots of the next level: child q of node i is absent iff bit q of its code is 0. -/
theorem delSlots_kids {kids : List Slot} (h : delSlots next r l slots k = .ok (cs, kids, k')) :
    FillsNonzero kids ∧ ∀ i q, i < slots.length → q < 4 →
      (kids.getD (4 * i + q) .absent = .absent ↔ (cs.getD i 0#4).getLsbD q = false) := by
  refine ⟨fun j v below hj hslot => ?_, fun i q hi hq => ?_⟩
  · have hlen := (length_delSlots h).2
    obtain ⟨ns, b, -, hkids⟩ := delSlots_node h (i := j / 4) (by omega)
    have hkid := hkids (j % 4) (by omega)
    rw [Nat.div_add_mod, hslot] at hkid
    exact ne_zero_of_childSlot_covered hkid.symm
  · obtain ⟨ns, b, -, hkids⟩ := delSlots_node h hi
    rw [hkids q hq, childSlot_eq_absent_iff]

/-- The code invariant of the levels from `l` on: node j of them has its children `slots.length + 4j` further. -/
theorem delLevels_codes (hfill : FillsNonzero slots) (h : delLevels next r n l slots k = .ok (cs, k')) :
    (∀ i, i < slots.length → i < cs.length → (cs.getD i 0#4 = 0#4 ↔ slots.getD i .absent = .absent)) ∧
    ∀ j q, q < 4 → slots.length + (4 * j + q) < cs.length →
      ((cs.getD j 0#4).getLsbD q = false ↔ cs.getD (slots.length + (4 * j + q)) 0#4 = 0#4) := by
  induction n generalizing l slots k cs with
  | zero =>
    cases h
    refine ⟨fun i _ hi => ?_, fun j q _ hj => ?_⟩
    · simp at hi
    · simp at hj
  | succ n ih =>
    obtain ⟨cs0, kids, k0, cs1, hlevel, hrest, rfl⟩ := delLevels_succ_ok h
    obtain ⟨hcs, hkidsLen⟩ := length_delSlots hlevel
    obtain ⟨hkidsFill, hkids⟩ := delSlots_kids hlevel
    obtain ⟨hfirst, hbelow⟩ := ih hkidsFill hrest
    refine ⟨fun i hi _ => ?level, fun j q hq hj => ?below⟩
    case level =>
      obtain ⟨ns, below, hnode, -⟩ := delSlots_node hlevel hi
      rw [List.getD_append _ _ _ _ (by omega)]
      exact hnode.eq_zero_iff fun v below => hfill i v below hi
    case below =>
      rw [List.length_append, hcs] at hj
      rw [List.getD_append_right _ _ _ (slots.length + (4 * j + q)) (by omega), hcs, Nat.add_sub_cancel_left]
      by_cases hlast : j < slots.length
      · rw [List.getD_append _ _ _ j (by omega), hfirst _ (by omega) (by omega)]
        exact (hkids j q hlast hq).symm
      · rw [List.getD_append_right _ _ _ j (by omega), hcs]
        have hstep := hbelow (j - slots.length) q hq (by omega)
        rwa [show kids.length + (4 * (j - slots.length) + q) = 4 * j + q by omega] at hstep

end

theorem nodeAt_replicate_zero (n i : Nat) : nodeAt (List.replicate n 0#4) i = 0#4 := by
  rw [nodeAt, List.getD_eq_getElem?_getD, List.getElem?_replicate]
  split <;> rfl

/-- Settles O46: a node is absent, with code 0, iff its bit in its parent is 0. -/
theorem decodedTreesKeepTheCodeInvariant : Obligations.DecodedTreesKeepTheCodeInvariant := by
  intro m b len r d hr h
  have hlen := length_delinearize h
  have hpos := levelBase_add_lt (l := 0) (m := 0) hr Nat.one_pos
  refine ⟨hlen, ?_⟩
  cases hsc : (m.read b).getLsbD 1 with
  | true =>
    obtain ⟨-, rfl⟩ := (delinearize_shortcut_iff hsc).mp h
    simp [nodeAt_replicate_zero]
  | false =>
    obtain ⟨ns, hdec, -, hat, -, -⟩ := (delinearize_body_iff hsc).mp h
    have hroot : FillsNonzero rootSlots := by
      intro i v below hi hslot
      obtain rfl : i = 0 := by simpa [rootSlots] using hi
      cases hslot
    obtain ⟨hfirst, hbelow⟩ := delLevels_codes hroot (hdec _ (reads_bodyNext_iff.mpr hat))
    refine ⟨?_, fun i q hq hc => ?_⟩
    · have hzero : nodeAt d.tree 0 = 0#4 ↔ _ := hfirst 0 Nat.one_pos (by omega)
      rw [hzero]
      simp [rootSlots]
    · have hchild : child i q = rootSlots.length + (4 * i + q) := by
        simp only [child, rootSlots, List.length_singleton]
        omega
      have hbit := hbelow i q hq (by rw [hlen, ← hchild]; exact hc)
      rw [hchild]
      rw [← not_iff_not, Bool.not_eq_true, not_ne_iff]
      exact hbit

end Sys2Proof.Machine

/-!
PROOFS. Decoding the items of a traversal (spec/44_linearizer.md R161–R164): the walk of DELINEARIZE holds the slots of
`nodeView` and gives its codes, and a body decodes only with an item at each node that takes one.
-/

namespace Sys2Proof.Machine

open Sys2Proof.Safety

/-! The effective tree (R161, R162) -/

/-- The codes of the levels before `l` of the effective tree (R161, R162). -/
def viewCodes (tree : Nat → Nibble) (rd : Nat → Byte) (r l : Nat) : List Nibble :=
  (List.range l).flatMap fun k => (List.range (4 ^ k)).map fun m => (nodeView tree rd r k m).code

section
variable {tree : Nat → Nibble} {rd : Nat → Byte} {r : Nat}

theorem viewCodes_succ (l : Nat) : viewCodes tree rd r (l + 1) =
    viewCodes tree rd r l ++ (List.range (4 ^ l)).map fun m => (nodeView tree rd r l m).code := by
  simp [viewCodes, List.range_succ]

theorem nodeAt_viewCodes {l m : Nat} (hl : l < r) (hm : m < 4 ^ l) :
    nodeAt (viewCodes tree rd r r) (levelBase l + m) = (nodeView tree rd r l m).code :=
  getD_levels (fun l m => (nodeView tree rd r l m).code) 0#4 hl hm

/-- A node of nonzero code whose run, if any, stops at the leaf level reads the item emitted for it. -/
theorem nodeReads_itemOf {l : Nat} {c : Nibble} (hc : c ≠ 0#4) {d : Byte}
    (hspan : d.getLsbD 4 = true → l + span (d.extractLsb' 5 3) r l ≤ r) :
    NodeReads r l .fresh (itemOf c d).nibbles c (if d.getLsbD 4 then span (d.extractLsb' 5 3) r l - 1 else 0) := by
  by_cases hd : d.getLsbD 4 = true
  · rw [itemOf_run c hd, if_pos hd]
    exact .run (itemReads_run _ c) hc (hspan hd)
  · rw [itemOf_code c (Bool.eq_false_of_not_eq_true hd), if_neg hd]
    exact .code (.code c hc)

/-- A node that is no node of R165 reads what the traversal emits for it. -/
theorem nodeReads_view {l m : Nat} (hl : l < r) (hok : ¬badNode tree rd r l m) :
    NodeReads r l (viewSlot tree rd r l m) (itemNibbles tree rd r l m) (nodeView tree rd r l m).code
      (nodeView tree rd r l m).below := by
  rw [badNode_iff tree rd r hl] at hok
  rw [nodeView_eq_slotView, itemNibbles_eq]
  cases hs : viewSlot tree rd r l m with
  | absent => exact .absent
  | covered v below => exact .covered v below
  | fresh =>
    refine nodeReads_itemOf (fun hc => hok ⟨hs, .inl hc⟩) fun hd => ?_
    by_contra hspan
    exact hok ⟨hs, .inr ⟨hd, by omega⟩⟩

variable {next : Nat → Except CmdError Nibble}

theorem delSlots_view {l m k : Nat} (hl : l < r) (hok : ∀ q, q < m → ¬badNode tree rd r l q)
    (hreads : Reads next k (levelBody tree rd r l m)) :
    delSlots next r l (viewSlots tree rd r l m) k =
      .ok ((List.range m).map fun q => (nodeView tree rd r l q).code, viewSlots tree rd r (l + 1) (4 * m),
        k + (levelBody tree rd r l m).length) := by
  induction m with
  | zero => rfl
  | succ m ih =>
    rw [levelBody_succ] at hreads ⊢
    obtain ⟨hbefore, hitem⟩ := reads_append.mp hreads
    rw [viewSlots_succ, delSlots_append, ih (fun q hq => hok q (by omega)) hbefore, Except.bind, delSlots_singleton,
      delNode_eq_ok_iff.mpr ⟨_, nodeReads_view hl (hok m (by omega)), hitem, rfl⟩, viewSlots_children,
      List.range_succ, List.map_append, List.length_append, ← Nat.add_assoc]
    rfl

/-- After the levels above `l`, their codes are given and the walk holds the slots of level `l`. -/
theorem delLevels_view {l : Nat} (hl : l ≤ r) (hok : ∀ k q, k < l → q < 4 ^ k → ¬badNode tree rd r k q)
    (hreads : Reads next 0 (bodyBefore tree rd r l 0)) :
    delLevels next r r 0 rootSlots 0 =
      (delLevels next r (r - l) l (viewSlots tree rd r l (4 ^ l)) (bodyBefore tree rd r l 0).length).map fun x =>
        (viewCodes tree rd r l ++ x.1, x.2) := by
  induction l with
  | zero =>
    rw [bodyBefore_zero, Nat.sub_zero, Nat.pow_zero, viewSlots_root]
    show delLevels next r r 0 rootSlots 0 = (delLevels next r r 0 rootSlots 0).map _
    cases delLevels next r r 0 rootSlots 0 <;> rfl
  | succ l ih =>
    rw [bodyBefore_succ, bodyBefore_eq] at hreads ⊢
    obtain ⟨hbefore, hlevel⟩ := reads_append.mp hreads
    rw [Nat.zero_add] at hlevel
    rw [ih (by omega) (fun k q hk hq => hok k q (by omega) hq) hbefore, show r - l = r - (l + 1) + 1 by omega,
      delLevels_succ_of_delSlots (delSlots_view hl (fun q hq => hok l q (by omega) hq) hlevel), viewCodes_succ,
      List.length_append, Nat.pow_succ, Nat.mul_comm (4 ^ l)]
    cases delLevels next r (r - (l + 1)) (l + 1) (viewSlots tree rd r (l + 1) (4 * 4 ^ l))
        ((bodyBefore tree rd r l 0).length + (levelBody tree rd r l (4 ^ l)).length) with
    | error e => rfl
    | ok x => simp [Except.map]

/-- The body of a traversal without a node of R165 decodes to its effective tree. -/
theorem streamBody_decodesTo (hok : ∀ l m, l < r → m < 4 ^ l → ¬badNode tree rd r l m) :
    DecodesTo r (streamBody tree rd r) (viewCodes tree rd r r) := by
  intro next hreads
  rw [streamBody_eq] at hreads ⊢
  rw [delLevels_view le_rfl hok hreads, Nat.sub_self]
  simp [delLevels, Except.map]

theorem viewSlots_split (tree : Nat → Nibble) (rd : Nat → Byte) (r l : Nat) {p n : Nat} (hp : p < n) :
    ∃ rest, viewSlots tree rd r l n = viewSlots tree rd r l p ++ viewSlot tree rd r l p :: rest := by
  obtain ⟨k, rfl⟩ := Nat.exists_eq_add_of_le hp
  exact ⟨_, by rw [viewSlots, List.range_add, List.map_append, ← viewSlots, viewSlots_succ, List.append_assoc]; rfl⟩

/-- What a decoded body holds after the items of the nodes before one that takes an item: an item of that node. -/
theorem nodeReads_of_delLevels {l p : Nat} {codes : List Nibble} {kEnd : Nat} (hl : l < r) (hp : p < 4 ^ l)
    (hok : ∀ j q, (j < l ∧ q < 4 ^ j) ∨ (j = l ∧ q < p) → ¬badNode tree rd r j q)
    (hreads : Reads next 0 (bodyBefore tree rd r l p))
    (h : delLevels next r r 0 rootSlots 0 = .ok (codes, kEnd)) :
    ∃ ns c below, NodeReads r l (viewSlot tree rd r l p) ns c below ∧
      Reads next (bodyBefore tree rd r l p).length ns ∧ (bodyBefore tree rd r l p).length + ns.length ≤ kEnd := by
  rw [bodyBefore_eq] at hreads ⊢
  obtain ⟨hbefore, hlevel⟩ := reads_append.mp hreads
  rw [Nat.zero_add] at hlevel
  rw [delLevels_view hl.le (fun j q hj hq => hok j q (.inl ⟨hj, hq⟩)) hbefore] at h
  cases hrest : delLevels next r (r - l) l (viewSlots tree rd r l (4 ^ l)) (bodyBefore tree rd r l 0).length with
  | error e => rw [hrest] at h; cases h
  | ok x =>
    rw [hrest] at h
    obtain ⟨cs, k'⟩ := x
    cases h
    rw [show r - l = r - (l + 1) + 1 by omega] at hrest
    obtain ⟨cs0, kids, k0, cs1, hslots, hdeeper, -⟩ := delLevels_succ_ok hrest
    obtain ⟨nsDeeper, -, rfl, -⟩ := delLevels_reads hdeeper
    obtain ⟨restSlots, hsplit⟩ := viewSlots_split tree rd r l hp
    rw [hsplit] at hslots
    obtain ⟨x, ⟨cs', kids', _⟩, hx, hnode, rfl⟩ := delSlots_append_ok hslots
    rw [delSlots_view hl (fun q hq => hok l q (.inr ⟨rfl, hq⟩)) hlevel] at hx
    cases hx
    obtain ⟨ns, c, below, _, _, hread, hns, hrest, -, -⟩ := delSlots_cons_ok hnode
    obtain ⟨nsRest, -, rfl, -⟩ := delSlots_reads hrest
    rw [List.length_append]
    exact ⟨ns, c, below, hread, hns, by dsimp only; omega⟩

end

/-! The root of a decoded tree -/

/-- What the first item makes of the root and, where it is a run of two levels or more, of the root's children. -/
theorem decodesTo_root {r : Nat} (hr : 1 ≤ r) {ns tree : List Nibble} (hdec : DecodesTo r ns tree) {m : Memory}
    {b : Nat} (hat : ∀ j, j < ns.length → bodyAt m b j = ns.getD j 0#4) :
    ∃ item below, NodeReads r 0 .fresh item (nodeAt tree 0) below ∧ Reads (bodyNext m b) 0 item ∧
      (0 < below → 2 ≤ r → ∀ q, q < 4 → (nodeAt tree 0).getLsbD q = true →
        nodeAt tree (child 0 q) = nodeAt tree 0) ∧
      (r = 1 → ns.length = item.length) := by
  obtain ⟨n, rfl⟩ := Nat.exists_eq_add_of_le' hr
  obtain ⟨cs0, kids, k0, cs1, hroot, hrest, rfl⟩ := delLevels_succ_ok (hdec _ (reads_bodyNext_iff.mpr hat))
  obtain ⟨item, c, below, _, _, hread, hitem, hend, rfl, rfl⟩ := delSlots_cons_ok hroot
  cases hend
  rw [List.append_nil] at hrest
  refine ⟨item, below, hread, hitem, fun hbelow hr2 q hq hbit => ?children, fun hr1 => ?length⟩
  case children =>
    obtain ⟨n, rfl⟩ := Nat.exists_eq_add_of_le' (show 1 ≤ n by omega)
    obtain ⟨cs2, kids2, k2, cs3, hlevel, -, rfl⟩ := delLevels_succ_ok hrest
    have hlen := (length_delSlots hlevel).1
    rw [length_childSlots] at hlen
    obtain ⟨_, _, hchild, -⟩ := delSlots_node hlevel (i := q) (by rwa [length_childSlots])
    have hslot : (childSlots c below).getD q .absent = .covered c (below - 1) := by
      have hbit : c.getLsbD q = true := hbit
      simp [childSlots_eq, hq, childSlot, hbit, hbelow.ne']
    rw [hslot] at hchild
    rw [show child 0 q = q + 1 by unfold child; omega]
    show (cs2 ++ cs3).getD q 0#4 = c
    rw [List.getD_append _ _ _ _ (by omega)]
    cases hchild
    rfl
  case length =>
    obtain rfl : n = 0 := by omega
    have hk : 0 + item.length = ns.length := (Prod.mk.inj (Except.ok.inj hrest)).2
    omega

end Sys2Proof.Machine

/-!
PROOFS. The command DELINEARIZE (spec/44_linearizer.md R170–R174): what it writes, its result registers, and the streams
that are CorruptStream.
-/

namespace Sys2Proof.Machine

open Sys2Proof.Safety

/-! The command -/

/-- The state in which a ready DELINEARIZE of a stream that decodes ends. -/
def State.delinearized (s : State) (d : Decoded) : State :=
  s.commit { mem := writeTree s.mem s.regs.treeBase.toNat d.tree, results := some (decodedResults d) }

section
variable {s : State} {r : Nat} {d : Decoded} (hready : Ready .delinearize s r) (h : delinearizeBuffer s r = .ok d)
include hready h

theorem exec_delinearize : exec .delinearize s = .next (s.delinearized d) :=
  runTree_ok hready.1 hready.2 (by simp [h])

theorem treeCode_delinearized (hw : s.mem.wf) {i : Nat} (hi : i ≤ nodeCount r) :
    treeCode (s.delinearized d) i = nodeAt d.tree i :=
  nibRead_writeTree hw (length_delinearize h) (State.one_le_of_checks_ok hready.1)
    (State.region_inMem hready.1 (g := treeRegion s.regs r true) (by simp [regions])) hi

theorem treeCode_delinearized_pad (hw : s.mem.wf) : treeCode (s.delinearized d) (nodeCount r) = 0#4 := by
  rw [treeCode_delinearized hready h hw le_rfl]
  exact List.getD_eq_default _ _ (length_delinearize h).le

theorem delinearized_outside (hw : s.mem.wf) :
    SameOutside s (s.delinearized d) s.regs.treeBase.toNat ((nodeCount r + 1) / 2) :=
  fun _ ha => read_writeTree_outside hw (length_delinearize h) (State.one_le_of_checks_ok hready.1) ha

omit hready in
theorem delinearized_size : (s.delinearized d).results.resultSize.toNat = d.consumed := by
  obtain ⟨-, hle, -⟩ := decodingDependsOnlyOnConsumedBytes s.mem s.mem _ _ 0 r d h
  exact (BitVec.toNat_ofNat _ _).trans (Nat.mod_eq_of_lt (hle.trans_lt s.regs.streamInLen.isLt))

omit hready in
theorem delinearized_info : (s.delinearized d).results.info =
    (s.mem.read s.regs.streamInBase.toNat).extractLsb' 0 2 :=
  congrArg infoOf (delinearize_hdr h)

end

theorem exec_delinearize_error {s : State} {r : Nat} (hready : Ready .delinearize s r) {e : CmdError}
    (h : delinearizeBuffer s r = .error e) : ∃ t, exec .delinearize s = .next t ∧ Fails s t e.code :=
  ⟨_, runTree_error hready.1 hready.2 (by simp [h]), s.raiseError_fails e⟩

/-! What the first item makes of the tree -/

/-- What stands in the body where a node that takes an item finds it: a code, or a run. -/
theorem nodeReads_body {m : Memory} {b r l k : Nat} {ns : List Nibble} {c : Nibble} {below : Nat}
    (hread : NodeReads r l .fresh ns c below) (hns : Reads (bodyNext m b) k ns) :
    (bodyAt m b k ≠ 0#4 ∧ c = bodyAt m b k ∧ below = 0 ∧ ns.length = 1) ∨
    (bodyAt m b k = 0#4 ∧ c = (if (bodyAt m b (k + 1)).getLsbD 3 then bodyAt m b (k + 2) else 0xF#4) ∧ c ≠ 0#4 ∧
      l + span ((bodyAt m b (k + 1)).extractLsb' 0 3) r l ≤ r ∧
      below = span ((bodyAt m b (k + 1)).extractLsb' 0 3) r l - 1 ∧
      ns.length = if (bodyAt m b (k + 1)).getLsbD 3 then 3 else 2) := by
  cases hread with
  | code hitem =>
    cases hitem with
    | code c hc =>
      obtain ⟨h0, -⟩ := hns
      rw [Except.ok.inj h0]
      exact .inl ⟨hc, rfl, rfl, rfl⟩
  | run hitem hv hspan =>
    cases hitem with
    | runOnes run hE =>
      obtain ⟨h0, h1, -⟩ := hns
      rw [Except.ok.inj h0, Except.ok.inj h1, hE]
      exact .inr ⟨rfl, rfl, hv, hspan, rfl, rfl⟩
    | runValue run v hE =>
      obtain ⟨h0, h1, h2, -⟩ := hns
      rw [Except.ok.inj h0, Except.ok.inj h1, Except.ok.inj h2, hE]
      exact .inr ⟨rfl, rfl, hv, hspan, rfl, rfl⟩

/-- Settles O44: the decoded tree stands in TREE; its root is that of the first item, and the items of a traversal
decode to its effective tree. -/
theorem delinearizeWritesTheTree : Obligations.DelinearizeWritesTheTree := by
  refine ⟨?decoded, ?traversal⟩
  case decoded =>
    intro s r d ⟨hw, _, _, _⟩ hready h
    have hr := State.one_le_of_checks_ok hready.1
    have hcode {i : Nat} (hi : i < nodeCount r) := treeCode_delinearized hready h hw hi.le
    have hroot := hcode (levelBase_add_lt (l := 0) (m := 0) hr Nat.one_pos)
    rw [Nat.add_zero, levelBase_zero] at hroot
    refine ⟨_, exec_delinearize hready h, s.commit_succeeds _, rfl, fun i hi => hcode hi,
      treeCode_delinearized_pad hready h hw, delinearized_outside hready h hw, delinearized_size h, delinearized_info h,
      fun hsc => ?shortcut, fun hsc => ?body⟩
    case shortcut =>
      obtain ⟨-, rfl⟩ := (delinearize_shortcut_iff hsc).mp h
      exact ⟨rfl, fun i hi => (hcode hi).trans (nodeAt_replicate_zero _ _)⟩
    case body =>
      rintro first run v rfl rfl rfl
      obtain ⟨ns, hdec, -, hat, -, hcons⟩ := (delinearize_body_iff hsc).mp h
      obtain ⟨item, below, hread, hitem, hchildren, hone⟩ := decodesTo_root hr hdec hat
      have hlength : r = 1 → d.consumed = streamLength item.length := fun hr1 => by rw [hcons, hone hr1]
      rw [hroot]
      have hkids (q : Nat) (hq : q < 4) (hr2 : 2 ≤ r) (hbelow : 0 < below)
          (hbit : (nodeAt d.tree 0).getLsbD q = true) : treeCode (s.delinearized d) (child 0 q) = nodeAt d.tree 0 := by
        have hi : child 0 q < nodeCount r := by
          rw [show child 0 q = levelBase 1 + q from rfl]
          exact levelBase_add_lt hr2 hq
        rw [hcode hi, hchildren hbelow hr2 q hq hbit]
      have hrootItem := nodeReads_body hread hitem
      simp only [Nat.zero_add] at hrootItem
      rcases hrootItem with ⟨hfirst, hc, -, hlen⟩ | ⟨hfirst, hc, -, hspan, hbelow, hlen⟩
      · refine ⟨fun _ => hc, fun h0 => absurd h0 hfirst, fun h0 => absurd h0 hfirst, fun hr1 => ?_⟩
        rw [hlength hr1, hlen, if_neg fun hrun => hfirst hrun.1]
      · refine ⟨fun h0 => absurd hfirst h0, fun _ => hc, fun _ htwo q hq hbit => ?_, fun hr1 => ?_⟩
        · rw [runLevels_eq_span] at htwo
          exact hkids q hq (by omega) (by omega) hbit
        · rw [hlength hr1, hlen]
          split
          · next hE => rw [if_pos ⟨hfirst, hE⟩]
          · next hE => rw [if_neg fun hrun => hE hrun.2]
  case traversal =>
    rintro s r tree rd body ⟨hw, _, _, _⟩ hready rfl hok hsc hat hlen
    have h : delinearizeBuffer s r = .ok ⟨viewCodes tree rd r r, s.mem.read s.regs.streamInBase.toNat,
        streamLength (streamBody tree rd r).length⟩ :=
      (delinearize_body_iff hsc).mpr ⟨_, streamBody_decodesTo hok, hlen, hat, rfl, rfl⟩
    refine ⟨_, exec_delinearize hready h, s.commit_succeeds _, rfl, fun l m hl hm => ?_,
      treeCode_delinearized_pad hready h hw, delinearized_outside hready h hw, delinearized_size h, delinearized_info h⟩
    rw [treeCode_delinearized hready h hw (levelBase_add_lt hl hm).le, nodeAt_viewCodes hl hm]

/-! Streams that do not decode (R172, R174) -/

/-- Streams at `b` of depth `r` decode only with an item of a node of level `l` at body nibble `k`, inside their
length. -/
def ItemDue (m : Memory) (b r l k : Nat) : Prop :=
  ∀ len d, delinearize m b len r = .ok d → ∃ ns c below, NodeReads r l .fresh ns c below ∧
    Reads (bodyNext m b) k ns ∧ streamLength (k + ns.length) ≤ len

/-- After the items of the nodes before it, a node that takes an item has it due. -/
theorem itemDue_of_traversal {m : Memory} {b r l p : Nat} {tree : Nat → Nibble} {rd : Nat → Byte}
    (hl : l < r) (hp : p < 4 ^ l) (hsc : (m.read b).getLsbD 1 = false)
    (hok : ∀ j q, (j < l ∧ q < 4 ^ j) ∨ (j = l ∧ q < p) → ¬badNode tree rd r j q)
    (hat : ∀ j, j < (bodyBefore tree rd r l p).length → bodyAt m b j = (bodyBefore tree rd r l p).getD j 0#4)
    (hemitted : (nodeView tree rd r l p).emitted = true) :
    ItemDue m b r l (bodyBefore tree rd r l p).length := by
  intro len d hd
  obtain ⟨body, hdec, hlen, hbody, -, -⟩ := (delinearize_body_iff hsc).mp hd
  obtain ⟨ns, c, below, hread, hns, hle⟩ := nodeReads_of_delLevels hl hp hok (reads_bodyNext_iff.mpr hat)
    (hdec _ (reads_bodyNext_iff.mpr hbody))
  rw [(emitted_iff_fresh ..).mp hemitted] at hread
  exact ⟨ns, c, below, hread, hns, le_trans (by unfold streamLength; omega) hlen⟩

/-- The root's item is due at once. -/
theorem itemDue_root {m : Memory} {b r : Nat} (hr : 1 ≤ r) (hsc : (m.read b).getLsbD 1 = false) :
    ItemDue m b r 0 0 :=
  itemDue_of_traversal (tree := fun _ => 0#4) (rd := fun _ => 0#8) (p := 0) hr Nat.one_pos hsc
    (fun _ _ hbefore => by omega) (fun _ hj => absurd hj (Nat.not_lt_zero _)) rfl

section
variable {m : Memory} {b len r l k : Nat} (hdue : ItemDue m b r l k)
include hdue

/-- A stream that ends before the code or the escape. -/
theorem corrupt_of_no_code (hlen : len ≤ 1 + k / 2) : delinearize m b len r = .error .corruptStream := by
  refine delinearize_corrupt fun d hd => ?_
  obtain ⟨ns, c, below, hread, hns, hle⟩ := hdue len d hd
  unfold streamLength at hle
  rcases nodeReads_body hread hns with ⟨-, -, -, hns1⟩ | ⟨-, -, -, -, -, hns2⟩
  · omega
  · split at hns2 <;> omega

variable (hescape : bodyAt m b k = 0#4)
include hescape

/-- A run decodes only with its nibbles inside the stream, a nonzero fill value and a span down to the leaf level. -/
theorem run_of_ok {d : Decoded} (hd : delinearize m b len r = .ok d) :
    streamLength (k + if (bodyAt m b (k + 1)).getLsbD 3 then 3 else 2) ≤ len ∧
    ((bodyAt m b (k + 1)).getLsbD 3 = true → bodyAt m b (k + 2) ≠ 0#4) ∧
    l + span ((bodyAt m b (k + 1)).extractLsb' 0 3) r l ≤ r := by
  obtain ⟨ns, c, below, hread, hns, hle⟩ := hdue len d hd
  rcases nodeReads_body hread hns with ⟨hcode, -⟩ | ⟨-, hc, hc0, hspan, -, hlen⟩
  · exact absurd hescape hcode
  · exact ⟨hlen ▸ hle, fun hE h0 => hc0 (by rw [hc, if_pos hE, h0]), hspan⟩

/-- A stream that ends before the run nibble. -/
theorem corrupt_of_no_run (hlen : len ≤ 1 + (k + 1) / 2) : delinearize m b len r = .error .corruptStream := by
  refine delinearize_corrupt fun d hd => ?_
  obtain ⟨hle, -, -⟩ := run_of_ok hdue hescape hd
  unfold streamLength at hle
  split at hle <;> omega

/-- A stream that ends before V. -/
theorem corrupt_of_no_value (hE : (bodyAt m b (k + 1)).getLsbD 3 = true) (hlen : len ≤ 1 + (k + 2) / 2) :
    delinearize m b len r = .error .corruptStream := by
  refine delinearize_corrupt fun d hd => ?_
  obtain ⟨hle, -, -⟩ := run_of_ok hdue hescape hd
  rw [if_pos hE] at hle
  unfold streamLength at hle
  omega

/-- A run with V = 0. -/
theorem corrupt_of_zero_value (hE : (bodyAt m b (k + 1)).getLsbD 3 = true) (hv : bodyAt m b (k + 2) = 0#4) :
    delinearize m b len r = .error .corruptStream := by
  refine delinearize_corrupt fun d hd => ?_
  obtain ⟨-, hvalue, -⟩ := run_of_ok hdue hescape hd
  exact hvalue hE hv

/-- A run whose span passes the leaf level. -/
theorem corrupt_of_long_span (hl : l < r) (h7 : (bodyAt m b (k + 1)).extractLsb' 0 3 ≠ 7#3)
    (hpast : r < l + ((bodyAt m b (k + 1)).extractLsb' 0 3).toNat + 1) :
    delinearize m b len r = .error .corruptStream := by
  refine delinearize_corrupt fun d hd => ?_
  obtain ⟨-, -, hspan⟩ := run_of_ok hdue hescape hd
  exact hspan.not_gt ((lt_add_span_iff hl _).mpr ⟨h7, hpast⟩)

end

/-- A stream cut short of the bytes that its decoding consumes. -/
theorem corrupt_of_cut {m : Memory} {b len len' r : Nat} {d : Decoded} (h : delinearize m b len r = .ok d)
    (hcut : len' < d.consumed) : delinearize m b len' r = .error .corruptStream := by
  refine delinearize_corrupt fun d' h' => ?_
  obtain ⟨-, hle, -⟩ := decodingDependsOnlyOnConsumedBytes m m b len len r d h
  obtain ⟨-, hle', hsame⟩ := decodingDependsOnlyOnConsumedBytes m m b len' len r d' h'
  have heq := (hsame (by omega) fun _ _ _ => rfl).symm.trans h
  cases heq
  omega

theorem exec_decode_error {s : State} {r : Nat} (hready : Ready .decode s r) {e : CmdError}
    (h : delinearizeBuffer s r = .error e) : ∃ t, exec .decode s = .next t ∧ Fails s t e.code :=
  ⟨_, runTree_error hready.1 hready.2 (by simp [h]), s.raiseError_fails e⟩

/-- Settles O45: a stream decodes only with an item due at each node that takes one. -/
theorem corruptStreamsAreReported : Obligations.CorruptStreamsAreReported := by
  refine ⟨?delinearize, ?decode, ?empty, ?header, fun m b len r d h len' hcut => corrupt_of_cut h hcut, ?rootValue,
    ?rootSpan, ?node⟩
  case delinearize =>
    intro s r e hready h
    cases delinearize_error h
    exact exec_delinearize_error hready h
  case decode =>
    intro s r e hready h
    cases delinearize_error h
    exact exec_decode_error hready h
  case empty =>
    intro s r hlen
    rw [delinearizeBuffer, hlen]
    rfl
  case header =>
    intro s r hr hlen hsc
    exact corrupt_of_no_code (itemDue_root hr hsc) (by rw [hlen]; rfl)
  case rootValue =>
    intro m b len r hr hsc hescape hE hv
    exact corrupt_of_zero_value (itemDue_root hr hsc) hescape hE hv
  case rootSpan =>
    intro m b len r hr hsc hescape h7 hpast
    exact corrupt_of_long_span (itemDue_root hr hsc) hescape hr h7 (by rwa [Nat.zero_add])
  case node =>
    rintro m b len r l p k tree rd hl hp hsc hok rfl hat hemitted
    have hdue := itemDue_of_traversal hl hp hsc hok hat hemitted
    exact ⟨corrupt_of_no_code hdue, fun hescape => ⟨corrupt_of_no_run hdue hescape, corrupt_of_no_value hdue hescape,
      corrupt_of_zero_value hdue hescape, corrupt_of_long_span hdue hescape hl⟩⟩

end Sys2Proof.Machine

/-!
PROOFS. The linearizer on a tree with its own descriptors (spec/44_linearizer.md R168, R176): the claims of its runs
hold, so its stream decodes to it, and each run is shorter than the plain codes it replaces.
-/

namespace Sys2Proof.Machine

open Sys2Proof.Safety

/-! The span of a descriptor (R152) -/

theorem runSpan_fst_le (rem h : Nat) : (runSpan rem h).1 ≤ h := by
  unfold runSpan
  split
  · next heq => exact heq.ge
  · exact Nat.min_le_left _ _

theorem descriptor_zero_run (rem h : Nat) : (descriptor 0#4 rem h).getLsbD 4 = false := rdByte_run ..

/-- The span LINEARIZE takes from a descriptor with RUN = 1 is the one R152 considered. -/
theorem span_descriptor {c : Nibble} (hc : c ≠ 0#4) {r l h : Nat} (hrun : (descriptor c (r - l) h).getLsbD 4 = true) :
    span ((descriptor c (r - l) h).extractLsb' 5 3) r l = (runSpan (r - l) h).1 := by
  have hlcode := descriptor_lcode (r - l) h hc
  rw [if_pos hrun] at hlcode
  rw [descriptor_run _ _ hc, runPays_iff] at hrun
  obtain ⟨htwo, -⟩ := hrun
  unfold span
  by_cases heq : h = r - l
  · have hspan : runSpan (r - l) h = (r - l, 7) := if_pos heq
    rw [hspan] at hlcode ⊢
    exact if_pos (BitVec.eq_of_toNat_eq hlcode)
  · have hspan : runSpan (r - l) h = (min h 7, min h 7 - 1) := if_neg heq
    rw [hspan] at hlcode htwo ⊢
    dsimp only at hlcode htwo ⊢
    rw [if_neg, hlcode]
    · omega
    · intro h7
      rw [h7] at hlcode
      have : (7#3).toNat = 7 := rfl
      omega

/-! A tree that keeps the code invariant, and its own descriptors -/

/-- Bit q of an internal node is 1 iff child q has a nonzero code (R85, R143). -/
def CodeInvariant (T : List Nibble) (r : Nat) : Prop :=
  ∀ i q, q < 4 → child i q < nodeCount r → ((nodeAt T i).getLsbD q = true ↔ nodeAt T (child i q) ≠ 0#4)

/-- RD[i] of the descriptors of the tree itself (R150). -/
def ownRd (T : List Nibble) (r i : Nat) : Byte := (descriptors T r).getD i 0#8

section
variable {T : List Nibble} {r : Nat}

/-- A run of the tree's own descriptors pays, and its span stays within the node's uniform height (R152). -/
theorem ownRd_run {l m : Nat} (hl : l < r) (hm : m < 4 ^ l) (hrun : (ownRd T r (levelBase l + m)).getLsbD 4 = true) :
    nodeAt T (levelBase l + m) ≠ 0#4 ∧
    runPays (nodeAt T (levelBase l + m)) (span ((ownRd T r (levelBase l + m)).extractLsb' 5 3) r l) = true ∧
    span ((ownRd T r (levelBase l + m)).extractLsb' 5 3) r l ≤ uniformHeight T (r - 1 - l) (levelBase l + m) := by
  rw [ownRd, getD_descriptors T hl hm] at hrun ⊢
  have hc : nodeAt T (levelBase l + m) ≠ 0#4 := by
    intro hc
    rw [hc, descriptor_zero_run] at hrun
    cases hrun
  rw [span_descriptor hc hrun]
  rw [descriptor_run _ _ hc] at hrun
  exact ⟨hc, hrun, runSpan_fst_le _ _⟩

/-- The run over a node claims only levels above the end of its uniform height. -/
theorem ownView_below {l m : Nat} (hl : l < r) (hm : m < 4 ^ l) :
    (ownView (nodeAt T) (ownRd T r) r l (levelBase l + m)).below = 0 ∨
    (ownView (nodeAt T) (ownRd T r) r l (levelBase l + m)).below < uniformHeight T (r - 1 - l) (levelBase l + m) := by
  by_cases hrun : (ownRd T r (levelBase l + m)).getLsbD 4 = true
  · obtain ⟨-, hpays, hle⟩ := ownRd_run hl hm hrun
    obtain ⟨htwo, -⟩ := (runPays_iff _ _).mp hpays
    refine .inr ?_
    simp only [ownView, hrun, if_true, runLevels_eq_span]
    omega
  · exact .inl (if_neg hrun)

section
variable (hinv : CodeInvariant T r)
include hinv

/-- The effective tree is the tree, since the claims of its runs hold (R151). -/
theorem nodeView_own {l m : Nat} (hl : l < r) (hm : m < 4 ^ l) :
    (nodeView (nodeAt T) (ownRd T r) r l m).code = nodeAt T (levelBase l + m) ∧
    ((nodeView (nodeAt T) (ownRd T r) r l m).below = 0 ∨
      (nodeView (nodeAt T) (ownRd T r) r l m).below < uniformHeight T (r - 1 - l) (levelBase l + m)) := by
  induction l generalizing m with
  | zero =>
    have hroot : nodeView (nodeAt T) (ownRd T r) r 0 m = ownView (nodeAt T) (ownRd T r) r 0 (levelBase 0 + m) := by
      rw [levelBase_zero, Nat.zero_add, nodeView]
    rw [hroot]
    exact ⟨rfl, ownView_below hl hm⟩
  | succ l ih =>
    have hparent : m / 4 < 4 ^ l := by rw [Nat.pow_succ] at hm; omega
    have hq : m % 4 < 4 := Nat.mod_lt _ (by omega)
    have hchild : child (levelBase l + m / 4) (m % 4) = levelBase (l + 1) + m := by
      rw [child_levelBase, Nat.div_add_mod]
    have hbit := hinv (levelBase l + m / 4) (m % 4) hq (hchild ▸ levelBase_add_lt hl hm)
    obtain ⟨hcode, hbelow⟩ := ih (by omega) hparent
    rw [hchild, ← hcode] at hbit
    simp only [nodeView]
    by_cases habsent : (nodeView (nodeAt T) (ownRd T r) r l (m / 4)).code.getLsbD (m % 4) = false
    · have hzero : nodeAt T (levelBase (l + 1) + m) = 0#4 := by
        by_contra hne
        rw [hbit.mpr hne] at habsent
        cases habsent
      simp [habsent, hzero]
    · have hpresent := Bool.eq_true_of_not_eq_false habsent
      by_cases hcovered : 0 < (nodeView (nodeAt T) (ownRd T r) r l (m / 4)).below
      · have hne : nodeAt T (levelBase l + m / 4) ≠ 0#4 := by
          intro hzero
          rw [hcode, hzero] at hpresent
          simp at hpresent
        have hle := uniformHeight_le_child T (r - 1 - (l + 1)) _ hne hq (hcode ▸ hpresent)
        rw [show r - 1 - (l + 1) + 1 = r - 1 - l by omega, childHeight, hchild] at hle
        split at hle
        · next hsame =>
          simp only [hpresent, hcovered, Bool.not_true, Bool.false_eq_true, if_false, if_true]
          exact ⟨hcode.trans hsame.symm, .inr (by omega)⟩
        · omega
      · simp only [hpresent, hcovered, Bool.not_true, Bool.false_eq_true, if_false]
        exact ⟨rfl, ownView_below hl hm⟩

theorem viewCodes_own (hlen : T.length = nodeCount r) : viewCodes (nodeAt T) (ownRd T r) r r = T := by
  have hviewLen : (viewCodes (nodeAt T) (ownRd T r) r r).length = nodeCount r := length_levels _ r
  refine List.ext_getElem (hviewLen.trans hlen.symm) fun i hi hiT => ?_
  obtain ⟨l, m, hl, hm, rfl⟩ := exists_level (hlen ▸ hiT)
  have hcode := nodeAt_viewCodes (tree := nodeAt T) (rd := ownRd T r) hl hm
  rw [(nodeView_own hinv hl hm).1] at hcode
  simpa [nodeAt, hi, hiT] using hcode

/-- Below a zero root every code is 0. -/
theorem nodeAt_eq_zero_of_root (hroot : nodeAt T 0 = 0#4) (i : Nat) (hi : i < nodeCount r) : nodeAt T i = 0#4 := by
  induction i using Nat.strong_induction_on with
  | _ i ih =>
    by_cases h0 : i = 0
    · rw [h0, hroot]
    · have hchild : child ((i - 1) / 4) ((i - 1) % 4) = i := by unfold child; omega
      have hparent := ih ((i - 1) / 4) (by omega) (by omega)
      by_contra hne
      have hbit := (hinv ((i - 1) / 4) ((i - 1) % 4) (by omega) (by rwa [hchild])).mpr (by rwa [hchild])
      rw [hparent] at hbit
      simp at hbit

theorem eq_replicate_of_root (hlen : T.length = nodeCount r) (hroot : nodeAt T 0 = 0#4) :
    T = List.replicate (nodeCount r) 0#4 := by
  refine List.eq_replicate_iff.mpr ⟨hlen, fun c hc => ?_⟩
  obtain ⟨i, hi, rfl⟩ := List.getElem_of_mem hc
  have hzero := nodeAt_eq_zero_of_root hinv hroot i (hlen ▸ hi)
  simpa [nodeAt, hi] using hzero

end

/-! The round trip (R176) -/

theorem headerByte_inv (inv shortcut : Bool) : (headerByte inv shortcut).getLsbD 0 = inv := by
  cases inv <;> cases shortcut <;> rfl

theorem headerByte_flag (inv shortcut : Bool) : (headerByte inv shortcut).getLsbD 1 = shortcut := by
  cases inv <;> cases shortcut <;> rfl

/-- A tree that keeps the code invariant comes back from its stream. -/
theorem delinearize_linearize (hinv : CodeInvariant T r) (hlen : T.length = nodeCount r) {inv : Bool}
    {stream : List Byte} (h : linearize T (descriptors T r) r inv = .ok stream) {m : Memory} {b len : Nat}
    (hbytes : ∀ j, j < stream.length → m.read (b + j) = stream.getD j 0#8) (hroom : stream.length ≤ len) :
    delinearize m b len r =
      .ok { tree := T, hdr := headerByte inv (decide (nodeAt T 0 = 0#4)), consumed := stream.length } := by
  by_cases hroot : nodeAt T 0 = 0#4
  · rw [linearize_shortcut _ _ hroot] at h
    cases h
    have hhdr : m.read b = headerByte inv true := hbytes 0 Nat.one_pos
    rw [(delinearize_shortcut_iff (hhdr ▸ headerByte_flag inv true)).mpr ⟨hroom, rfl⟩, hhdr,
      ← eq_replicate_of_root hinv hlen hroot, decide_eq_true hroot]
    rfl
  · have hT : ∀ i, i < nodeCount r → nodeAt T i = nodeAt T i := fun _ _ => rfl
    have hRD : ∀ i, i < nodeCount r → (descriptors T r).getD i 0#8 = ownRd T r i := fun _ _ => rfl
    have hok := not_badNode_of_linearize hT hRD hroot h
    cases eq_of_linearize hT hRD hroot h
    have hhdr : m.read b = headerByte inv false := hbytes 0 (Nat.succ_pos _)
    rw [length_stream] at hroom ⊢
    rw [decide_eq_false hroot]
    refine (delinearize_body_iff (hhdr ▸ headerByte_flag inv false)).mpr
      ⟨streamBody (nodeAt T) (ownRd T r) r, ?_, hroom, fun j hj => bodyAt_of_stream hbytes hj, hhdr.symm, rfl⟩
    have hdec := streamBody_decodesTo hok
    rwa [viewCodes_own hinv hlen] at hdec

/-! The size (R168) -/

theorem plainCodes_succ (p s : Nat) : plainCodes p (s + 1) = 1 + p * plainCodes p s := by
  simp [plainCodes, List.range_succ_eq_map, Function.comp_def, Nat.pow_succ', List.sum_map_mul_left]

/-- The plain codes from a covered node on that its run saves. -/
def saved : Slot → Nat
  | .absent => 0
  | .fresh => 0
  | .covered v below => plainCodes (popcount v) (below + 1)

/-- The plain codes that runs over the given nodes save. -/
def savedBy (slots : List Slot) : Nat := (slots.map saved).sum

theorem savedBy_append (a b : List Slot) : savedBy (a ++ b) = savedBy a + savedBy b := by simp [savedBy]

theorem saved_childSlot (c : Nibble) (below q : Nat) :
    saved (childSlot c below q) = if c.getLsbD q then plainCodes (popcount c) below else 0 := by
  unfold childSlot
  split
  · cases below with
    | zero => rfl
    | succ below => rfl
  · rfl

/-- Each child in a quadrant of `c` saves the codes of one level less. -/
theorem savedBy_childSlots (c : Nibble) (below : Nat) :
    savedBy (childSlots c below) = popcount c * plainCodes (popcount c) below := by
  rw [savedBy, childSlots_eq, List.map_map]
  simp only [Function.comp_def, saved_childSlot]
  rw [popcount, List.sum_map_ite]
  simp

/-- What a node emits and what its own run saves are made good by the node itself and the codes saved below it. -/
theorem length_itemNibbles_add_saved_le {l m : Nat} (hl : l < r) (hm : m < 4 ^ l) :
    (itemNibbles (nodeAt T) (ownRd T r) r l m).length + saved (viewSlot (nodeAt T) (ownRd T r) r l m) ≤
      1 + savedBy (childSlots (nodeView (nodeAt T) (ownRd T r) r l m).code
        (nodeView (nodeAt T) (ownRd T r) r l m).below) := by
  rw [savedBy_childSlots, itemNibbles_eq, nodeView_eq_slotView]
  cases viewSlot (nodeAt T) (ownRd T r) r l m with
  | absent => simp [saved]
  | covered v below => simp [saved, slotView, plainCodes_succ]
  | fresh =>
    simp only [if_true, slotView, ownView, saved, Nat.add_zero]
    by_cases hrun : (ownRd T r (levelBase l + m)).getLsbD 4 = true
    · obtain ⟨hc, hpays, -⟩ := ownRd_run hl hm hrun
      rw [itemOf_run _ hrun, if_pos hrun, runLevels_eq_span]
      generalize span ((ownRd T r (levelBase l + m)).extractLsb' 5 3) r l = s at hpays ⊢
      rw [runPays_iff] at hpays
      obtain ⟨k, rfl⟩ := Nat.exists_eq_add_of_le' (show 1 ≤ s by omega)
      have hshorter := (run_shorter_iff (popcount_pos _ hc) (popcount_le_four _) (Nat.le_add_left 1 k)).mpr hpays
      rw [plainCodes_succ] at hshorter
      rw [length_runNibbles, Nat.add_sub_cancel]
      exact hshorter.le
    · rw [itemOf_code _ (by simpa using hrun)]
      exact Nat.le_add_right _ _

theorem length_levelBody_add_saved_le {l m : Nat} (hl : l < r) (hm : m ≤ 4 ^ l) :
    (levelBody (nodeAt T) (ownRd T r) r l m).length + savedBy (viewSlots (nodeAt T) (ownRd T r) r l m) ≤
      m + savedBy (viewSlots (nodeAt T) (ownRd T r) r (l + 1) (4 * m)) := by
  induction m with
  | zero => exact le_rfl
  | succ m ih =>
    have hbefore := ih (by omega)
    have hnode := length_itemNibbles_add_saved_le (T := T) hl hm
    rw [levelBody_succ, List.length_append, viewSlots_succ, viewSlots_children, savedBy_append, savedBy_append]
    simp only [savedBy, List.map_cons, List.map_nil, List.sum_cons, List.sum_nil, Nat.add_zero] at hbefore hnode ⊢
    omega

/-- The items of the levels before `l` are no more than their nodes and what their runs save from level `l` on. -/
theorem length_bodyBefore_le_saved {l : Nat} (hl : l ≤ r) : (bodyBefore (nodeAt T) (ownRd T r) r l 0).length ≤
    levelBase l + savedBy (viewSlots (nodeAt T) (ownRd T r) r l (4 ^ l)) := by
  induction l with
  | zero => simp [bodyBefore_zero]
  | succ l ih =>
    have hbefore := ih (by omega)
    have hlevel := length_levelBody_add_saved_le (T := T) hl le_rfl
    rw [bodyBefore_succ, bodyBefore_eq, List.length_append, levelBase_succ, Nat.pow_succ, Nat.mul_comm (4 ^ l)]
    omega

/-- No run covers anything past the leaf level. -/
theorem savedBy_leaves (hr : 1 ≤ r) (hinv : CodeInvariant T r) :
    savedBy (viewSlots (nodeAt T) (ownRd T r) r r (4 ^ r)) = 0 := by
  obtain ⟨n, rfl⟩ := Nat.exists_eq_add_of_le' hr
  refine List.sum_eq_zero fun x hx => ?_
  simp only [viewSlots, List.map_map, List.mem_map, List.mem_range, Function.comp] at hx
  obtain ⟨m, hm, rfl⟩ := hx
  have hparent : m / 4 < 4 ^ n := by rw [Nat.pow_succ] at hm; omega
  obtain ⟨-, hbelow⟩ := nodeView_own hinv (Nat.lt_succ_self n) hparent
  have hheight := uniformHeight_le T (n + 1 - 1 - n) (levelBase n + m / 4)
  have hzero : (nodeView (nodeAt T) (ownRd T (n + 1)) (n + 1) n (m / 4)).below = 0 := by omega
  rw [viewSlot, saved_childSlot, hzero]
  simp [plainCodes]

theorem length_streamBody_own_le (hr : 1 ≤ r) (hinv : CodeInvariant T r) :
    (streamBody (nodeAt T) (ownRd T r) r).length ≤ nodeCount r := by
  have hle := length_bodyBefore_le_saved (T := T) (le_refl r)
  rwa [savedBy_leaves hr hinv, ← streamBody_eq] at hle

theorem length_linearize_own_le (hr : 1 ≤ r) (hinv : CodeInvariant T r) {inv : Bool} {stream : List Byte}
    (h : linearize T (descriptors T r) r inv = .ok stream) : stream.length ≤ 1 + (nodeCount r + 1) / 2 := by
  by_cases hroot : nodeAt T 0 = 0#4
  · rw [linearize_shortcut _ _ hroot] at h
    cases h
    exact Nat.le_add_right _ _
  · have hbody := length_streamBody_own_le hr hinv
    rw [eq_of_linearize (rd := ownRd T r) (fun _ _ => rfl) (fun _ _ => rfl) hroot h, length_stream, streamLength]
    omega

end

/-! The statements -/

theorem buildTree_codeInvariant (pix : Nat → Nat → Bool) (r : Nat) : CodeInvariant (buildTree pix r) r :=
  fun _ _ hq hc => getLsbD_nodeAt_buildTree pix hq hc

/-- Settles O54: a built tree keeps the code invariant, so the claims of its own descriptors hold. -/
theorem linearizerRoundTrip : Obligations.LinearizerRoundTrip := by
  intro pix r inv stream m b len _ h hbytes hroom
  exact ⟨_, delinearize_linearize (buildTree_codeInvariant pix r) (length_buildTree pix r) h hbytes hroom, rfl, rfl,
    headerByte_inv _ _⟩

/-- Settles O55: each run is shorter than the plain codes of the nodes it covers, so the body has at most one nibble a
node. -/
theorem builtStreamsFitTheBound : Obligations.BuiltStreamsFitTheBound := by
  intro pix r inv stream hr h
  exact length_linearize_own_le hr (buildTree_codeInvariant pix r) h

end Sys2Proof.Machine

/-!
PROOFS. The quadtree_decoder (spec/45_decoder.md): the bits of the raster RECONSTRUCT leaves in ROUT (R190, R192), and
that the leaf of each in-bounds pixel is a code of the tree (R191).
-/

namespace Sys2Proof.Machine

open Sys2Proof.Safety

/-! The raster written to ROUT (R190, R192) -/

/-- Bit x mod 8 of byte x / 8 is column x; a pad bit is 0 for both polarities. -/
theorem getLsbD_rasterByte (t : List Nibble) (r w : Nat) (inv : Bool) (y x : Nat) :
    (rasterByte t r w inv y (x / 8)).getLsbD (x % 8) = (decide (x < w) && opix t r inv x y) := by
  simp [rasterByte, Nat.mod_lt, Nat.div_add_mod]

/-- The bit of column `x`, pad columns included, and row `y` of a written raster. -/
theorem pixelAt_writeRaster {s : State} {m : Memory} (hw : m.wf) (t : List Nibble) (r : Nat) (inv : Bool) {x y : Nat}
    (hb : s.regs.rasterOutBase.toNat + s.regs.height.toNat * rowBytes s.regs.width.toNat ≤ Config.memSize)
    (hx : x < 8 * rowBytes s.regs.width.toNat) (hy : y < s.regs.height.toNat) :
    pixelAt (writeRaster s m t r inv) s.regs.rasterOutBase.toNat s.regs.width.toNat x y =
      (decide (x < s.regs.width.toNat) && opix t r inv x y) := by
  have hcol : x / 8 < rowBytes s.regs.width.toNat := by omega
  have hrow : rowBytes (8 * rowBytes s.regs.width.toNat) = rowBytes s.regs.width.toNat := by unfold rowBytes; omega
  have hoff := pixel_offset_lt hx hy
  rw [hrow] at hoff
  have hbyte := Memory.read_writeBytes_add hw (bs := rasterBytes t r s.regs.width.toNat s.regs.height.toNat inv)
    (by rwa [length_rasterBytes]) (by rwa [length_rasterBytes])
  rw [getD_rasterBytes t r inv hy hcol, ← Nat.add_assoc] at hbyte
  exact (congrArg (·.getLsbD (x % 8)) hbyte).trans (getLsbD_rasterByte ..)

/-! The leaf of a pixel (R191) -/

/-- The leaf of a pixel of the square of side 2^r is one of the 4^(r - 1) leaves. -/
theorem mortNat_div_four_lt {r x y : Nat} (hr : 1 ≤ r) (hx : x < 2 ^ r) (hy : y < 2 ^ r) :
    mortNat x y / 4 < 4 ^ (r - 1) := by
  have hhalf {v : Nat} (hv : v < 2 ^ r) : (BitVec.ofNat 16 v).toNat < 2 ^ r := by
    rw [BitVec.toNat_ofNat]
    exact (Nat.mod_le _ _).trans_lt hv
  have hcode : mortNat x y < 4 ^ r := toNat_mort_lt (hhalf hx) (hhalf hy)
  rw [← Nat.sub_add_cancel hr, Nat.pow_succ] at hcode
  omega

/-- R191 with the leaf's code read in TREE. -/
theorem opix_treeIn (s : State) {r x y : Nat} (inv : Bool) (hr : 1 ≤ r) (hx : x < 2 ^ r) (hy : y < 2 ^ r) :
    opix (s.treeIn r) r inv x y =
      ((treeCode s (levelBase (r - 1) + mortNat x y / 4)).getLsbD (mortNat x y % 4)).xor inv := by
  rw [opix, nodeAt_treeIn s (by omega) (mortNat_div_four_lt hr hx hy)]

/-! RECONSTRUCT (R190) -/

/-- The state in which a ready RECONSTRUCT ends. -/
def State.reconstructed (s : State) (inv : Bool) (r : Nat) : State :=
  s.commit { mem := writeRaster s s.mem (s.treeIn r) r inv, results := none }

section
variable {inv : Bool} {s : State} {r : Nat} (hready : Ready (.reconstruct inv) s r)
include hready

theorem exec_reconstruct : exec (.reconstruct inv) s = .next (s.reconstructed inv r) :=
  runTree_ok (perform := fun r => .ok { mem := writeRaster s s.mem (s.treeIn r) r inv, results := none })
    hready.1 hready.2 rfl

theorem bitOut_reconstructed (hw : s.mem.wf) {x y : Nat} (hx : x < 8 * rowBytes s.regs.width.toNat)
    (hy : y < s.regs.height.toNat) : bitOut (s.reconstructed inv r) x y =
      (decide (x < s.regs.width.toNat) && opix (s.treeIn r) r inv x y) :=
  pixelAt_writeRaster hw _ r inv
    (State.region_inMem hready.1 (g := rasterRegion s.regs s.regs.rasterOutBase true) (by simp [regions])) hx hy

end

/-- Settles O48: a bit of ROUT is the pixel R191 gives where its column is in bounds, and 0 where it is a pad column. -/
theorem reconstructWritesThePixels : Obligations.ReconstructWritesThePixels := by
  intro inv s r ⟨hw, _, _, _⟩ hready
  refine ⟨s.reconstructed inv r, exec_reconstruct hready, s.commit_succeeds _, rfl, rfl, ?outside, ?pixels, ?pad⟩
  case outside =>
    intro a ha
    exact read_writeRaster_outside hw _ r inv ha
  case pixels =>
    intro x y hx hy
    obtain ⟨-, hwidth, hheight⟩ := State.dimensions_le_of_checks_ok hready.1
    have hrow : x < 8 * rowBytes s.regs.width.toNat := by unfold rowBytes; omega
    rw [bitOut_reconstructed hready hw hrow hy, decide_eq_true hx, Bool.true_and,
      opix_treeIn s inv (State.one_le_of_checks_ok hready.1) (hx.trans_le hwidth) (hy.trans_le hheight)]
  case pad =>
    intro x y hpad hx hy
    rw [bitOut_reconstructed hready hw hx hy, decide_eq_false hpad.not_gt, Bool.false_and]

end Sys2Proof.Machine

/-!
PROOFS. The polarity trial (spec/46_pipeline.md R201): a tree with its own descriptors has a stream at every depth, the
polarity enters that stream by its header byte alone, and the trial keeps one of the two candidates.
-/

namespace Sys2Proof.Machine

open Sys2Proof.Safety

/-! A tree with its own descriptors meets no node of R165 -/

section
variable {T : List Nibble} {r : Nat} (hinv : CodeInvariant T r)
include hinv

/-- A node that takes an item is the root, or its bit in its parent is set. -/
theorem ne_zero_of_fresh (hroot : nodeAt T 0 ≠ 0#4) {l m : Nat} (hl : l < r) (hm : m < 4 ^ l)
    (hfresh : viewSlot (nodeAt T) (ownRd T r) r l m = .fresh) : nodeAt T (levelBase l + m) ≠ 0#4 := by
  cases l with
  | zero =>
    obtain rfl : m = 0 := by simpa using hm
    exact hroot
  | succ l =>
    have hparent : m / 4 < 4 ^ l := by rw [Nat.pow_succ] at hm; omega
    have hchild : child (levelBase l + m / 4) (m % 4) = levelBase (l + 1) + m := by
      rw [child_levelBase, Nat.div_add_mod]
    have hbit : (nodeAt T (levelBase l + m / 4)).getLsbD (m % 4) = true := by
      rw [← (nodeView_own hinv (by omega) hparent).1]
      by_contra habsent
      rw [viewSlot, (childSlot_eq_absent_iff ..).mpr (by simpa using habsent)] at hfresh
      cases hfresh
    rw [← hchild]
    exact (hinv _ _ (Nat.mod_lt _ (by omega)) (hchild ▸ levelBase_add_lt hl hm)).mp hbit

/-- A run of the tree's own descriptors stops at the leaf level, since its span is within the uniform height. -/
theorem not_badNode_own (hroot : nodeAt T 0 ≠ 0#4) (l m : Nat) (hl : l < r) (hm : m < 4 ^ l) :
    ¬badNode (nodeAt T) (ownRd T r) r l m := by
  rw [badNode_iff _ _ _ hl]
  rintro ⟨hfresh, hzero | ⟨hrun, hpast⟩⟩
  · exact ne_zero_of_fresh hinv hroot hl hm hfresh hzero
  · obtain ⟨-, -, hspan⟩ := ownRd_run hl hm hrun
    have hheight := uniformHeight_le T (r - 1 - l) (levelBase l + m)
    omega

theorem exists_linearize_own (inv : Bool) : ∃ stream, linearize T (descriptors T r) r inv = .ok stream := by
  by_cases hroot : nodeAt T 0 = 0#4
  · exact ⟨_, linearize_shortcut _ _ hroot inv⟩
  · exact ⟨_, linearize_ok (rd := ownRd T r) (fun _ _ => rfl) (fun _ _ => rfl) hroot inv (not_badNode_own hinv hroot)⟩

end

/-! The polarity in a stream (R88, R160) -/

/-- The bytes after the header, which do not depend on the polarity. -/
def bodyBytes (T : List Nibble) (RD : List Byte) (r : Nat) : Except CmdError (List Byte) :=
  if nodeAt T 0 = 0#4 then .ok [] else (linLevels T RD r r 0 rootSlots).map pack

theorem linearize_eq (T : List Nibble) (RD : List Byte) (r : Nat) (inv : Bool) : linearize T RD r inv =
    (bodyBytes T RD r).map (headerByte inv (decide (nodeAt T 0 = 0#4)) :: ·) := by
  unfold linearize bodyBytes
  by_cases hroot : nodeAt T 0 = 0#4
  · simp [hroot, Except.map]
  · simp only [hroot, if_false, decide_false]
    cases linLevels T RD r r 0 rootSlots <;> rfl

theorem linearize_eq_ok_iff {T : List Nibble} {RD : List Byte} {r : Nat} {inv : Bool} {stream : List Byte} :
    linearize T RD r inv = .ok stream ↔
      ∃ body, bodyBytes T RD r = .ok body ∧ stream = headerByte inv (decide (nodeAt T 0 = 0#4)) :: body := by
  rw [linearize_eq]
  cases bodyBytes T RD r with
  | error e => simp [Except.map]
  | ok body => simp [Except.map, eq_comm]

/-! The candidates -/

section
variable {s : State} {p : Bool} {r : Nat} {c : Candidate}

theorem candidate_eq_ok_iff : candidate s p r = .ok c ↔
    c.tree = rasterTree s p r ∧ c.rd = descriptors c.tree r ∧ linearize c.tree c.rd r p = .ok c.stream := by
  obtain ⟨tree, rd, stream⟩ := c
  unfold candidate
  dsimp only
  constructor
  · intro h
    split at h
    · cases h
    · next hlin => cases h; exact ⟨rfl, rfl, hlin⟩
  · rintro ⟨rfl, rfl, hlin⟩
    rw [hlin]

theorem rasterTree_codeInvariant (s : State) (p : Bool) (r : Nat) : CodeInvariant (rasterTree s p r) r :=
  buildTree_codeInvariant _ r

theorem exists_candidate (s : State) (p : Bool) (r : Nat) : ∃ c, candidate s p r = .ok c := by
  obtain ⟨stream, hstream⟩ := exists_linearize_own (rasterTree_codeInvariant s p r) p
  exact ⟨⟨_, _, stream⟩, candidate_eq_ok_iff.mpr ⟨rfl, rfl, hstream⟩⟩

/-- The stream of a candidate starts with its header byte, which holds its polarity. -/
theorem candidate_header (h : candidate s p r = .ok c) :
    c.stream.getD 0 0#8 = headerByte p (decide (nodeAt c.tree 0 = 0#4)) := by
  obtain ⟨-, -, hlin⟩ := candidate_eq_ok_iff.mp h
  obtain ⟨body, -, hstream⟩ := linearize_eq_ok_iff.mp hlin
  rw [hstream, List.getD_cons_zero]

/-- R168 for a candidate. -/
theorem length_candidate_le (hr : 1 ≤ r) (h : candidate s p r = .ok c) :
    c.stream.length ≤ 1 + (nodeCount r + 1) / 2 := by
  obtain ⟨htree, hrd, hlin⟩ := candidate_eq_ok_iff.mp h
  rw [hrd] at hlin
  exact length_linearize_own_le hr (htree ▸ rasterTree_codeInvariant s p r) hlin

theorem polarityTrial_eq {c0 c1 : Candidate} (h0 : candidate s false r = .ok c0) (h1 : candidate s true r = .ok c1) :
    polarityTrial s r = .ok (if c1.stream.length < c0.stream.length then c1 else c0) := by
  rw [polarityTrial, h0, h1]

theorem exists_polarityTrial (s : State) (r : Nat) : ∃ c p, polarityTrial s r = .ok c ∧ candidate s p r = .ok c := by
  obtain ⟨c0, h0⟩ := exists_candidate s false r
  obtain ⟨c1, h1⟩ := exists_candidate s true r
  have htrial := polarityTrial_eq h0 h1
  obtain ⟨p, hp⟩ := candidate_of_polarityTrial htrial
  exact ⟨_, p, htrial, hp⟩

end

/-- Settles O49: a raster's tree keeps the code invariant, so its own descriptors give it a stream. -/
theorem polarityTrialNeverFails : Obligations.PolarityTrialNeverFails :=
  fun s p r _ => exists_candidate s p r

end Sys2Proof.Machine

/-!
PROOFS. The command ENCODE (spec/46_pipeline.md R200, R201): what it leaves in TREE, RDB and SOUT, and that BUILD,
COMPRESS and LINEARIZE in turn leave the same state.
-/

namespace Sys2Proof.Machine

open Sys2Proof.Safety

/-! Buffers that have no byte in common (R71) -/

/-- No byte of [b, b + len) lies in [b', b' + len'). -/
def Apart (b len b' len' : Nat) : Prop := ∀ a, b ≤ a → a < b + len → ¬(b' ≤ a ∧ a < b' + len')

/-- A W region of a command that passes its checks lies apart from every other region of it. -/
theorem State.apart_of_checks {s : State} {i : Instr} {r : Nat} (h : s.checks i = .ok r) :
    (regions s.regs r i).Pairwise fun g k => g.write = true ∨ k.write = true → Apart g.base g.len k.base k.len := by
  obtain ⟨-, -, -, -, hvalid⟩ := State.checks_ok h
  refine ((regionsValid_iff _).mp hvalid).2.imp fun hdisjoint hwrite a hlo hhi hk => ?_
  exact hdisjoint hwrite a ⟨⟨hlo, hhi⟩, hk⟩

/-- Another command passes its checks too where its regions are valid (R114, R115). -/
theorem State.checks_of_checks {s : State} {i j : Instr} {r : Nat} (h : s.checks i = .ok r)
    (hvalid : regionsValid (regions s.regs r j) = true) : s.checks j = .ok r := by
  obtain ⟨rfl, hw, hh, hr, -⟩ := State.checks_ok h
  rw [State.checks_of_dimensions hw hh hr, if_pos hvalid]

theorem Memory.sameBytes_writeBytes {m : Memory} (hw : m.wf) {b len a n : Nat} {bs : List Byte} (hn : bs.length ≤ n)
    (h : Apart b len a n) : Memory.SameBytes m (m.writeBytes a bs) b len := by
  intro x hlo hhi
  have hout := h x hlo hhi
  exact Memory.read_writeBytes_outside hw a bs x (by omega)

/-- The codes of a tree and its pad nibble lie in TB_BYTES(r) bytes. -/
theorem nibRead_congr {m n : Memory} {b r i : Nat} (h : Memory.SameBytes m n b (treeBytes r)) (hr : 1 ≤ r)
    (hi : i ≤ nodeCount r) : n.nibRead b i = m.nibRead b i := by
  have hodd := nodeCount_odd hr
  have hbyte : i / 2 < treeBytes r := by unfold treeBytes; omega
  unfold Memory.nibRead
  rw [h.read_add hbyte]

/-- A tree written to TREE reads back. -/
theorem readTree_writeTree {m : Memory} (hw : m.wf) {b r : Nat} {t : List Nibble} (ht : t.length = nodeCount r)
    (hr : 1 ≤ r) (hb : b + treeBytes r ≤ Config.memSize) : readTree (writeTree m b t) b r = t := by
  refine List.ext_getElem (by rw [length_readTree, ht]) fun i hi hit => ?_
  have hread := nibRead_writeTree hw ht hr hb (i := i) (by omega)
  simpa [readTree, nodeAt, hit] using hread

theorem readRd_writeBytes {m : Memory} (hw : m.wf) {b r : Nat} {rd : List Byte} (hrd : rd.length = nodeCount r)
    (hb : b + nodeCount r ≤ Config.memSize) : readRd (m.writeBytes b rd) b r = rd := by
  refine List.ext_getElem (by rw [length_readRd, hrd]) fun i hi hird => ?_
  have hread := Memory.read_writeBytes_add hw (hrd.symm ▸ hb) hird
  simpa [readRd, Memory.readBytes, hird] using hread

/-! The command -/

/-- The state in which an ENCODE that keeps the candidate `c` ends. -/
def State.encoded (s : State) (c : Candidate) : State :=
  s.commit {
    mem := ((writeTree s.mem s.regs.treeBase.toNat c.tree).writeBytes s.regs.rdBase.toNat c.rd).writeBytes
      s.regs.streamOutBase.toNat c.stream
    results := some (streamResults c.stream) }

section
variable {s : State} {r : Nat} (hready : Ready .encode s r)
include hready

theorem encode_apart :
    Apart s.regs.treeBase.toNat (treeBytes r) s.regs.rdBase.toNat (nodeCount r) ∧
    Apart s.regs.treeBase.toNat (treeBytes r) s.regs.streamOutBase.toNat s.regs.streamOutCap.toNat ∧
    Apart s.regs.rdBase.toNat (nodeCount r) s.regs.streamOutBase.toNat s.regs.streamOutCap.toNat := by
  have h := State.apart_of_checks hready.1
  simp only [regions, List.pairwise_cons, List.forall_mem_cons] at h
  obtain ⟨-, ⟨hrd, hout, -⟩, ⟨hrdOut, -⟩, -⟩ := h
  exact ⟨hrd (.inl rfl), hout (.inl rfl), hrdOut (.inl rfl)⟩

theorem encode_inMem :
    s.regs.treeBase.toNat + treeBytes r ≤ Config.memSize ∧ s.regs.rdBase.toNat + nodeCount r ≤ Config.memSize ∧
    s.regs.streamOutBase.toNat + s.regs.streamOutCap.toNat ≤ Config.memSize :=
  ⟨State.region_inMem hready.1 (g := treeRegion s.regs r true) (by simp [regions]),
    State.region_inMem hready.1 (g := rdRegion s.regs r true) (by simp [regions]),
    State.region_inMem hready.1 (g := streamOutRegion s.regs) (by simp [regions])⟩

variable {c : Candidate} (htrial : polarityTrial s r = .ok c)
include htrial

theorem exec_encode_capacity (hcap : s.regs.streamOutCap.toNat < c.stream.length) :
    exec .encode s = .next (s.raiseError .capacity) :=
  runTree_error hready.1 hready.2 (by simp [htrial, hcap])

theorem exec_encode (hcap : c.stream.length ≤ s.regs.streamOutCap.toNat) :
    exec .encode s = .next (s.encoded c) :=
  runTree_ok hready.1 hready.2 (by simp [htrial, hcap.not_gt])

/-- Every successful ENCODE keeps the candidate of the trial. -/
theorem encoded_of_exec {t : State} (hexec : exec .encode s = .next t) (herr : t.status.err = false) :
    c.stream.length ≤ s.regs.streamOutCap.toNat ∧ t = s.encoded c := by
  by_cases hcap : c.stream.length ≤ s.regs.streamOutCap.toNat
  · cases (exec_encode hready htrial hcap).symm.trans hexec
    exact ⟨hcap, rfl⟩
  · cases (exec_encode_capacity hready htrial (by omega)).symm.trans hexec
    cases herr

end

section
variable {s : State} {r : Nat} {c : Candidate} (hw : s.mem.wf) (hready : Ready .encode s r)
  (hlen : c.tree.length = nodeCount r ∧ c.rd.length = nodeCount r)
  (hcap : c.stream.length ≤ s.regs.streamOutCap.toNat)
include hw hready hlen hcap

theorem treeCode_encoded {i : Nat} (hi : i ≤ nodeCount r) : treeCode (s.encoded c) i = nodeAt c.tree i := by
  have hr := State.one_le_of_checks_ok hready.1
  have hwt := writeTree_wf hw s.regs.treeBase.toNat c.tree
  obtain ⟨hrd, hout, -⟩ := encode_apart hready
  have hkeptRd := Memory.sameBytes_writeBytes hwt hlen.2.le hrd
  have hkeptOut := Memory.sameBytes_writeBytes (Memory.writeBytes_wf hwt s.regs.rdBase.toNat c.rd) hcap hout
  calc treeCode (s.encoded c) i = _ := nibRead_congr hkeptOut hr hi
    _ = _ := nibRead_congr hkeptRd hr hi
    _ = nodeAt c.tree i := nibRead_writeTree hw hlen.1 hr (encode_inMem hready).1 hi

theorem rdAt_encoded {i : Nat} (hi : i < nodeCount r) : rdAt (s.encoded c) i = c.rd.getD i 0#8 := by
  obtain ⟨-, hrdIn, -⟩ := encode_inMem hready
  obtain ⟨-, -, hout⟩ := encode_apart hready
  have hwt := writeTree_wf hw s.regs.treeBase.toNat c.tree
  have hkept := Memory.sameBytes_writeBytes (Memory.writeBytes_wf hwt s.regs.rdBase.toNat c.rd) hcap hout
  calc rdAt (s.encoded c) i = _ := hkept.read_add hi
    _ = c.rd.getD i 0#8 := Memory.read_writeBytes_add hwt (hlen.2.symm ▸ hrdIn) (hlen.2.symm ▸ hi)

omit hlen in
theorem read_encoded {j : Nat} (hj : j < c.stream.length) :
    (s.encoded c).mem.read (s.regs.streamOutBase.toNat + j) = c.stream.getD j 0#8 := by
  obtain ⟨-, -, hin⟩ := encode_inMem hready
  exact Memory.read_writeBytes_add (Memory.writeBytes_wf (writeTree_wf hw _ _) _ _) (by omega) hj

omit hcap in
theorem read_encoded_outside {a : Nat}
    (htree : ¬(s.regs.treeBase.toNat ≤ a ∧ a < s.regs.treeBase.toNat + treeBytes r))
    (hrd : ¬(s.regs.rdBase.toNat ≤ a ∧ a < s.regs.rdBase.toNat + nodeCount r))
    (hout : ¬(s.regs.streamOutBase.toNat ≤ a ∧ a < s.regs.streamOutBase.toNat + c.stream.length)) :
    (s.encoded c).mem.read a = s.mem.read a := by
  have hwt := writeTree_wf hw s.regs.treeBase.toNat c.tree
  calc _ = _ := Memory.read_writeBytes_outside (Memory.writeBytes_wf hwt _ _) _ _ _ hout
    _ = _ := Memory.read_writeBytes_outside hwt _ _ _ (hlen.2.symm ▸ hrd)
    _ = _ := read_writeTree_outside hw hlen.1 (State.one_le_of_checks_ok hready.1) htree

omit hw hready hlen in
theorem encoded_size : (s.encoded c).results.resultSize.toNat = c.stream.length :=
  (BitVec.toNat_ofNat _ _).trans (Nat.mod_eq_of_lt (hcap.trans_lt s.regs.streamOutCap.isLt))

end

theorem getLsbD_infoOf (hdr : Byte) {k : Nat} (hk : k < 2) : (infoOf hdr).getLsbD k = hdr.getLsbD k := by
  simp [infoOf, hk]

/-- INFO copies INV and SHORTCUT of the header (R37). -/
theorem encoded_info {s : State} {p : Bool} {r : Nat} {c : Candidate} (hc : candidate s p r = .ok c) :
    (s.encoded c).results.info.getLsbD 0 = p ∧
    (s.encoded c).results.info.getLsbD 1 = decide (nodeAt c.tree 0 = 0#4) := by
  have hinfo : (s.encoded c).results.info = infoOf (c.stream.getD 0 0#8) := by
    simp [State.encoded, streamResults, List.head?_eq_getElem?, List.headD_eq_head?_getD]
  rw [hinfo, candidate_header hc, getLsbD_infoOf _ Nat.zero_lt_two, getLsbD_infoOf _ Nat.one_lt_two]
  exact ⟨headerByte_inv _ _, headerByte_flag _ _⟩

/-- Settles O50: the three buffers lie apart, so each holds what the candidate kept gives it. -/
theorem encodeKeepsTheShorterCandidate : Obligations.EncodeKeepsTheShorterCandidate := by
  intro s r c0 c1 c ⟨hw, _, _, _⟩ hready h0 h1 hc
  have htrial := polarityTrial_eq h0 h1
  rw [← hc] at htrial
  have hkept : candidate s (decide (c1.stream.length < c0.stream.length)) r = .ok c := by
    by_cases hlt : c1.stream.length < c0.stream.length
    · simpa [hc, hlt] using h1
    · simpa [hc, hlt] using h0
  have hlen := length_of_candidate hkept
  refine ⟨fun hcap => ⟨_, exec_encode_capacity hready htrial hcap, s.raiseError_fails .capacity⟩, fun hcap => ?_⟩
  obtain ⟨hinv, hshortcut⟩ := encoded_info hkept
  refine ⟨_, exec_encode hready htrial hcap, s.commit_succeeds _, rfl, fun i hi => ⟨?code, ?descriptor⟩, ?pad,
    fun j hj => read_encoded hw hready hcap hj, fun a => read_encoded_outside hw hready hlen, encoded_size hcap, hinv,
    hshortcut⟩
  case code => exact treeCode_encoded hw hready hlen hcap hi.le
  case descriptor => exact rdAt_encoded hw hready hlen hcap hi
  case pad =>
    rw [treeCode_encoded hw hready hlen hcap le_rfl]
    exact List.getD_eq_default _ _ hlen.1.le

/-! The block commands in turn (R201) -/

/-- The regions of the block commands are those of ENCODE, some of them only read. -/
theorem regionsValid_blocks_of_encode {rg : Regs} {r : Nat} (h : regionsValid (regions rg r .encode) = true)
    (inv : Bool) : regionsValid (regions rg r (.build inv)) = true ∧ regionsValid (regions rg r .compress) = true ∧
      regionsValid (regions rg r (.linearize inv false)) = true := by
  simp only [regions, regionsValid, disjointWrites, List.all_cons, List.all_nil, Bool.and_true, Bool.and_eq_true] at h ⊢
  obtain ⟨⟨hraster, htree, hrd, hout⟩, ⟨hrasterTree, -, -⟩, ⟨htreeRd, htreeOut⟩, hrdOut⟩ := h
  exact ⟨⟨⟨hraster, htree⟩, hrasterTree⟩, ⟨⟨htree, hrd⟩, htreeRd⟩, ⟨htree, hrd, hout⟩, ⟨rfl, htreeOut⟩, hrdOut⟩

section
variable {s : State} {r : Nat} {p : Bool} {c : Candidate} (hw : s.mem.wf) (hready : Ready .encode s r)
  (hc : candidate s p r = .ok c)
include hw hready hc

theorem treeIn_built : (s.built p r).treeIn r = c.tree := by
  obtain ⟨htree, -, -⟩ := candidate_eq_ok_iff.mp hc
  rw [htree]
  exact readTree_writeTree hw (length_buildTree _ r) (State.one_le_of_checks_ok hready.1) (encode_inMem hready).1

theorem linearizeBuffers_compressed :
    linearizeBuffers ((s.built p r).compressed r) r p = .ok c.stream := by
  obtain ⟨-, hrd, hlin⟩ := candidate_eq_ok_iff.mp hc
  obtain ⟨htreeIn, hrdIn, -⟩ := encode_inMem hready
  obtain ⟨hapart, -, -⟩ := encode_apart hready
  have htree := treeIn_built hw hready hc
  have hwt : (s.built p r).mem.wf := writeTree_wf hw _ _
  have hkept : Memory.SameBytes (s.built p r).mem ((s.built p r).compressed r).mem s.regs.treeBase.toNat
      (treeBytes r) := Memory.sameBytes_writeBytes hwt (length_descriptors _ r).le hapart
  have hreadRd : readRd ((s.built p r).compressed r).mem s.regs.rdBase.toNat r = c.rd := by
    rw [hrd, ← htree]
    exact readRd_writeBytes hwt (length_descriptors _ r) hrdIn
  have hreadTree : readTree ((s.built p r).compressed r).mem s.regs.treeBase.toNat r = c.tree :=
    (readTree_congr hkept).trans htree
  unfold linearizeBuffers
  rw [← hlin, ← hreadTree, ← hreadRd]
  rfl

end

/-- Settles O52: each block command finds what the one before it wrote, and the writes are those of ENCODE. -/
theorem encodeIsBuildCompressLinearize : Obligations.EncodeIsBuildCompressLinearize := by
  intro s t r ⟨hw, _, _, _⟩ hready hexec herr
  obtain ⟨c, p, htrial, hc⟩ := exists_polarityTrial s r
  obtain ⟨hcap, rfl⟩ := encoded_of_exec hready htrial hexec herr
  obtain ⟨hinv, -⟩ := encoded_info hc
  rw [hinv]
  obtain ⟨-, -, -, -, hvalid⟩ := State.checks_ok hready.1
  obtain ⟨hbuild, hcompress, hlinearize⟩ := regionsValid_blocks_of_encode hvalid p
  have hreadyCompress : Ready .compress (s.built p r) r := ⟨State.checks_of_checks hready.1 hcompress, rfl⟩
  have hreadyLinearize : Ready (.linearize p false) ((s.built p r).compressed r) r :=
    ⟨State.checks_of_checks hready.1 hlinearize, rfl⟩
  refine ⟨s.built p r, (s.built p r).compressed r, exec_build ⟨State.checks_of_checks hready.1 hbuild, hready.2⟩,
    s.commit_succeeds _, exec_compress hreadyCompress, State.commit_succeeds _ _, ?_⟩
  rw [exec_linearize hreadyLinearize (linearizeBuffers_compressed hw hready hc) (.inr hcap)]
  obtain ⟨htree, hrd, -⟩ := candidate_eq_ok_iff.mp hc
  have hsame : ((s.built p r).compressed r).linearized false c.stream = s.encoded c := by
    rw [State.compressed, treeIn_built hw hready hc, ← hrd, State.built, ← htree]
    rfl
  rw [hsame]

end Sys2Proof.Machine

/-!
PROOFS. The command DECODE (spec/46_pipeline.md R203, R204): what it leaves in TREE and ROUT, that DELINEARIZE and
RECONSTRUCT in turn leave the same state, and the round trip of ENCODE and DECODE (R205).
-/

namespace Sys2Proof.Machine

open Sys2Proof.Safety

/-! The command -/

/-- The state in which a DECODE of a stream that decodes to `d` ends. -/
def State.decoded (s : State) (d : Decoded) (r : Nat) : State :=
  s.commit {
    mem := writeRaster s (writeTree s.mem s.regs.treeBase.toNat d.tree) d.tree r (d.hdr.getLsbD 0)
    results := some (decodedResults d) }

section
variable {s : State} {r : Nat} {d : Decoded} (hready : Ready .decode s r)
include hready

theorem decode_apart : Apart s.regs.treeBase.toNat (treeBytes r) s.regs.rasterOutBase.toNat
    (s.regs.height.toNat * rowBytes s.regs.width.toNat) := by
  have h := State.apart_of_checks hready.1
  simp only [regions, List.pairwise_cons, List.forall_mem_cons] at h
  obtain ⟨-, ⟨hraster, -⟩, -⟩ := h
  exact hraster (.inl rfl)

theorem decode_inMem : s.regs.treeBase.toNat + treeBytes r ≤ Config.memSize ∧
    s.regs.rasterOutBase.toNat + s.regs.height.toNat * rowBytes s.regs.width.toNat ≤ Config.memSize :=
  ⟨State.region_inMem hready.1 (g := treeRegion s.regs r true) (by simp [regions]),
    State.region_inMem hready.1 (g := rasterRegion s.regs s.regs.rasterOutBase true) (by simp [regions])⟩

theorem exec_decode (h : delinearizeBuffer s r = .ok d) : exec .decode s = .next (s.decoded d r) :=
  runTree_ok hready.1 hready.2 (by simp [h])

/-- Every successful DECODE is of a stream that decodes. -/
theorem decoded_of_exec {t : State} (hexec : exec .decode s = .next t) (herr : t.status.err = false) :
    ∃ d, delinearizeBuffer s r = .ok d ∧ t = s.decoded d r := by
  cases h : delinearizeBuffer s r with
  | error e =>
    obtain ⟨t', hexec', -, -, herr', -⟩ := exec_decode_error hready h
    cases hexec'.symm.trans hexec
    rw [herr] at herr'
    cases herr'
  | ok d =>
    cases (exec_decode hready h).symm.trans hexec
    exact ⟨d, rfl, rfl⟩

end

section
variable {s : State} {r : Nat} {d : Decoded} (hw : s.mem.wf) (hready : Ready .decode s r)
include hw hready

theorem treeCode_decoded (hlen : d.tree.length = nodeCount r) {i : Nat} (hi : i ≤ nodeCount r) :
    treeCode (s.decoded d r) i = nodeAt d.tree i := by
  have hr := State.one_le_of_checks_ok hready.1
  have hkept := Memory.sameBytes_writeBytes (writeTree_wf hw s.regs.treeBase.toNat d.tree)
    (length_rasterBytes d.tree r _ _ (d.hdr.getLsbD 0)).le (decode_apart hready)
  calc treeCode (s.decoded d r) i = _ := nibRead_congr hkept hr hi
    _ = nodeAt d.tree i := nibRead_writeTree hw hlen hr (decode_inMem hready).1 hi

theorem bitOut_decoded {x y : Nat} (hx : x < 8 * rowBytes s.regs.width.toNat) (hy : y < s.regs.height.toNat) :
    bitOut (s.decoded d r) x y =
      (decide (x < s.regs.width.toNat) && opix d.tree r (d.hdr.getLsbD 0) x y) :=
  pixelAt_writeRaster (writeTree_wf hw _ _) d.tree r _ (decode_inMem hready).2 hx hy

theorem bitOut_decoded_pixel {x y : Nat} (hx : x < s.regs.width.toNat) (hy : y < s.regs.height.toNat) :
    bitOut (s.decoded d r) x y = opix d.tree r (d.hdr.getLsbD 0) x y := by
  have hcol : x < 8 * rowBytes s.regs.width.toNat := by unfold rowBytes; omega
  rw [bitOut_decoded hw hready hcol hy, decide_eq_true hx, Bool.true_and]

theorem bitOut_decoded_pad {x y : Nat} (hpad : s.regs.width.toNat ≤ x) (hx : x < 8 * rowBytes s.regs.width.toNat)
    (hy : y < s.regs.height.toNat) : bitOut (s.decoded d r) x y = false := by
  rw [bitOut_decoded hw hready hx hy, decide_eq_false hpad.not_gt, Bool.false_and]

end

/-- Settles O51: the raster is written apart from the tree, from the codes that stand there. -/
theorem decodeWritesTreeAndRaster : Obligations.DecodeWritesTreeAndRaster := by
  intro s r d ⟨hw, _, _, _⟩ hready h
  have hlen := length_delinearize h
  have hhdr := delinearize_hdr h
  refine ⟨_, exec_decode hready h, s.commit_succeeds _, rfl, fun i hi => treeCode_decoded hw hready hlen hi.le, ?pad,
    ?pixels, fun x y => bitOut_decoded_pad hw hready, ?outside, delinearized_size h, delinearized_info h⟩
  case pad =>
    rw [treeCode_decoded hw hready hlen le_rfl]
    exact List.getD_eq_default _ _ hlen.le
  case pixels =>
    intro x y hx hy
    rw [bitOut_decoded_pixel hw hready hx hy, hhdr]
    rfl
  case outside =>
    intro a htree hraster
    calc _ = _ := read_writeRaster_outside (writeTree_wf hw _ _) d.tree r _ hraster
      _ = _ := read_writeTree_outside hw hlen (State.one_le_of_checks_ok hready.1) htree

/-! The block commands in turn (R204) -/

/-- The regions of the block commands are those of DECODE, one of them only read. -/
theorem regionsValid_blocks_of_decode {rg : Regs} {r : Nat} (h : regionsValid (regions rg r .decode) = true)
    (inv : Bool) : regionsValid (regions rg r .delinearize) = true ∧
      regionsValid (regions rg r (.reconstruct inv)) = true := by
  simp only [regions, regionsValid, disjointWrites, List.all_cons, List.all_nil, Bool.and_true, Bool.and_eq_true] at h ⊢
  obtain ⟨⟨hstream, htree, hraster⟩, ⟨hstreamTree, -⟩, htreeRaster⟩ := h
  exact ⟨⟨⟨hstream, htree⟩, hstreamTree⟩, ⟨htree, hraster⟩, htreeRaster⟩

/-- Settles O53: RECONSTRUCT finds the tree that DELINEARIZE wrote. -/
theorem decodeIsDelinearizeReconstruct : Obligations.DecodeIsDelinearizeReconstruct := by
  intro s t r ⟨hw, _, _, _⟩ hready hexec herr
  obtain ⟨d, hd, rfl⟩ := decoded_of_exec hready hexec herr
  have hinv : (s.decoded d r).results.info.getLsbD 0 = d.hdr.getLsbD 0 := getLsbD_infoOf _ Nat.zero_lt_two
  rw [hinv]
  obtain ⟨-, -, -, -, hvalid⟩ := State.checks_ok hready.1
  obtain ⟨hdelinearize, hreconstruct⟩ := regionsValid_blocks_of_decode hvalid (d.hdr.getLsbD 0)
  have htree : (s.delinearized d).treeIn r = d.tree :=
    readTree_writeTree hw (length_delinearize hd) (State.one_le_of_checks_ok hready.1) (decode_inMem hready).1
  refine ⟨s.delinearized d, exec_delinearize ⟨State.checks_of_checks hready.1 hdelinearize, hready.2⟩ hd,
    s.commit_succeeds _, ?_⟩
  have hreadyReconstruct : Ready (.reconstruct (d.hdr.getLsbD 0)) (s.delinearized d) r :=
    ⟨State.checks_of_checks hready.1 hreconstruct, rfl⟩
  rw [exec_reconstruct hreadyReconstruct]
  have hsame : (s.delinearized d).reconstructed (d.hdr.getLsbD 0) r = s.decoded d r := by
    rw [State.reconstructed, htree]
    rfl
  rw [hsame]

/-! The pixels of a built tree (R120, R142, R191) -/

section
variable {x y : Nat} (hx : x < 2 ^ 16) (hy : y < 2 ^ 16)
include hx hy

/-- R120 for coordinates given as integers. -/
theorem testBit_mortNat (j : Nat) :
    (mortNat x y).testBit j = if j % 2 = 0 then x.testBit (j / 2) else y.testBit (j / 2) := by
  have high {v : Nat} (hv : v < 2 ^ 16) (hj : 32 ≤ j) : v.testBit (j / 2) = false :=
    Nat.testBit_lt_two_pow (hv.trans_le (Nat.pow_le_pow_right (by omega) (by omega)))
  show (mort (BitVec.ofNat 16 x) (BitVec.ofNat 16 y)).getLsbD j = _
  by_cases hj : j < 32
  · have hhalf : j / 2 < 16 := by omega
    simp only [mort, getLsbD_ofBits, BitVec.getLsbD_ofNat, hj, hhalf, decide_true, Bool.true_and]
  · simp [mort, hj, high hx (by omega), high hy (by omega)]

/-- The code of a pixel is that of its 2×2 block, then its quadrant (R142). -/
theorem mortNat_eq_block_add_quadrant : mortNat x y = 4 * mortNat (x / 2) (y / 2) + (x % 2 + 2 * (y % 2)) := by
  refine Nat.eq_of_testBit_eq fun j => ?_
  rw [testBit_mortNat hx hy, show 4 = 2 ^ 2 from rfl, Nat.testBit_two_pow_mul_add _ (by omega)]
  match j with
  | 0 => simp [Nat.testBit_zero]
  | 1 => simp [Nat.testBit_succ, Nat.add_mul_div_left]
  | j + 2 =>
    rw [if_neg (show ¬j + 2 < 2 by omega), Nat.add_sub_cancel, testBit_mortNat (by omega) (by omega), Nat.add_mod_right,
      Nat.add_div_right _ Nat.two_pos, Nat.testBit_succ, Nat.testBit_succ]

end

theorem demort_mortNat (x y : Nat) :
    demort (BitVec.ofNat 32 (mortNat x y)) = (BitVec.ofNat 16 x, BitVec.ofNat 16 y) := by
  rw [mortNat, BitVec.ofNat_toNat, BitVec.setWidth_eq, demort_mort]

/-- A pixel of the square of side 2^r is the bit of its quadrant in the leaf of its block. -/
theorem opix_buildTree (pix : Nat → Nat → Bool) {r x y : Nat} (inv : Bool) (hr : 1 ≤ r) (hr16 : r ≤ 16)
    (hx : x < 2 ^ r) (hy : y < 2 ^ r) : opix (buildTree pix r) r inv x y = (pix x y).xor inv := by
  have hle : 2 ^ r ≤ 2 ^ 16 := Nat.pow_le_pow_right (by omega) hr16
  have hcode := mortNat_eq_block_add_quadrant (hx.trans_le hle) (hy.trans_le hle)
  have hblock : mortNat x y / 4 = mortNat (x / 2) (y / 2) := by omega
  have hquadrant : mortNat x y % 4 = x % 2 + 2 * (y % 2) := by omega
  have hleaf := mortNat_div_four_lt hr hx hy
  rw [opix, nodeAt_buildTree_leaf pix hr hleaf, getLsbD_leafCode pix _ (Nat.mod_lt _ (by omega)), hblock, hquadrant,
    demort_mortNat, BitVec.toNat_ofNat, BitVec.toNat_ofNat,
    show 2 * (x / 2 % 2 ^ 16) + (x % 2 + 2 * (y % 2)) % 2 = x by omega,
    show 2 * (y / 2 % 2 ^ 16) + (x % 2 + 2 * (y % 2)) / 2 = y by omega]

/-! The round trip (R205) -/

/-- The polarity of a candidate cancels in its tree's raster (R141, R191). -/
theorem opix_rasterTree {s : State} {i : Instr} {r : Nat} (hchecks : s.checks i = .ok r) (p : Bool) {x y : Nat}
    (hx : x < s.regs.width.toNat) (hy : y < s.regs.height.toNat) : opix (rasterTree s p r) r p x y = pixelIn s x y := by
  obtain ⟨hr15, hwidth, hheight⟩ := State.dimensions_le_of_checks_ok hchecks
  rw [rasterTree, opix_buildTree _ p (State.one_le_of_checks_ok hchecks) (by omega) (hx.trans_le hwidth)
    (hy.trans_le hheight), epix_eq]
  simp [hx, hy]

/-- The stream of a candidate, wherever it stands, decodes to the candidate's tree with its polarity. -/
theorem delinearize_candidate {s : State} {p : Bool} {r : Nat} {c : Candidate} (hc : candidate s p r = .ok c)
    {m : Memory} {b len : Nat} (hbytes : ∀ j, j < c.stream.length → m.read (b + j) = c.stream.getD j 0#8)
    (hroom : c.stream.length ≤ len) : delinearize m b len r =
      .ok { tree := c.tree, hdr := headerByte p (decide (nodeAt c.tree 0 = 0#4)), consumed := c.stream.length } := by
  obtain ⟨htree, hrd, hlin⟩ := candidate_eq_ok_iff.mp hc
  rw [hrd] at hlin
  exact delinearize_linearize (htree ▸ rasterTree_codeInvariant s p r) (length_of_candidate hc).1 hlin hbytes hroom

/-- Settles O56: the stream fits R168's bound, and decodes to the tree of the candidate kept. -/
theorem encodeDecodeRoundTrip : Obligations.EncodeDecodeRoundTrip := by
  intro s r ⟨hw, _, _, _⟩ hready hroom
  obtain ⟨c, p, htrial, hc⟩ := exists_polarityTrial s r
  have hcap := (length_candidate_le (State.one_le_of_checks_ok hready.1) hc).trans hroom
  have hsize := encoded_size (s := s) hcap
  refine ⟨s.encoded c, exec_encode hready htrial hcap, s.commit_succeeds _, ?_⟩
  intro u ⟨hwu, _, _, _⟩ hreadyU hwidth hheight hlen hbytes
  rw [hsize] at hlen hbytes
  have hd := delinearize_candidate hc (fun j hj => (hbytes j hj).trans (read_encoded hw hready hcap hj)) hlen
  refine ⟨_, exec_decode hreadyU hd, u.commit_succeeds _, rfl, ?pixels, ?pad⟩
  case pixels =>
    intro x y hx hy
    obtain ⟨htree, -, -⟩ := candidate_eq_ok_iff.mp hc
    rw [bitOut_decoded_pixel hwu hreadyU (hwidth ▸ hx) (hheight ▸ hy), headerByte_inv, htree,
      opix_rasterTree hready.1 p hx hy]
  case pad =>
    rw [← hwidth, ← hheight]
    exact fun x y => bitOut_decoded_pad hwu hreadyU

end Sys2Proof.Machine

/-!
PROOFS. What ENCODE depends on (spec/46_pipeline.md R206–R209): the in-bounds pixels under the polarity settle a
candidate's tree, so equal rasters give equal outputs, complemented rasters exchange their candidates, and a uniform
raster takes the shortcut.
-/

namespace Sys2Proof.Machine

open Sys2Proof.Safety

/-! Determinism (R206) -/

/-- A tree is settled by the in-bounds pixels under its polarity (R141). -/
theorem rasterTree_eq_of_pixels {s u : State} {p q : Bool} (hwidth : u.regs.width = s.regs.width)
    (hheight : u.regs.height = s.regs.height) (hpix : ∀ x y, x < s.regs.width.toNat → y < s.regs.height.toNat →
      (pixelIn u x y).xor q = (pixelIn s x y).xor p) (r : Nat) : rasterTree u q r = rasterTree s p r := by
  refine congrArg (buildTree · r) (funext₂ fun x y => ?_)
  rw [epix_eq, epix_eq, hwidth, hheight]
  by_cases hin : x < s.regs.width.toNat ∧ y < s.regs.height.toNat
  · have hxy := hpix x y hin.1 hin.2
    rw [← hxy, pixelIn, hwidth]
  · rcases not_and_or.mp hin with hx | hy
    · simp [hx]
    · simp [hy]

theorem candidate_congr {s u : State} {p : Bool} {r : Nat} (h : rasterTree u p r = rasterTree s p r) :
    candidate u p r = candidate s p r := by
  rw [candidate, h, candidate]

/-- Settles O57: the trial is that of the same two trees, and an ENCODE that keeps a candidate writes it whole. -/
theorem encodingDependsOnlyOnThePixels : Obligations.EncodingDependsOnlyOnThePixels := by
  intro s u t v r ⟨hws, _, _, _⟩ ⟨hwu, _, _, _⟩ hreadyS hreadyU hwidth hheight hpix hexecS hexecU herrS herrU
  obtain ⟨c, p, htrialS, hc⟩ := exists_polarityTrial s r
  have hsame (q : Bool) : candidate u q r = candidate s q r :=
    candidate_congr (rasterTree_eq_of_pixels hwidth hheight (fun x y hx hy => by rw [hpix x y hx hy]) r)
  have htrialU : polarityTrial u r = .ok c := by
    rw [← htrialS, polarityTrial, polarityTrial, hsame, hsame]
  obtain ⟨hcapS, rfl⟩ := encoded_of_exec hreadyS htrialS hexecS herrS
  obtain ⟨hcapU, rfl⟩ := encoded_of_exec hreadyU htrialU hexecU herrU
  have hlen := length_of_candidate hc
  refine ⟨rfl, fun i hi => ⟨?code, ?descriptor⟩, fun j hj => ?stream⟩
  case code => rw [treeCode_encoded hws hreadyS hlen hcapS hi.le, treeCode_encoded hwu hreadyU hlen hcapU hi.le]
  case descriptor => rw [rdAt_encoded hws hreadyS hlen hcapS hi, rdAt_encoded hwu hreadyU hlen hcapU hi]
  case stream =>
    rw [encoded_size hcapS] at hj
    exact (read_encoded hwu hreadyU hcapU hj).trans (read_encoded hws hreadyS hcapS hj).symm

/-! Inversion (R207) -/

/-- INV of a candidate's stream is its polarity (R88). -/
theorem candidate_inv {s : State} {p : Bool} {r : Nat} {c : Candidate} (hc : candidate s p r = .ok c) :
    (c.stream.getD 0 0#8).getLsbD 0 = p := by
  rw [candidate_header hc, headerByte_inv]

/-- Candidates of one tree have one body, whatever their polarities. -/
theorem candidate_body_eq {s u : State} {p q : Bool} {r : Nat} {c k : Candidate} (hc : candidate s p r = .ok c)
    (hk : candidate u q r = .ok k) (h : rasterTree u q r = rasterTree s p r) :
    k.stream.tail = c.stream.tail ∧ k.stream.length = c.stream.length := by
  obtain ⟨hctree, hcrd, hclin⟩ := candidate_eq_ok_iff.mp hc
  obtain ⟨hktree, hkrd, hklin⟩ := candidate_eq_ok_iff.mp hk
  have htree : k.tree = c.tree := by rw [hktree, h, hctree]
  have hrd : k.rd = c.rd := by rw [hkrd, htree, hcrd]
  obtain ⟨body, hbody, hcstream⟩ := linearize_eq_ok_iff.mp hclin
  obtain ⟨body', hbody', hkstream⟩ := linearize_eq_ok_iff.mp hklin
  rw [htree, hrd, hbody] at hbody'
  cases hbody'
  rw [hcstream, hkstream]
  exact ⟨rfl, rfl⟩

/-- Settles O58: the candidates change places, and the shorter body is kept, under the other polarity, where one is
shorter. -/
theorem inversionSymmetry : Obligations.InversionSymmetry := by
  intro s u r _ hwidth hheight hpix
  have htrees (p : Bool) : rasterTree u p r = rasterTree s (!p) r :=
    rasterTree_eq_of_pixels hwidth hheight (fun x y hx hy => by rw [hpix x y hx hy, Bool.not_xor, Bool.xor_not]) r
  refine ⟨htrees, fun c0 c1 c k h0 h1 hc hk => ?_⟩
  obtain ⟨k0, hk0⟩ := exists_candidate u false r
  obtain ⟨k1, hk1⟩ := exists_candidate u true r
  obtain ⟨hbody0, hlen0⟩ := candidate_body_eq h1 hk0 (htrees false)
  obtain ⟨hbody1, hlen1⟩ := candidate_body_eq h0 hk1 (htrees true)
  rw [polarityTrial_eq h0 h1, Except.ok.injEq] at hc
  rw [polarityTrial_eq hk0 hk1, Except.ok.injEq, hlen0, hlen1] at hk
  rcases lt_trichotomy c0.stream.length c1.stream.length with hlt | heq | hgt
  · rw [if_neg hlt.not_gt] at hc
    rw [if_pos hlt] at hk
    subst hc hk
    exact ⟨hlen1, fun _ => ⟨hbody1, by rw [candidate_inv hk1, candidate_inv h0, Bool.not_false]⟩,
      fun heq => absurd heq hlt.ne⟩
  · rw [if_neg heq.not_gt] at hc
    rw [if_neg heq.not_lt] at hk
    subst hc hk
    exact ⟨hlen0.trans heq.symm, fun hne => absurd heq hne, fun _ => ⟨candidate_inv hk0, candidate_inv h0⟩⟩
  · rw [if_pos hgt] at hc
    rw [if_neg hgt.not_gt] at hk
    subst hc hk
    exact ⟨hlen0, fun _ => ⟨hbody0, by rw [candidate_inv hk0, candidate_inv h1, Bool.not_true]⟩,
      fun heq => absurd heq hgt.ne'⟩

/-! Uniform rasters (R209) -/

theorem length_nibbles_pos (item : Item) : 1 ≤ item.nibbles.length := by
  cases item with
  | code c => exact le_rfl
  | run lcode v =>
    rw [length_runNibbles]
    split <;> omega

section
variable {s : State} {p : Bool} {r : Nat} {c : Candidate} (hc : candidate s p r = .ok c)
include hc

theorem stream_of_root_eq_zero (hroot : nodeAt (rasterTree s p r) 0 = 0#4) : c.stream = [headerByte p true] := by
  obtain ⟨htree, -, hlin⟩ := candidate_eq_ok_iff.mp hc
  rw [linearize_shortcut _ _ (htree ▸ hroot)] at hlin
  exact (Except.ok.inj hlin).symm

/-- A nonzero root has an item. -/
theorem two_le_length_of_root_ne_zero (hr : 1 ≤ r) (hroot : nodeAt (rasterTree s p r) 0 ≠ 0#4) :
    2 ≤ c.stream.length := by
  obtain ⟨htree, hrd, hlin⟩ := candidate_eq_ok_iff.mp hc
  obtain ⟨rest, hbody⟩ := streamBody_root (nodeAt c.tree) (c.rd.getD · 0#8) hr
  have hitem := length_nibbles_pos (itemOf (nodeAt c.tree 0) (c.rd.getD 0 0#8))
  rw [eq_of_linearize (fun _ _ => rfl) (fun _ _ => rfl) (htree ▸ hroot) hlin, length_stream, hbody, List.length_append,
    streamLength]
  omega

end

section
variable {s : State} {r : Nat} (hready : Ready .encode s r)
include hready

/-- R145 (b) for the tree of a candidate. -/
theorem rasterTree_root_eq_zero_iff (hs : Inv s) (p : Bool) : nodeAt (rasterTree s p r) 0 = 0#4 ↔
    ∀ x y, x < s.regs.width.toNat → y < s.regs.height.toNat → pixelIn s x y = p := by
  obtain ⟨-, -, -, -, hvalid⟩ := State.checks_ok hready.1
  have hbuild : Ready (.build p) s r :=
    ⟨State.checks_of_checks hready.1 (regionsValid_blocks_of_encode hvalid p).1, hready.2⟩
  rw [← treeCode_built hbuild hs.1 (Nat.zero_le _)]
  exact builtRootIsZeroIffRasterIsEmpty p s _ r hs hbuild (exec_build hbuild)

/-- The candidate whose polarity is that of a uniform raster is its header byte, and the other one is longer. -/
theorem polarityTrial_uniform (hs : Inv s) {p : Bool}
    (hpix : ∀ x y, x < s.regs.width.toNat → y < s.regs.height.toNat → pixelIn s x y = p) :
    ∃ c, polarityTrial s r = .ok c ∧ c.stream = [headerByte p true] := by
  obtain ⟨-, hwidth, hheight, -, -⟩ := State.checks_ok hready.1
  have hx : 0 < s.regs.width.toNat := Nat.pos_of_ne_zero fun h => hwidth (BitVec.eq_of_toNat_eq h)
  have hy : 0 < s.regs.height.toNat := Nat.pos_of_ne_zero fun h => hheight (BitVec.eq_of_toNat_eq h)
  have hother : nodeAt (rasterTree s (!p) r) 0 ≠ 0#4 := by
    rw [Ne, rasterTree_root_eq_zero_iff hready hs]
    intro hall
    exact (Bool.eq_not_self p).mp ((hpix 0 0 hx hy).symm.trans (hall 0 0 hx hy))
  obtain ⟨c, hc⟩ := exists_candidate s p r
  obtain ⟨k, hk⟩ := exists_candidate s (!p) r
  have hstream := stream_of_root_eq_zero hc ((rasterTree_root_eq_zero_iff hready hs p).mpr hpix)
  have hlonger := two_le_length_of_root_ne_zero hk (State.one_le_of_checks_ok hready.1) hother
  have hlen : c.stream.length = 1 := by rw [hstream, List.length_singleton]
  refine ⟨c, ?_, hstream⟩
  cases p with
  | false => rw [polarityTrial_eq hc hk, if_neg (by omega)]
  | true => rw [polarityTrial_eq hk hc, if_pos (by omega)]

end

/-- Settles O59: the candidate of the raster's own polarity takes the shortcut. -/
theorem uniformRastersEncodeToOneByte : Obligations.UniformRastersEncodeToOneByte := by
  intro s r hs hready hroom p hpix
  obtain ⟨c, htrial, hstream⟩ := polarityTrial_uniform hready hs hpix
  have hcap : c.stream.length ≤ s.regs.streamOutCap.toNat := by rwa [hstream]
  refine ⟨_, exec_encode hready htrial hcap, s.commit_succeeds _, ?size, ?byte⟩
  case size =>
    show (streamResults c.stream).resultSize = 1#32
    rw [hstream]
    rfl
  case byte =>
    have hread := read_encoded hs.1 hready hcap (j := 0) (by rw [hstream]; exact Nat.one_pos)
    rw [hstream, List.getD_cons_zero, headerByte_shortcut] at hread
    exact hread

end Sys2Proof.Machine

/-!
PROOFS. The errors (spec/60_exceptions.md R220–R224): which of them a command can report (R222), that an error changes
nothing but STATUS (R224), and what a command of another instance does to this core (R233).
-/

namespace Sys2Proof.Machine

open Sys2Proof.Safety

/-! The errors of R222 -/

/-- Every tree command can report the two errors of the checks (R114, R115). -/
theorem checks_errors_mem_possibleErrors {i : Instr} (hi : isTreeCommand i = true) :
    CmdError.invalidDimensions ∈ possibleErrors i ∧ CmdError.badAddr ∈ possibleErrors i := by
  cases i with
  | linearize inv count => cases count <;> simp [possibleErrors]
  | build | compress | delinearize | reconstruct | encode | decode => simp [possibleErrors]
  | nop | mortonEnc | mortonDec | mortonIncx | mortonIncy | mortonRstx | mortonRsty => cases hi

theorem State.checks_error_mem {i : Instr} {s : State} {e : CmdError} (hi : isTreeCommand i = true)
    (h : s.checks i = .error e) : e ∈ possibleErrors i := by
  obtain ⟨hdimensions, haddr⟩ := checks_errors_mem_possibleErrors hi
  rcases s.checks_cases i with hc | hc | ⟨hc, -⟩ <;> cases hc.symm.trans h
  · exact hdimensions
  · exact haddr

theorem badTree_mem_possibleErrors_linearize (inv count : Bool) :
    CmdError.badTree ∈ possibleErrors (.linearize inv count) := by
  cases count <;> simp [possibleErrors]

/-- The operation of a tree command raises only errors of R222. ENCODE does not raise BADTREE, because each of its
candidates has a stream (R201). -/
theorem exec_tree_errors {i : Instr} (hi : isTreeCommand i = true) (s : State) :
    ∃ perform, exec i s = runTree i s perform ∧ ∀ r e, perform r = .error e → e ∈ possibleErrors i := by
  unfold exec
  cases i with
  | build | compress | reconstruct =>
    refine ⟨_, rfl, ?_⟩
    rintro r e ⟨⟩
  | linearize inv count =>
    refine ⟨_, rfl, fun r e h => ?_⟩
    split at h
    · next hstream =>
      cases h
      cases linearize_error hstream
      exact badTree_mem_possibleErrors_linearize inv count
    cases count with
    | true => cases h
    | false =>
      rw [if_neg Bool.false_ne_true] at h
      split at h <;> cases h
      simp [possibleErrors]
  | delinearize | decode =>
    refine ⟨_, rfl, fun r e h => ?_⟩
    split at h <;> cases h
    next hstream =>
      cases delinearize_error hstream
      simp [possibleErrors]
  | encode =>
    refine ⟨_, rfl, fun r e h => ?_⟩
    obtain ⟨c, -, htrial, -⟩ := exists_polarityTrial s r
    rw [htrial] at h
    dsimp only at h
    split at h <;> cases h
    simp [possibleErrors]
  | nop | mortonEnc | mortonDec | mortonIncx | mortonIncy | mortonRstx | mortonRsty => cases hi

/-- How a command comes to end in an error: by the free outcome of U11, or by taking one of its errors. -/
theorem exec_error_cases {i : Instr} {s t : State} (h : exec i s = .next t) (herr : t.status.err = true) :
    (s.interfered = true ∧ t = s.completeUnspecified i) ∨ ∃ e ∈ possibleErrors i, t = s.raiseError e := by
  cases hi : isTreeCommand i with
  | false =>
    obtain ⟨mo, he, -⟩ := exec_not_tree hi s
    cases he.symm.trans h
    cases herr
  | true =>
    obtain ⟨perform, he, herrors⟩ := exec_tree_errors hi s
    rw [he] at h
    rcases runTree_cases i s perform with
      ⟨hint, hr⟩ | ⟨e, -, hc, hr⟩ | ⟨r, e, -, -, hp, hr⟩ | ⟨r, eff, -, -, -, hr⟩ <;> cases hr.symm.trans h
    · exact .inl ⟨hint, rfl⟩
    · exact .inr ⟨e, State.checks_error_mem hi hc, rfl⟩
    · exact .inr ⟨e, herrors r e hp, rfl⟩
    · cases herr

/-- The free outcome of U11 is success or an error of R222. -/
theorem mem_possibleErrors_of_freeOutcome {d : Nat} {i : Instr} {e : CmdError} (h : freeOutcome d i = some e) :
    e ∈ possibleErrors i := by
  have hdrawn : freeOutcome d i ∈ none :: (possibleErrors i).map some := by
    unfold freeOutcome
    dsimp only
    rw [List.getD_eq_getElem _ _ (Nat.mod_lt _ (List.length_pos_of_ne_nil (List.cons_ne_nil _ _)))]
    exact List.getElem_mem _
  simpa [h] using hdrawn

theorem errcode_of_exec {i : Instr} {s t : State} (h : exec i s = .next t) (herr : t.status.err = true) :
    ∃ e ∈ possibleErrors i, t.status.errcode = e.code := by
  rcases exec_error_cases h herr with ⟨-, rfl⟩ | ⟨e, he, rfl⟩
  · rw [State.completeUnspecified_status, Status.complete_err] at herr
    obtain ⟨e, hfree⟩ := Option.isSome_iff_exists.mp herr
    exact ⟨e, mem_possibleErrors_of_freeOutcome hfree, by
      rw [State.completeUnspecified_status, hfree, Status.complete_some_errcode]⟩
  · exact ⟨e, he, rfl⟩

/-- Settles O25: the error taken is one of `possibleErrors`, whose codes are those of R222's table. -/
theorem eachCommandReportsOnlyItsErrors : Obligations.EachCommandReportsOnlyItsErrors := by
  intro i s t h herr
  obtain ⟨e, he, hcode⟩ := errcode_of_exec h herr
  have hlisted : e.code.toNat ∈ (possibleErrors i).map fun e => e.code.toNat := List.mem_map_of_mem he
  rw [hcode]
  cases i with
  | linearize inv count => cases count <;> exact hlisted
  | _ => exact hlisted

/-- Settles O24: with no other agent in the way a command ends in an error by taking it. -/
theorem errorsRollBack : Obligations.ErrorsRollBack := by
  intro i s t hint h herr
  rcases exec_error_cases h herr with ⟨hint', -⟩ | ⟨e, -, rfl⟩
  · exact absurd hint' (by simp [hint])
  · exact s.raiseError_fails e

/-! A command of another instance (R233) -/

/-- The regions that a peer meets are those its region is not compatible with. -/
theorem bnot_compatible (g k : Region) : (!compatible g k) = ((g.write || k.write) && g.overlaps k) := Bool.not_not _

/-- A peer whose region is compatible with every region of the running command is not noticed. -/
theorem State.peerCommand_compatible {s : State} {k : Region} (h : ∀ g ∈ s.runningRegions, compatible g k = true) :
    s.peerCommand k = s := by
  have hmet : (s.runningRegions.filter fun g => (g.write || k.write) && g.overlaps k) = [] :=
    List.filter_eq_nil_iff.mpr fun g hg => by simp [← bnot_compatible, h g hg]
  simp only [State.peerCommand, hmet]

/-- A peer whose region is not makes the output unspecified, and changes nothing but MEM besides. -/
theorem State.peerCommand_incompatible {s : State} {k g : Region} (hg : g ∈ s.runningRegions)
    (h : ¬compatible g k = true) : s.peerCommand k =
      { s with mem := (s.peerCommand k).mem, interfered := true, draws := (s.peerCommand k).draws } := by
  have hmet : g ∈ s.runningRegions.filter fun g => (g.write || k.write) && g.overlaps k :=
    List.mem_filter.mpr ⟨hg, by simp [← bnot_compatible, h]⟩
  unfold State.peerCommand
  dsimp only
  split
  · next hnil => simp [hnil] at hmet
  · rfl

theorem Memory.read_foldl_fillFree_outside {m : Memory} (hw : m.wf) (d : Nat) (base len : Region → Nat)
    (gs : List Region) {a : Nat} (ha : ∀ g ∈ gs, ¬(base g ≤ a ∧ a < base g + len g)) :
    (gs.foldl (fun m g => m.fillFree d (base g) (len g)) m).read a = m.read a := by
  induction gs generalizing m with
  | nil => rfl
  | cons g gs ih =>
    obtain ⟨hg, hgs⟩ := List.forall_mem_cons.mp ha
    exact (ih (Memory.fillFree_wf hw d _ _) hgs).trans (Memory.read_fillFree_outside hw d _ _ a hg)

/-- Only a byte in common with a region, one of the two written, can change. -/
theorem State.read_peerCommand_outside {s : State} {k : Region} (hw : s.mem.wf) {a : Nat}
    (ha : ∀ g ∈ s.runningRegions, g.write = true ∨ k.write = true →
      ¬((g.base ≤ a ∧ a < g.base + g.len) ∧ (k.base ≤ a ∧ a < k.base + k.len))) :
    (s.peerCommand k).mem.read a = s.mem.read a := by
  unfold State.peerCommand
  dsimp only
  split
  · rfl
  · next =>
    refine Memory.read_foldl_fillFree_outside hw _ (fun g => (g.meet k).base) (fun g => (g.meet k).len) _ fun g hg => ?_
    rw [List.mem_filter, Bool.and_eq_true, Bool.or_eq_true] at hg
    obtain ⟨hrunning, hwrite, -⟩ := hg
    have hcommon := ha g hrunning hwrite
    simp only [Region.meet]
    omega

/-- Settles O21: the event reads the regions of the running command alone, of which an IDLE core and an illegal word have
none. -/
theorem disjointPeersDoNotInteract : Obligations.DisjointPeersDoNotInteract := by
  intro s base len writes rest hin
  have hstep := step_host hin
  have unnoticed (h : ∀ g ∈ s.runningRegions, compatible g ⟨base.toNat, len.toNat, writes⟩ = true) :
      step s = .next { s with inputs := rest } :=
    hstep.trans (congrArg Host.Outcome.next (State.peerCommand_compatible (s := { s with inputs := rest }) h))
  refine ⟨fun hp => unnoticed ?idle, fun e hd => unnoticed ?illegal, fun i hp hd h => unnoticed ?disjoint, ?overlap⟩
  case idle => simp [State.runningRegions_idle hp]
  case illegal => simp [State.runningRegions_illegal hd]
  case disjoint =>
    rw [State.runningRegions_busy hp hd]
    exact fun g hg => (compatible_iff _ _).mpr (h g hg)
  case overlap =>
    rintro i ⟨hw, _, _, _⟩ hp hd ⟨g, hg, hwrite, a, hcommon⟩
    have hregions : State.runningRegions { s with inputs := rest } = regions s.regs s.depthReg i :=
      State.runningRegions_busy (s := { s with inputs := rest }) hp hd
    have hpeer := State.peerCommand_incompatible (k := ⟨base.toNat, len.toNat, writes⟩) (hregions ▸ hg)
      fun hc => (compatible_iff _ _).mp hc hwrite a hcommon
    exact ⟨_, hstep, congrArg State.interfered hpeer, hpeer,
      fun a ha => State.read_peerCommand_outside (s := { s with inputs := rest }) hw (hregions ▸ ha)⟩

end Sys2Proof.Machine

/-!
PROOFS. Reset and the end of a command (spec/70_reset_and_hazards.md): the registers after reset (R250), what a reset
keeps of MEM (R251), and that every accepted command completes (R260).
-/

namespace Sys2Proof.Machine

open Sys2Proof.Safety

/-! The reset table (R250) -/

/-- Every field that a register is read from, but for the parameters, holds its value of the reset table. -/
structure State.AtReset (s : State) : Prop where
  phase : s.phase = .idle
  status : s.status = State.resetStatus
  regs : s.regs = State.resetRegs
  results : s.results = State.resetResults
  morton : s.morton = State.resetMorton

theorem State.reset_atReset : State.reset.AtReset := ⟨rfl, rfl, rfl, rfl, rfl⟩

theorem State.resetCore_atReset (s : State) (m : Memory) : (s.resetCore m).AtReset := ⟨rfl, rfl, rfl, rfl, rfl⟩

/-- DEPTH is 0 at reset, because WIDTH is. -/
theorem State.AtReset.depthReg_eq_zero {s : State} (h : s.AtReset) : s.depthReg = 0 :=
  if_pos (.inl (by rw [h.regs]; rfl))

theorem State.AtReset.statusWord_eq_zero {s : State} (h : s.AtReset) : s.statusWord = 0#32 := by
  rw [State.statusWord, h.phase, h.status]
  rfl

/-- Every register but CAPS reads 0 at reset. -/
theorem State.AtReset.readReg_eq_zero {s : State} (h : s.AtReset) {n : RegName} (hn : n ≠ .caps) :
    s.readReg n = 0#32 := by
  cases n with
  | caps => exact absurd rfl hn
  | cmd => rfl
  | status => exact h.statusWord_eq_zero
  | depth => exact (State.readReg_depth_zero h.depthReg_eq_zero).1
  | nodeCount => exact (State.readReg_depth_zero h.depthReg_eq_zero).2
  | resultSize | info =>
    rw [State.readReg, h.results]
    rfl
  | mortonX | mortonY | mortonCode =>
    rw [State.readReg, h.morton]
    rfl
  | width | height | rasterInBase | rasterOutBase | treeBase | rdBase | streamOutBase | streamOutCap | streamInBase
  | streamInLen =>
    rw [State.readReg, h.regs]
    rfl

/-- CAPS reads R_MAX (R41). -/
theorem State.toNat_readReg_caps (s : State) : (s.readReg .caps).toNat = s.rMax :=
  BitVec.toNat_setWidth_of_le (by decide)

/-- Settles O6: no byte of MEM is listed, R_MAX is 14 and STATUS reads 0. -/
theorem resetIsLegal : Obligations.ResetIsLegal :=
  ⟨⟨.nil, nofun⟩, by decide, by decide, nofun⟩

/-- Settles O9: State.reset holds the values of the table, and its parameters are the reference ones. -/
theorem stateResetReadsAsTheTable : Obligations.StateResetReadsAsTheTable :=
  ⟨rfl, fun _ hn => State.reset_atReset.readReg_eq_zero hn, rfl⟩

/-! The reset input and power-up (R250, R251) -/

/-- Both resets are `resetCore`, at some MEM. -/
theorem hostStep_reset_or_powerUp {e : HostEvent} (he : e = .reset ∨ e = .powerUp) (s : State) :
    ∃ m, hostStep e s = .next (s.resetCore m) := by
  rcases he with rfl | rfl <;> exact ⟨_, rfl⟩

/-- A reset that abandons no region keeps MEM. -/
theorem State.resetInput_mem_of_no_regions {s : State} (h : s.runningRegions = []) : s.resetInput.mem = s.mem := by
  simp [State.resetInput, h, Memory.fillWrites]

/-- A reset keeps every byte outside the W regions it abandons. -/
theorem State.read_resetInput_outside {s : State} (hw : s.mem.wf) {a : Nat}
    (ha : ∀ g ∈ s.runningRegions, g.write = true → ¬(g.base ≤ a ∧ a < g.base + g.len)) :
    s.resetInput.mem.read a = s.mem.read a :=
  Memory.read_fillWrites_outside hw _ _ _ fun g hg hwr => by simpa [Region.has] using ha g hg hwr

/-- Settles O8: both events end in `resetCore`, and an IDLE core has no region to abandon. -/
theorem resetSetsTheRegisters : Obligations.ResetSetsTheRegisters := by
  intro s e rest he hin
  obtain ⟨m, hreset⟩ := hostStep_reset_or_powerUp he { s with inputs := rest }
  refine ⟨_, (step_host hin).trans hreset, rfl, rfl, fun n hn => (State.resetCore_atReset _ m).readReg_eq_zero hn,
    State.toNat_readReg_caps _, ?mem, ?quiet⟩
  case mem =>
    rintro rfl hp
    cases hreset
    exact State.resetInput_mem_of_no_regions (s := { s with inputs := rest }) (State.runningRegions_idle hp)
  case quiet =>
    rintro rfl
    exact (step_no_inputs rfl).trans (coreStep_idle rfl)

/-- Settles O10: the reset input fills the W regions of the running command alone, of which an illegal word has none. -/
theorem resetWhileBusyKeepsOtherBytes : Obligations.ResetWhileBusyKeepsOtherBytes := by
  intro s rest ⟨hw, _, _, _⟩ hin hp
  refine ⟨_, step_host hin, rfl, fun n hn => (State.resetCore_atReset _ _).readReg_eq_zero hn,
    State.toNat_readReg_caps _, ?illegal, ?outside⟩
  case illegal =>
    intro e hd
    exact State.resetInput_mem_of_no_regions (s := { s with inputs := rest }) (State.runningRegions_illegal hd)
  case outside =>
    intro i a hd ha
    refine State.read_resetInput_outside (s := { s with inputs := rest }) hw ?_
    rwa [State.runningRegions_busy (s := { s with inputs := rest }) hp hd]

/-! Every accepted command completes (R260) -/

/-- No command is refused. -/
theorem exists_exec_eq_next (i : Instr) (s : State) : ∃ t, exec i s = .next t := by
  cases hi : isTreeCommand i with
  | false =>
    obtain ⟨mo, he, -⟩ := exec_not_tree hi s
    exact ⟨_, he⟩
  | true =>
    obtain ⟨perform, he, -⟩ := exec_tree hi s
    rw [he]
    rcases runTree_cases i s perform with ⟨-, hr⟩ | ⟨e, -, -, hr⟩ | ⟨r, e, -, -, -, hr⟩ | ⟨r, eff, -, -, -, hr⟩ <;>
      exact ⟨_, hr⟩

/-- The core's turn while BUSY is the completion of a state with the same STATUS. -/
theorem exists_coreStep_eq_complete {s : State} (hp : s.phase = .busy) :
    ∃ (u : State) (e : Option CmdError), coreStep s = .next (u.complete e) ∧ u.status = s.status := by
  cases hd : decode s.latched with
  | error e => exact ⟨s, some .badCmd, coreStep_illegal hp hd, rfl⟩
  | ok i =>
    obtain ⟨t, ht⟩ := exists_exec_eq_next i s
    obtain ⟨m, res, mo, d, e, rfl⟩ := (commandEnd_of_exec ht).exists_complete
    exact ⟨_, e, (coreStep_busy hp hd).trans ht, rfl⟩

/-- Settles O11: the core's turn while BUSY is a completion. -/
theorem everyAcceptedCommandCompletes : Obligations.EveryAcceptedCommandCompletes := by
  intro s hp hin
  obtain ⟨u, e, hstep, hstatus⟩ := exists_coreStep_eq_complete hp
  refine ⟨_, (step_no_inputs hin).trans hstep, rfl, Status.complete_done _ e, ?_⟩
  rw [State.complete_status, Status.complete_lost, hstatus]

end Sys2Proof.Machine
